-- ==== Sys2Proof/Word.lean ====
section
/-! DEFINITION. The word types of the CORE (spec/00_scope.md R9, R11, R12). -/

namespace Sys2Proof

/-- One byte of memory. -/
abbrev Byte := BitVec 8

/-- `XLEN` = 32: a register, an operand, an address, an ALU result, an instruction word (R9, R12, R80). Bit 31 is the
most significant bit (R11). `+` and `-` wrap modulo `2^32` and never trap (R12). -/
abbrev Word := BitVec 32

/-- A general register number, a 5-bit field of the instruction (R21, R81). -/
abbrev Reg := BitVec 5

/-- The link register, register 31 (R21, R194). -/
abbrev linkReg : Reg := 31#5

end Sys2Proof
end

