-- ==== Sys2Proof/Machine/Flags.lean ====
section
/-! DEFINITION. The machine has no status flag (spec/10_state.md R29). The comparisons that stand in for flags: the
ALU's zero output (spec/30_encoding.md R104), the two orderings of the set-on-less-than instructions, and the direction
a branch takes from the zero output (spec/47_branch_prediction.md R286). -/

namespace Sys2Proof.Machine

/-- The ALU's zero output: 1 if the result is 0 (R104). It is stored nowhere (R29). -/
def zeroFlag (result : Word) : Bool := result == 0#32

/-- `signed(a) < signed(b)`, exact (R12, R104, R132). -/
def signedLess (a b : Word) : Bool := decide (a.toInt < b.toInt)

/-- `unsigned(a) < unsigned(b)` (R12, R104, R133). -/
def unsignedLess (a b : Word) : Bool := decide (a.toNat < b.toNat)

/-- A truth value as the word 1 or 0 (R132, R133). -/
def boolWord (b : Bool) : Word := if b then 1#32 else 0#32

/-- The actual direction of a branch, from {branch vs branch-not-equal, zero flag} (R286). -/
def branchTaken (branchNE zero : Bool) : Bool := if branchNE then !zero else zero

end Sys2Proof.Machine
end

