-- ==== Sys2Proof/Syntax.lean ====
section
/-! DEFINITION. The instructions of CORE-ISA (spec/30_encoding.md R86, R87), their assembler forms (R91, R92) and the
two control words the Decode Unit and the ALU control unit produce (R100, R103). -/

namespace Sys2Proof

/-- The 33 instructions of R86 and R87, one constructor per row of spec/opcode_table.json. The operands stand in the
order of the assembler syntax (R91). A field the format does not use is ignored (R89) and is no operand (log 20). -/
inductive Instr where
  -- format R, opcode 0x00 (R82, R87)
  | sll (rd rt : Reg) (shamt : BitVec 5)
  | srl (rd rt : Reg) (shamt : BitVec 5)
  | sra (rd rt : Reg) (shamt : BitVec 5)
  | jr (rs : Reg)
  | add (rd rs rt : Reg)
  | addu (rd rs rt : Reg)
  | sub (rd rs rt : Reg)
  | subu (rd rs rt : Reg)
  | and (rd rs rt : Reg)
  | or (rd rs rt : Reg)
  | xor (rd rs rt : Reg)
  | nor (rd rs rt : Reg)
  | slt (rd rs rt : Reg)
  | sltu (rd rs rt : Reg)
  -- format J (R84)
  | j (index : BitVec 26)
  | jal (index : BitVec 26)
  -- format I (R83)
  | beq (rs rt : Reg) (imm : BitVec 16)
  | bne (rs rt : Reg) (imm : BitVec 16)
  | addi (rt rs : Reg) (imm : BitVec 16)
  | addiu (rt rs : Reg) (imm : BitVec 16)
  | slti (rt rs : Reg) (imm : BitVec 16)
  | sltiu (rt rs : Reg) (imm : BitVec 16)
  | andi (rt rs : Reg) (imm : BitVec 16)
  | ori (rt rs : Reg) (imm : BitVec 16)
  | lui (rt : Reg) (imm : BitVec 16)
  | lb (rt : Reg) (imm : BitVec 16) (rs : Reg)
  | lh (rt : Reg) (imm : BitVec 16) (rs : Reg)
  | lw (rt : Reg) (imm : BitVec 16) (rs : Reg)
  | lbu (rt : Reg) (imm : BitVec 16) (rs : Reg)
  | lhu (rt : Reg) (imm : BitVec 16) (rs : Reg)
  | sb (rt : Reg) (imm : BitVec 16) (rs : Reg)
  | sh (rt : Reg) (imm : BitVec 16) (rs : Reg)
  | sw (rt : Reg) (imm : BitVec 16) (rs : Reg)
  deriving DecidableEq, Repr

/-! ### Assembler forms (R91, R92) -/

/-- The mnemonics of the form `OP Rd,Rs,Rt`. -/
inductive RegOp where
  | add | addu | sub | subu | and | or | xor | nor | slt | sltu
  deriving DecidableEq, Repr

/-- The mnemonics of the form `OP Rd,Rt,#shamt`. -/
inductive ShiftOp where
  | sll | srl | sra
  deriving DecidableEq, Repr

/-- The mnemonics of the form `OP Rt,Rs,#imm` with a 16-bit signed immediate. -/
inductive SignedImmOp where
  | addi | addiu | slti | sltiu
  deriving DecidableEq, Repr

/-- The mnemonics of the form `OP Rt,Rs,#imm` with a 16-bit unsigned immediate. -/
inductive UnsignedImmOp where
  | andi | ori
  deriving DecidableEq, Repr

/-- The mnemonics of the form `OP Rt,offset(Rs)`. -/
inductive MemOp where
  | lb | lh | lw | lbu | lhu | sb | sh | sw
  deriving DecidableEq, Repr

/-- The mnemonics of the form `OP Rs,Rt,#target`. -/
inductive BranchOp where
  | beq | bne
  deriving DecidableEq, Repr

/-- The mnemonics of the form `OP #target`. -/
inductive JumpOp where
  | j | jal
  deriving DecidableEq, Repr

/-- One line of assembler as R91 writes it, before any range check: register numbers, immediates and target
addresses as numbers. -/
inductive Asm where
  | regs (op : RegOp) (rd rs rt : Nat)
  | shift (op : ShiftOp) (rd rt shamt : Nat)
  | jr (rs : Nat)
  | signedImm (op : SignedImmOp) (rt rs : Nat) (imm : Int)
  | unsignedImm (op : UnsignedImmOp) (rt rs imm : Nat)
  | lui (rt imm : Nat)
  | mem (op : MemOp) (rt : Nat) (offset : Int) (rs : Nat)
  | branch (op : BranchOp) (rs rt target : Nat)
  | jump (op : JumpOp) (target : Nat)
  /-- The one pseudo-instruction (R92). -/
  | nop
  deriving DecidableEq, Repr

/-! ### Control words -/

/-- The control-signal vector (R100). `aluOp` is 00 add, 01 subtract, 10 by funct, 11 by opcode. -/
structure Ctrl where
  regDst       : Bool
  jump         : Bool
  branch       : Bool
  branchNE     : Bool
  memRead      : Bool
  memWrite     : Bool
  aluSrc       : Bool
  aluOp        : BitVec 2
  regWrite     : Bool
  memToReg     : Bool
  link         : Bool
  lui          : Bool
  half         : Bool
  byte         : Bool
  loadUnsigned : Bool
  deriving DecidableEq, Repr

/-- The all-zero control vector (R96, R101). -/
def Ctrl.zero : Ctrl where
  regDst       := false
  jump         := false
  branch       := false
  branchNE     := false
  memRead      := false
  memWrite     := false
  aluSrc       := false
  aluOp        := 0b00#2
  regWrite     := false
  memToReg     := false
  link         := false
  lui          := false
  half         := false
  byte         := false
  loadUnsigned := false

/-- The ALU's operations (R104). -/
inductive AluOp where
  | add | sub | and | or | xor | nor | slt | sltu | sll | srl | sra
  deriving DecidableEq, Repr

/-- The ALU control `actl` (R103). -/
structure AluControl where
  op          : AluOp
  shift       : Bool
  jumpReg     : Bool
  zextImm     : Bool
  unsupported : Bool
  deriving DecidableEq, Repr

/-- The ALU control of an empty latch (R34). DESIGN CHOICE (log 15, safe): the value 0 of the field `op` is ADD, the
first operation of R104's table. -/
def AluControl.zero : AluControl where
  op          := .add
  shift       := false
  jumpReg     := false
  zextImm     := false
  unsupported := false

end Sys2Proof
end

