-- ==== Sys2Proof/Machine/Alu.lean ====
section
/-! DEFINITION. The reference ALU of the pipeline's Execute stage (spec/30_encoding.md R103, R104). -/

namespace Sys2Proof.Machine

/-- The result column of R104's table. -/
def aluResult (op : AluOp) (a b : Word) : Word :=
  match op with
  | .add  => a + b
  | .sub  => a - b
  | .and  => a &&& b
  | .or   => a ||| b
  | .xor  => a ^^^ b
  | .nor  => ~~~(a ||| b)
  | .slt  => boolWord (signedLess a b)
  | .sltu => boolWord (unsignedLess a b)
  | .sll  => b <<< (a.setWidth 5).toNat
  | .srl  => b >>> (a.setWidth 5).toNat
  | .sra  => b.sshiftRight (a.setWidth 5).toNat

/-- `execute(op; a, b) -> (result, zero)` (R104). Pure and total; it raises nothing. -/
def aluExecute (op : AluOp) (a b : Word) : Word × Bool := (aluResult op a b, zeroFlag (aluResult op a b))

end Sys2Proof.Machine
end

