-- ==== Sys2Proof/Config.lean ====
section
/-! DEFINITION. The parameters of a run (spec/00_scope.md R3, R10; spec/70_reset_and_hazards.md R350) and the one byte
value the model fixes for memory nobody has written. -/

namespace Sys2Proof

/-- The engine a run selects (R2): the single-cycle baseline of R210, or the pipelined CORE of files 44 to 48. -/
inductive Engine where
  /-- `SeqStep`, one instruction per step, no latches (R210). -/
  | singleCycle
  /-- The pipelined engine, one cycle per step (R212, file 48). -/
  | pipelined
  deriving DecidableEq, Repr

/-- `LANES`: instructions fetched and issued per cycle, 1 or 2 (R9, R10). -/
inductive LaneCount where
  | one
  | two
  deriving DecidableEq, Repr

/-- The number that `LANES` is. -/
def LaneCount.toNat : LaneCount → Nat
  | .one => 1
  | .two => 2

/-- `BYTE_ORDER` (R10, R53). -/
inductive ByteOrder where
  | little
  | big
  deriving DecidableEq, Repr

/-- The parameters of R10 that stay fixed for a whole run. `REGS_INIT` and `MEM_INIT` are not here: they are the
contents of the registers and of the memory when the run starts (R350, R353). -/
structure RunConfig where
  /-- The engine variant selected (R2, R3). -/
  engine    : Engine
  /-- `LANES`. -/
  lanes     : LaneCount
  /-- `PREDICT`: the dynamic branch predictor is in use. -/
  predict   : Bool
  /-- `H`: the width of the global history register; the counter table has `2^H` entries. -/
  h         : Nat
  /-- `BHT_INIT`: every counter at reset. -/
  bhtInit   : BitVec 2
  /-- `BYTE_ORDER`. -/
  byteOrder : ByteOrder
  /-- `MEM_WORDS`: the number of 32-bit words of memory. -/
  memWords  : Nat
  /-- `ENTRY_PC`: the first fetch address. -/
  entryPC   : Word
  /-- `END_PC`: the caller's end address. -/
  endPC     : Word
  deriving DecidableEq, Repr

/-- The parameters of the reset state. `H`, `BHT_INIT`, `BYTE_ORDER`, `MEM_WORDS` and `ENTRY_PC` are R10's values.
DESIGN CHOICE (log 4, unsafe): R10 gives no single value for `LANES`, `PREDICT` and `END_PC`; the model takes the
scalar pipeline with the predictor on and the last word of the address space as the end address. -/
def RunConfig.atReset : RunConfig where
  engine    := .pipelined
  lanes     := .one
  predict   := true
  h         := 4
  bhtInit   := 0#2
  byteOrder := .little
  memWords  := 2 ^ 30
  entryPC   := 0#32
  endPC     := 0xFFFFFFFC#32

/-- What a byte of memory that no list entry holds reads as. `MEM_INIT` is an argument of the run (R10, R31, R352).
DESIGN CHOICE (log 2, unsafe): the model takes zero, as the spec's vectors do ("memory zero wherever it is not
listed", spec/95_test_vectors.md; R90). -/
def Config.freshByte : Byte := 0#8

end Sys2Proof
end

