-- ==== Sys2Proof/WellFormed.lean ====
section
/-! DEFINITION. When an assembler line can be encoded (spec/30_encoding.md R91). A term of `Instr` carries fields of
exactly the widths of R81, so every `Instr` is well formed; the checks are about the numbers an assembler line holds. -/

namespace Sys2Proof

/-- A register name is one of `R0` to `R31` (R91). -/
def regOk (r : Nat) : Bool := decide (r < 32)

/-- A shift amount fits its 5 bits (R81, R121). -/
def shamtOk (n : Nat) : Bool := decide (n < 32)

/-- The immediate of ADDI, ADDIU, SLTI, SLTIU and every offset "must fit 16 bits signed" (R91). -/
def signedOk (n : Int) : Bool := decide (-32768 ≤ n) && decide (n ≤ 32767)

/-- The immediate of ANDI, ORI, LUI "must fit 16 bits unsigned" (R91). -/
def unsignedOk (n : Nat) : Bool := decide (n < 65536)

/-- A target is a byte address, a multiple of 4 (R91, R190). -/
def targetOk (t : Nat) : Bool := decide (t < 2 ^ 32) && decide (t % 4 = 0)

/-- The distance a branch at `pc` to `target` has to encode, in bytes, read as a signed 32-bit number (R91, R191). -/
def branchDistance (pc : Word) (target : Nat) : Int := (BitVec.ofNat 32 target - (pc + 4#32)).toInt

/-- The word offset of a branch fits its 16-bit field (R91). -/
def branchReachOk (pc : Word) (target : Nat) : Bool := signedOk (branchDistance pc target / 4)

/-- A jump "needs `target[31:28] = (pc+4)[31:28]`" (R91). -/
def jumpRegionOk (pc : Word) (target : Nat) : Bool :=
  (BitVec.ofNat 32 target).extractLsb' 28 4 == (pc + 4#32).extractLsb' 28 4

/-- An assembler line at address `pc` can be encoded: every number fits its field (R91). -/
def Asm.wellFormed (pc : Word) : Asm → Bool
  | .regs _ rd rs rt           => regOk rd && regOk rs && regOk rt
  | .shift _ rd rt shamt       => regOk rd && regOk rt && shamtOk shamt
  | .jr rs                     => regOk rs
  | .signedImm _ rt rs imm     => regOk rt && regOk rs && signedOk imm
  | .unsignedImm _ rt rs imm   => regOk rt && regOk rs && unsignedOk imm
  | .lui rt imm                => regOk rt && unsignedOk imm
  | .mem _ rt offset rs        => regOk rt && signedOk offset && regOk rs
  | .branch _ rs rt target     => regOk rs && regOk rt && targetOk target && branchReachOk pc target
  | .jump _ target             => targetOk target && jumpRegionOk pc target
  | .nop                       => true

end Sys2Proof
end

