-- ==== Sys2Proof/Decode.lean ====
section
/-! DEFINITION. Decoding and encoding (spec/30_encoding.md): the fields of a word, the decoder from words and from
bytes, the encoder, the assembler of R91, and the reference Decode Unit and ALU control unit (R100 to R103). -/

namespace Sys2Proof

/-! ### Fields of an instruction word (R81) -/

/-- `opcode` = `I[31:26]`. -/
def opcodeOf (w : Word) : BitVec 6 := w.extractLsb' 26 6
/-- `rs` = `I[25:21]`. -/
def rsOf (w : Word) : Reg := w.extractLsb' 21 5
/-- `rt` = `I[20:16]`. -/
def rtOf (w : Word) : Reg := w.extractLsb' 16 5
/-- `rd` = `I[15:11]`. -/
def rdOf (w : Word) : Reg := w.extractLsb' 11 5
/-- `shamt` = `I[10:6]`. -/
def shamtOf (w : Word) : BitVec 5 := w.extractLsb' 6 5
/-- `funct` = `I[5:0]`. -/
def functOf (w : Word) : BitVec 6 := w.extractLsb' 0 6
/-- `imm` = `I[15:0]`. -/
def immOf (w : Word) : BitVec 16 := w.extractLsb' 0 16
/-- `index` = `I[25:0]`. -/
def indexOf (w : Word) : BitVec 26 := w.extractLsb' 0 26

/-! ### The decoder (R86, R87, R89) -/

/-- Why a word, or a byte sequence, is no instruction. -/
inductive Reject where
  /-- The primary opcode is none of the twenty of R86. -/
  | unsupportedOpcode (opcode : BitVec 6)
  /-- The opcode is 0 and the function code is none of the fourteen of R87. -/
  | unsupportedFunct (funct : BitVec 6)
  /-- Fewer than four bytes are left; an instruction is one 32-bit word (R80). -/
  | tooShort (bytes : Nat)
  deriving DecidableEq, Repr

/-- The instruction of an R-type word, by function code (R87). -/
def decodeFunct (w : Word) : Except Reject Instr :=
  match functOf w with
  | 0x00#6 => .ok (.sll (rdOf w) (rtOf w) (shamtOf w))
  | 0x02#6 => .ok (.srl (rdOf w) (rtOf w) (shamtOf w))
  | 0x03#6 => .ok (.sra (rdOf w) (rtOf w) (shamtOf w))
  | 0x08#6 => .ok (.jr (rsOf w))
  | 0x20#6 => .ok (.add (rdOf w) (rsOf w) (rtOf w))
  | 0x21#6 => .ok (.addu (rdOf w) (rsOf w) (rtOf w))
  | 0x22#6 => .ok (.sub (rdOf w) (rsOf w) (rtOf w))
  | 0x23#6 => .ok (.subu (rdOf w) (rsOf w) (rtOf w))
  | 0x24#6 => .ok (.and (rdOf w) (rsOf w) (rtOf w))
  | 0x25#6 => .ok (.or (rdOf w) (rsOf w) (rtOf w))
  | 0x26#6 => .ok (.xor (rdOf w) (rsOf w) (rtOf w))
  | 0x27#6 => .ok (.nor (rdOf w) (rsOf w) (rtOf w))
  | 0x2A#6 => .ok (.slt (rdOf w) (rsOf w) (rtOf w))
  | 0x2B#6 => .ok (.sltu (rdOf w) (rsOf w) (rtOf w))
  | f      => .error (.unsupportedFunct f)

/-- The instruction a word is: by `opcode`, and by `funct` when the opcode is 0; total, and the fields an instruction
does not use are ignored (R86, R89). -/
def decodeWord (w : Word) : Except Reject Instr :=
  match opcodeOf w with
  | 0x00#6 => decodeFunct w
  | 0x02#6 => .ok (.j (indexOf w))
  | 0x03#6 => .ok (.jal (indexOf w))
  | 0x04#6 => .ok (.beq (rsOf w) (rtOf w) (immOf w))
  | 0x05#6 => .ok (.bne (rsOf w) (rtOf w) (immOf w))
  | 0x08#6 => .ok (.addi (rtOf w) (rsOf w) (immOf w))
  | 0x09#6 => .ok (.addiu (rtOf w) (rsOf w) (immOf w))
  | 0x0A#6 => .ok (.slti (rtOf w) (rsOf w) (immOf w))
  | 0x0B#6 => .ok (.sltiu (rtOf w) (rsOf w) (immOf w))
  | 0x0C#6 => .ok (.andi (rtOf w) (rsOf w) (immOf w))
  | 0x0D#6 => .ok (.ori (rtOf w) (rsOf w) (immOf w))
  | 0x0F#6 => .ok (.lui (rtOf w) (immOf w))
  | 0x20#6 => .ok (.lb (rtOf w) (immOf w) (rsOf w))
  | 0x21#6 => .ok (.lh (rtOf w) (immOf w) (rsOf w))
  | 0x23#6 => .ok (.lw (rtOf w) (immOf w) (rsOf w))
  | 0x24#6 => .ok (.lbu (rtOf w) (immOf w) (rsOf w))
  | 0x25#6 => .ok (.lhu (rtOf w) (immOf w) (rsOf w))
  | 0x28#6 => .ok (.sb (rtOf w) (immOf w) (rsOf w))
  | 0x29#6 => .ok (.sh (rtOf w) (immOf w) (rsOf w))
  | 0x2B#6 => .ok (.sw (rtOf w) (immOf w) (rsOf w))
  | op     => .error (.unsupportedOpcode op)

/-! ### Words and bytes (R53, R80) -/

/-- The word whose byte at offset 0, 1, 2, 3 is `b0`, `b1`, `b2`, `b3` (R53). -/
def wordOfBytes (bo : ByteOrder) (b0 b1 b2 b3 : Byte) : Word :=
  match bo with
  | .little => b3 ++ b2 ++ b1 ++ b0
  | .big    => b0 ++ b1 ++ b2 ++ b3

/-- `bsh(o)`: the bit position inside its word of the byte with offset `o` (R53). -/
def bsh (bo : ByteOrder) (o : Nat) : Nat :=
  match bo with
  | .little => 8 * o
  | .big    => 8 * (3 - o)

/-- `hsh(o)`: the bit position inside its word of the halfword with offset `o` (R53). -/
def hsh (bo : ByteOrder) (o : Nat) : Nat :=
  match bo with
  | .little => 8 * o
  | .big    => 8 * (2 - o)

/-- The byte of `w` with offset `o` (R53). -/
def byteOfWord (bo : ByteOrder) (w : Word) (o : Nat) : Byte := (w >>> bsh bo o).setWidth 8

/-- Decode the instruction at the front of a byte sequence, with the bytes left over; total on any bytes. -/
def decodeBytes (bo : ByteOrder) : List Byte → Except Reject (Instr × List Byte)
  | b0 :: b1 :: b2 :: b3 :: rest =>
    match decodeWord (wordOfBytes bo b0 b1 b2 b3) with
    | .ok i    => .ok (i, rest)
    | .error e => .error e
  | short => .error (.tooShort short.length)

/-! ### The encoder (R82 to R84, R86, R87) -/

/-- Format R with opcode 0 (R82). -/
def encodeR (rs rt rd : Reg) (shamt : BitVec 5) (funct : BitVec 6) : Word := 0x00#6 ++ rs ++ rt ++ rd ++ shamt ++ funct
/-- Format I (R83). -/
def encodeI (opcode : BitVec 6) (rs rt : Reg) (imm : BitVec 16) : Word := opcode ++ rs ++ rt ++ imm
/-- Format J (R84). -/
def encodeJ (opcode : BitVec 6) (index : BitVec 26) : Word := opcode ++ index

/-- The word of an instruction (R86, R87). The fields the format does not use are 0, as R91 writes them. -/
def encode : Instr → Word
  | .sll rd rt shamt  => encodeR 0#5 rt rd shamt 0x00#6
  | .srl rd rt shamt  => encodeR 0#5 rt rd shamt 0x02#6
  | .sra rd rt shamt  => encodeR 0#5 rt rd shamt 0x03#6
  | .jr rs            => encodeR rs 0#5 0#5 0#5 0x08#6
  | .add rd rs rt     => encodeR rs rt rd 0#5 0x20#6
  | .addu rd rs rt    => encodeR rs rt rd 0#5 0x21#6
  | .sub rd rs rt     => encodeR rs rt rd 0#5 0x22#6
  | .subu rd rs rt    => encodeR rs rt rd 0#5 0x23#6
  | .and rd rs rt     => encodeR rs rt rd 0#5 0x24#6
  | .or rd rs rt      => encodeR rs rt rd 0#5 0x25#6
  | .xor rd rs rt     => encodeR rs rt rd 0#5 0x26#6
  | .nor rd rs rt     => encodeR rs rt rd 0#5 0x27#6
  | .slt rd rs rt     => encodeR rs rt rd 0#5 0x2A#6
  | .sltu rd rs rt    => encodeR rs rt rd 0#5 0x2B#6
  | .j index          => encodeJ 0x02#6 index
  | .jal index        => encodeJ 0x03#6 index
  | .beq rs rt imm    => encodeI 0x04#6 rs rt imm
  | .bne rs rt imm    => encodeI 0x05#6 rs rt imm
  | .addi rt rs imm   => encodeI 0x08#6 rs rt imm
  | .addiu rt rs imm  => encodeI 0x09#6 rs rt imm
  | .slti rt rs imm   => encodeI 0x0A#6 rs rt imm
  | .sltiu rt rs imm  => encodeI 0x0B#6 rs rt imm
  | .andi rt rs imm   => encodeI 0x0C#6 rs rt imm
  | .ori rt rs imm    => encodeI 0x0D#6 rs rt imm
  | .lui rt imm       => encodeI 0x0F#6 0#5 rt imm
  | .lb rt imm rs     => encodeI 0x20#6 rs rt imm
  | .lh rt imm rs     => encodeI 0x21#6 rs rt imm
  | .lw rt imm rs     => encodeI 0x23#6 rs rt imm
  | .lbu rt imm rs    => encodeI 0x24#6 rs rt imm
  | .lhu rt imm rs    => encodeI 0x25#6 rs rt imm
  | .sb rt imm rs     => encodeI 0x28#6 rs rt imm
  | .sh rt imm rs     => encodeI 0x29#6 rs rt imm
  | .sw rt imm rs     => encodeI 0x2B#6 rs rt imm

/-- The four bytes of a word, the one at the lowest address first (R53). -/
def bytesOfWord (bo : ByteOrder) (w : Word) : List Byte :=
  [byteOfWord bo w 0, byteOfWord bo w 1, byteOfWord bo w 2, byteOfWord bo w 3]

/-- The bits a row of the opcode table fixes: its mask (R89, spec/opcode_table.json). -/
def rowMask (w : Word) : Word := if opcodeOf w = 0x00#6 then 0xFC00003F#32 else 0xFC000000#32

/-! ### The assembler (R91, R92) -/

/-- The register number an assembler line names. -/
def regOfNat (r : Nat) : Reg := BitVec.ofNat 5 r

/-- `imm = (target - (pc + 4)) / 4` of a branch (R91). -/
def branchField (pc : Word) (target : Nat) : BitVec 16 := BitVec.ofInt 16 (branchDistance pc target / 4)

/-- `index = target[27:2]` of a jump (R91). -/
def jumpField (target : Nat) : BitVec 26 := (BitVec.ofNat 32 target).extractLsb' 2 26

/-- The instruction an assembler line at address `pc` stands for (R91, R92). It is meant for well-formed lines. -/
def assemble (pc : Word) : Asm → Instr
  | .regs op rd rs rt =>
    match op with
    | .add  => .add (regOfNat rd) (regOfNat rs) (regOfNat rt)
    | .addu => .addu (regOfNat rd) (regOfNat rs) (regOfNat rt)
    | .sub  => .sub (regOfNat rd) (regOfNat rs) (regOfNat rt)
    | .subu => .subu (regOfNat rd) (regOfNat rs) (regOfNat rt)
    | .and  => .and (regOfNat rd) (regOfNat rs) (regOfNat rt)
    | .or   => .or (regOfNat rd) (regOfNat rs) (regOfNat rt)
    | .xor  => .xor (regOfNat rd) (regOfNat rs) (regOfNat rt)
    | .nor  => .nor (regOfNat rd) (regOfNat rs) (regOfNat rt)
    | .slt  => .slt (regOfNat rd) (regOfNat rs) (regOfNat rt)
    | .sltu => .sltu (regOfNat rd) (regOfNat rs) (regOfNat rt)
  | .shift op rd rt shamt =>
    match op with
    | .sll => .sll (regOfNat rd) (regOfNat rt) (BitVec.ofNat 5 shamt)
    | .srl => .srl (regOfNat rd) (regOfNat rt) (BitVec.ofNat 5 shamt)
    | .sra => .sra (regOfNat rd) (regOfNat rt) (BitVec.ofNat 5 shamt)
  | .jr rs => .jr (regOfNat rs)
  | .signedImm op rt rs imm =>
    match op with
    | .addi  => .addi (regOfNat rt) (regOfNat rs) (BitVec.ofInt 16 imm)
    | .addiu => .addiu (regOfNat rt) (regOfNat rs) (BitVec.ofInt 16 imm)
    | .slti  => .slti (regOfNat rt) (regOfNat rs) (BitVec.ofInt 16 imm)
    | .sltiu => .sltiu (regOfNat rt) (regOfNat rs) (BitVec.ofInt 16 imm)
  | .unsignedImm op rt rs imm =>
    match op with
    | .andi => .andi (regOfNat rt) (regOfNat rs) (BitVec.ofNat 16 imm)
    | .ori  => .ori (regOfNat rt) (regOfNat rs) (BitVec.ofNat 16 imm)
  | .lui rt imm => .lui (regOfNat rt) (BitVec.ofNat 16 imm)
  | .mem op rt offset rs =>
    match op with
    | .lb  => .lb (regOfNat rt) (BitVec.ofInt 16 offset) (regOfNat rs)
    | .lh  => .lh (regOfNat rt) (BitVec.ofInt 16 offset) (regOfNat rs)
    | .lw  => .lw (regOfNat rt) (BitVec.ofInt 16 offset) (regOfNat rs)
    | .lbu => .lbu (regOfNat rt) (BitVec.ofInt 16 offset) (regOfNat rs)
    | .lhu => .lhu (regOfNat rt) (BitVec.ofInt 16 offset) (regOfNat rs)
    | .sb  => .sb (regOfNat rt) (BitVec.ofInt 16 offset) (regOfNat rs)
    | .sh  => .sh (regOfNat rt) (BitVec.ofInt 16 offset) (regOfNat rs)
    | .sw  => .sw (regOfNat rt) (BitVec.ofInt 16 offset) (regOfNat rs)
  | .branch op rs rt target =>
    match op with
    | .beq => .beq (regOfNat rs) (regOfNat rt) (branchField pc target)
    | .bne => .bne (regOfNat rs) (regOfNat rt) (branchField pc target)
  | .jump op target =>
    match op with
    | .j   => .j (jumpField target)
    | .jal => .jal (jumpField target)
  | .nop => .sll 0#5 0#5 0#5

/-! ### The Decode Unit and the ALU control unit (R100 to R103) -/

/-- The vector of an R-type opcode (R101). -/
def Ctrl.rType : Ctrl := { Ctrl.zero with regDst := true, regWrite := true, aluOp := 0b10#2 }
/-- The vector of ADDI, ADDIU, SLTI, SLTIU, ANDI and ORI (R101). -/
def Ctrl.immediate : Ctrl := { Ctrl.zero with aluSrc := true, regWrite := true, aluOp := 0b11#2 }
/-- The vector of LW, which the other loads extend (R101). -/
def Ctrl.load : Ctrl := { Ctrl.zero with memRead := true, aluSrc := true, regWrite := true, memToReg := true }
/-- The vector of SW, which the other stores extend (R101). -/
def Ctrl.store : Ctrl := { Ctrl.zero with memWrite := true, aluSrc := true }

/-- The reference Decode Unit, `decode(opcode)` (R100, R101). -/
def decodeUnit (opcode : BitVec 6) : Ctrl :=
  match opcode with
  | 0x00#6 => Ctrl.rType
  | 0x02#6 => { Ctrl.zero with jump := true }
  | 0x03#6 => { Ctrl.zero with jump := true, link := true, regWrite := true }
  | 0x04#6 => { Ctrl.zero with branch := true, aluOp := 0b01#2 }
  | 0x05#6 => { Ctrl.zero with branch := true, branchNE := true, aluOp := 0b01#2 }
  | 0x08#6 => Ctrl.immediate
  | 0x09#6 => Ctrl.immediate
  | 0x0A#6 => Ctrl.immediate
  | 0x0B#6 => Ctrl.immediate
  | 0x0C#6 => Ctrl.immediate
  | 0x0D#6 => Ctrl.immediate
  | 0x0F#6 => { Ctrl.zero with aluSrc := true, regWrite := true, lui := true }
  | 0x20#6 => { Ctrl.load with byte := true }
  | 0x21#6 => { Ctrl.load with half := true }
  | 0x23#6 => Ctrl.load
  | 0x24#6 => { Ctrl.load with byte := true, loadUnsigned := true }
  | 0x25#6 => { Ctrl.load with half := true, loadUnsigned := true }
  | 0x28#6 => { Ctrl.store with byte := true }
  | 0x29#6 => { Ctrl.store with half := true }
  | 0x2B#6 => Ctrl.store
  | _      => Ctrl.zero

/-- One of the twenty primary opcodes of R86. -/
def supportedOpcode (opcode : BitVec 6) : Bool :=
  match opcode with
  | 0x00#6 | 0x02#6 | 0x03#6 | 0x04#6 | 0x05#6 | 0x08#6 | 0x09#6 | 0x0A#6 | 0x0B#6 | 0x0C#6
  | 0x0D#6 | 0x0F#6 | 0x20#6 | 0x21#6 | 0x23#6 | 0x24#6 | 0x25#6 | 0x28#6 | 0x29#6 | 0x2B#6 => true
  | _ => false

/-- The rows of R103's table for `ALUOp` = 10, by function code. -/
def functControl (funct : BitVec 6) : AluControl :=
  match funct with
  | 0x00#6 => { AluControl.zero with op := .sll, shift := true }
  | 0x02#6 => { AluControl.zero with op := .srl, shift := true }
  | 0x03#6 => { AluControl.zero with op := .sra, shift := true }
  | 0x08#6 => { AluControl.zero with op := .add, jumpReg := true }
  | 0x20#6 => { AluControl.zero with op := .add }
  | 0x21#6 => { AluControl.zero with op := .add }
  | 0x22#6 => { AluControl.zero with op := .sub }
  | 0x23#6 => { AluControl.zero with op := .sub }
  | 0x24#6 => { AluControl.zero with op := .and }
  | 0x25#6 => { AluControl.zero with op := .or }
  | 0x26#6 => { AluControl.zero with op := .xor }
  | 0x27#6 => { AluControl.zero with op := .nor }
  | 0x2A#6 => { AluControl.zero with op := .slt }
  | 0x2B#6 => { AluControl.zero with op := .sltu }
  | _      => { AluControl.zero with op := .add, unsupported := true }

/-- The rows of R103's table for `ALUOp` = 11, by opcode. DESIGN CHOICE (log 14, safe): R103 has no row for another
opcode with `ALUOp` = 11, and the Decode Unit never asks for one; the model answers ADD with no flag. -/
def opcodeControl (opcode : BitVec 6) : AluControl :=
  match opcode with
  | 0x08#6 => { AluControl.zero with op := .add }
  | 0x09#6 => { AluControl.zero with op := .add }
  | 0x0A#6 => { AluControl.zero with op := .slt }
  | 0x0B#6 => { AluControl.zero with op := .sltu }
  | 0x0C#6 => { AluControl.zero with op := .and, zextImm := true }
  | 0x0D#6 => { AluControl.zero with op := .or, zextImm := true }
  | _      => AluControl.zero

/-- R103's table, before the rule on unsupported opcodes. -/
def aluControlRow (aluOp : BitVec 2) (funct opcode : BitVec 6) : AluControl :=
  match aluOp with
  | 0b00#2 => { AluControl.zero with op := .add }
  | 0b01#2 => { AluControl.zero with op := .sub }
  | 0b10#2 => functControl funct
  | _      => opcodeControl opcode

/-- `computeControl(aluOpClass, funct, opcode)` (R103): the table, and `Unsupported` = 1 also whenever the opcode is
not one of the twenty of R86. -/
def computeControl (aluOp : BitVec 2) (funct opcode : BitVec 6) : AluControl :=
  let row := aluControlRow aluOp funct opcode
  { row with unsupported := row.unsupported || !supportedOpcode opcode }

/-- `actl` of an instruction word, as the Decode stage computes it (R225). -/
def wordActl (w : Word) : AluControl := computeControl (decodeUnit (opcodeOf w)).aluOp (functOf w) (opcodeOf w)

/-- The control vector of an instruction word, as the Decode stage leaves it: all zero for an unsupported word
(R96, R101, R225). -/
def wordCtrl (w : Word) : Ctrl := if (wordActl w).unsupported then Ctrl.zero else decodeUnit (opcodeOf w)

/-- `dest(I, c)`, the destination register (R102). -/
def destOf (w : Word) (c : Ctrl) : Reg :=
  if c.link then linkReg
  else if c.regDst then rdOf w
  else rtOf w

/-! ### The opcode table's numbering -/

/-- The instruction the decoder reads from the word `w` of the opcode table. The table numbers bit 0 as the least
significant bit of the one instruction word, so the word is `w`; it is laid out in memory in the default byte order
(log 21) and read back by the decoder. -/
def decodeTableWord (nbits w : Nat) : Option Instr :=
  match decodeBytes .little (bytesOfWord .little (BitVec.ofNat 32 (w % 2 ^ nbits))) with
  | .ok (i, _) => some i
  | .error _   => none

end Sys2Proof
end

