-- ==== Sys2Proof/Machine/Operands.lean ====
section
/-! DEFINITION. How immediates, targets and addresses are assembled (spec/30_encoding.md R85, R93). -/

namespace Sys2Proof.Machine

/-- `sext_32(imm)` (R12, R85). -/
def sextImm (imm : BitVec 16) : Word := imm.signExtend 32

/-- `zext_32(imm)` (R12, R85). -/
def zextImm (imm : BitVec 16) : Word := imm.setWidth 32

/-- `{imm, 0x0000}`, the upper immediate of LUI (R85, R157). -/
def upperImm (imm : BitVec 16) : Word := imm ++ 0#16

/-- `zext_32(shamt)`, the first ALU operand of a shift (R85, R121). -/
def shamtOperand (shamt : BitVec 5) : Word := shamt.setWidth 32

/-- The address of the following instruction; there is no delay slot (R190). -/
def nextPc (pc : Word) : Word := pc + 4#32

/-- `pc + 4 + (sext_32(imm) << 2)`, modulo `2^32` (R85, R191). -/
def branchTarget (pc : Word) (imm : BitVec 16) : Word := nextPc pc + sextImm imm <<< 2

/-- `{(pc + 4)[31:28], index, 0b00}` (R85, R193). -/
def jumpTarget (pc : Word) (index : BitVec 26) : Word := (nextPc pc).extractLsb' 28 4 ++ index ++ 0#2

/-- `x[rs] + sext_32(imm)`, the one addressing mode (R170). -/
def effAddr (base : Word) (imm : BitVec 16) : Word := base + sextImm imm

/-- `isBranch(I)`: the word is BEQ or BNE (R93). -/
def isBranch (w : Word) : Bool := opcodeOf w == 0x04#6 || opcodeOf w == 0x05#6

/-- `a` is a multiple of 4 (R55, R80). -/
def aligned4 (a : Word) : Bool := a.extractLsb' 0 2 == 0#2

/-- `a` is a multiple of 2 (R55). -/
def aligned2 (a : Word) : Bool := a.extractLsb' 0 1 == 0#1

/-- `a[31:2]`, the word of memory an address names (R51). -/
def wordIndex (a : Word) : Nat := a.toNat / 4

/-- `a[1:0]`, the byte offset inside the word (R51). -/
def byteOffset (a : Word) : Nat := a.toNat % 4

end Sys2Proof.Machine
end

