-- ==== Sys2Proof/Machine/State.lean ====
section
/-! DEFINITION. The state of the machine, all of it (spec/10_state.md R20 to R42), the faults (spec/60_exceptions.md
R331) and the state at the start of a run (spec/70_reset_and_hazards.md R353). -/

namespace Sys2Proof.Machine

/-- The `SpecFault` conditions (R15, R331): points where the spec defines no behaviour a model may rely on. The step
answers `fault` and nothing of the cycle is kept (R212). All four are safe: the model stops. -/
inductive Fault where
  /-- A word outside CORE-ISA: raised by the Memory stage when it is in a non-empty `EXMEM` latch (R235), and by the
  single-cycle engine when it would execute it (R210). Safe. -/
  | unsupportedInstruction (pc instr : Word)
  /-- A halfword or word data access at a misaligned address, `n` its width in bytes: raised by the Memory stage, and
  by the load and store meanings (R55 to R57, R179). Safe. -/
  | misalignedData (ea : Word) (n : Nat)
  /-- A JR whose register value is not a multiple of 4: raised by the Execute stage, and by JR's meaning (R195, R290).
  Safe. -/
  | misalignedTarget (pc target : Word)
  /-- A data access beyond the memory (Memory stage; load and store meanings), or the retirement (Writeback stage) or
  execution (single-cycle engine) of an instruction fetched from beyond it (R51, R58, R230). Safe. -/
  | outOfRange (ea : Word)
  deriving DecidableEq, Repr

/-- Why an instruction has no meaning in the model. -/
inductive Refusal where
  /-- Raised by no arm of `exec`: every instruction of the table has its meaning. Safe. -/
  | notModelled (mnemonic : String)
  deriving DecidableEq, Repr

/-- The run state (R41). A faulted run keeps the fault that ended it. -/
inductive RunState where
  | running
  | halted
  | faulted (cause : Fault)
  deriving DecidableEq, Repr

/-- The storage of `x[0]` to `x[31]` (R21). It is read and written only through `RegFile.read`, `RegFile.write` and
`RegFile.access` (spec/10_state.md R24). -/
abbrev RegFile := Vector Word 32

/-- The memory (R31, R50) as its bytes: (byte address, byte) pairs, addresses strictly rising, no pair whose byte is
the fresh byte. DESIGN CHOICE (log 1, safe): the pair at address `a` is the byte a one-byte access at `a` names under
the run's `BYTE_ORDER`; `MemWord[k]` is the word made of the four bytes at `4k`. -/
abbrev Memory := List Host.Cell

/-- A value per lane (R32). Lane 1 is the older instruction (R301). With `LANES` = 1 lane 2 does not exist: the model
keeps `EMPTY` there and no scalar rule reads it (log 17). -/
structure Lanes (α : Type) where
  lane1 : α
  lane2 : α
  deriving DecidableEq, Repr

/-- The Fetch/Decode latch (R33). -/
structure IfId where
  /-- 1 = bubble (R33, R34). -/
  empty : Bool
  /-- The raw instruction word. -/
  instr : Word
  /-- The address the word was fetched from. -/
  pc    : Word
  /-- The direction predicted at fetch: 1 = taken. -/
  pred  : Bool
  deriving DecidableEq, Repr

/-- The Decode/Execute latch (R33). -/
structure IdEx where
  empty : Bool
  instr : Word
  pc    : Word
  pred  : Bool
  /-- The control-signal vector (R100). -/
  ctrl  : Ctrl
  /-- The ALU control (R103). -/
  actl  : AluControl
  rs    : Reg
  rt    : Reg
  /-- `x[rs]` as Decode read it. -/
  rsVal : Word
  /-- `x[rt]` as Decode read it. -/
  rtVal : Word
  /-- `sext_32(instr[15:0])`. -/
  imm   : Word
  /-- The destination register (R102). -/
  dest  : Reg
  deriving DecidableEq, Repr

/-- The Execute/Memory latch (R33). -/
structure ExMem where
  empty     : Bool
  instr     : Word
  pc        : Word
  ctrl      : Ctrl
  actl      : AluControl
  dest      : Reg
  /-- The Execute stage's result: ALU result, memory address, LUI value or link value. -/
  aluResult : Word
  /-- The forwarded `x[rt]`, the data a store writes. -/
  storeData : Word
  deriving DecidableEq, Repr

/-- The Memory/Writeback latch (R33). -/
structure MemWb where
  empty     : Bool
  instr     : Word
  pc        : Word
  ctrl      : Ctrl
  actl      : AluControl
  dest      : Reg
  aluResult : Word
  /-- The extended value a load read; 0 for other instructions. -/
  memData   : Word
  deriving DecidableEq, Repr

/-- `EMPTY` of the Fetch/Decode latch (R34). -/
def IfId.bubble : IfId where
  empty := true
  instr := 0#32
  pc    := 0#32
  pred  := false

/-- `EMPTY` of the Decode/Execute latch (R34). -/
def IdEx.bubble : IdEx where
  empty := true
  instr := 0#32
  pc    := 0#32
  pred  := false
  ctrl  := Ctrl.zero
  actl  := AluControl.zero
  rs    := 0#5
  rt    := 0#5
  rsVal := 0#32
  rtVal := 0#32
  imm   := 0#32
  dest  := 0#5

/-- `EMPTY` of the Execute/Memory latch (R34). -/
def ExMem.bubble : ExMem where
  empty     := true
  instr     := 0#32
  pc        := 0#32
  ctrl      := Ctrl.zero
  actl      := AluControl.zero
  dest      := 0#5
  aluResult := 0#32
  storeData := 0#32

/-- `EMPTY` of the Memory/Writeback latch (R34). -/
def MemWb.bubble : MemWb where
  empty     := true
  instr     := 0#32
  pc        := 0#32
  ctrl      := Ctrl.zero
  actl      := AluControl.zero
  dest      := 0#5
  aluResult := 0#32
  memData   := 0#32

/-- The predictor (R37): `GHR`, a number below `2^H`, and `BHT`, `2^H` two-bit counters. With `PREDICT` off it does not
exist: the model keeps 0 and no counter there and never reads or writes them (log 18). -/
structure Predictor where
  ghr : Nat
  bht : List (BitVec 2)
  deriving DecidableEq, Repr

/-- The predictor at the start of a run (R38): history 0, every counter `BHT_INIT`; none with `PREDICT` off. -/
def Predictor.atReset (cfg : RunConfig) : Predictor where
  ghr := 0
  bht := if cfg.predict then List.replicate (2 ^ cfg.h) cfg.bhtInit else []

/-- The whole state of the machine (R42), with the parameters of the run (R350), which no step changes. -/
structure State where
  /-- `x[0..31]` (R21). -/
  regs      : RegFile
  /-- `PC`, the fetch program counter (R25); the single-cycle engine's `PCseq` (R210). -/
  pc        : Word
  /-- `MemWord` (R31). -/
  mem       : Memory
  /-- `IFID[k]` (R32). -/
  ifid      : Lanes IfId
  /-- `IDEX[k]`. -/
  idex      : Lanes IdEx
  /-- `EXMEM[k]`. -/
  exmem     : Lanes ExMem
  /-- `MEMWB[k]`. -/
  memwb     : Lanes MemWb
  /-- `GHR` and `BHT` (R37). -/
  predictor : Predictor
  /-- `cycles` (R40). -/
  cycles    : Nat
  /-- `committed` (R40). -/
  committed : Nat
  /-- The run state (R41). -/
  run       : RunState
  /-- The parameters of the run (R10, R350). -/
  cfg       : RunConfig
  deriving DecidableEq, Repr

/-- The state at the start of a run: reset (R353). `x[0]` is 0 whatever `REGS_INIT[0]` is; every latch is `EMPTY`
(R36); the counters are 0 and the machine is running. -/
def State.start (cfg : RunConfig) (regsInit : RegFile) (memInit : Memory) : State where
  regs      := regsInit.set 0 0#32
  pc        := cfg.entryPC
  mem       := memInit
  ifid      := ⟨IfId.bubble, IfId.bubble⟩
  idex      := ⟨IdEx.bubble, IdEx.bubble⟩
  exmem     := ⟨ExMem.bubble, ExMem.bubble⟩
  memwb     := ⟨MemWb.bubble, MemWb.bubble⟩
  predictor := Predictor.atReset cfg
  cycles    := 0
  committed := 0
  run       := .running
  cfg       := cfg

/-- The machine right after reset: the run with the parameters of `RunConfig.atReset`, every register 0 (R23: "default
all zero", log 5) and no memory byte listed (log 2). -/
def State.reset : State := State.start RunConfig.atReset (Vector.replicate 32 0#32) []

end Sys2Proof.Machine
end

