-- ==== Sys2Proof/Machine/Ops.lean ====
section
/-! DEFINITION. The named operations over registers, memory and the run: the register file (spec/10_state.md R21, R24),
the memory (spec/20_memory.md R50 to R58), and what stops a run. The hardware takes no exception (spec/60_exceptions.md
R330, R334, R335); the shared operation in its place is `State.raise`, a `SpecFault` (R15, R331). -/

namespace Sys2Proof.Machine

/-! ### Registers -/

/-- Read `x[r]`; `x[0]` reads as zero always (R21). -/
def RegFile.read (regs : RegFile) (r : Reg) : Word := if r = 0#5 then 0#32 else regs[r.toNat]'r.isLt

/-- Write `x[r]`; a write to register 0 is discarded (R21). -/
def RegFile.write (regs : RegFile) (r : Reg) (v : Word) : RegFile := if r = 0#5 then regs else regs.set r.toNat v r.isLt

/-- `access(readIndex1, readIndex2, &readValue1, &readValue2, writeIndex, doWrite, writeValue)`: both reads reflect the
state before the write (R24). The result is the two values read and the storage after. -/
def RegFile.access (regs : RegFile) (readIndex1 readIndex2 writeIndex : Reg) (doWrite : Bool) (writeValue : Word) :
    Word × Word × RegFile :=
  (regs.read readIndex1, regs.read readIndex2, if doWrite then regs.write writeIndex writeValue else regs)

/-- `x[r]`. -/
def State.reg (s : State) (r : Reg) : Word := s.regs.read r

/-- `x[r] <- v`. -/
def State.setReg (s : State) (r : Reg) (v : Word) : State := { s with regs := s.regs.write r v }

/-- `pc <- target` (R13). -/
def State.jumpTo (s : State) (target : Word) : State := { s with pc := target }

/-- `pc <- pc + 4`. -/
def State.advance (s : State) : State := s.jumpTo (nextPc s.pc)

/-- Replace the memory. -/
def State.setMem (s : State) (m : Memory) : State := { s with mem := m }

/-! ### The bytes of memory -/

/-- The byte at an address; an address the list does not hold reads as the fresh byte. -/
def Memory.read : Memory → Nat → Byte
  | [], _            => Config.freshByte
  | (b, v) :: m, a   => if a = b then v else Memory.read m a

/-- Write one byte, keeping the canonical form: writing the fresh byte removes the entry. -/
def Memory.write : Memory → Nat → Byte → Memory
  | [], a, v            => if v = Config.freshByte then [] else [(a, v)]
  | (b, w) :: m, a, v   =>
    if a < b then (if v = Config.freshByte then (b, w) :: m else (a, v) :: (b, w) :: m)
    else if a = b then (if v = Config.freshByte then m else (a, v) :: m)
    else (b, w) :: Memory.write m a v

/-- Every address of the list is above `lo`, the addresses rise strictly, and no byte is the fresh byte. -/
def Memory.wfFrom (lo : Nat) : Memory → Bool
  | []          => true
  | (b, v) :: m => decide (lo < b) && decide (v ≠ Config.freshByte) && Memory.wfFrom b m

/-- The canonical form of a memory. -/
def Memory.wf : Memory → Bool
  | []          => true
  | (b, v) :: m => decide (v ≠ Config.freshByte) && Memory.wfFrom b m

/-! ### The words of memory (R50, R51, R53) -/

/-- `MemWord[k]`. -/
def Memory.word (bo : ByteOrder) (m : Memory) (k : Nat) : Word :=
  wordOfBytes bo (m.read (4 * k)) (m.read (4 * k + 1)) (m.read (4 * k + 2)) (m.read (4 * k + 3))

/-- `MemWord[k] <- w`. -/
def Memory.setWord (bo : ByteOrder) (m : Memory) (k : Nat) (w : Word) : Memory :=
  (((m.write (4 * k) (byteOfWord bo w 0)).write (4 * k + 1) (byteOfWord bo w 1)).write (4 * k + 2)
    (byteOfWord bo w 2)).write (4 * k + 3) (byteOfWord bo w 3)

/-- `access(address, &readValue, writeValue, doRead, doWrite)`: one whole word is returned, one whole word is replaced
(R50). The result is the value read and the memory after. DESIGN CHOICE (log 22, safe): `address` is the byte address,
and the word index is taken inside; R51 says the source does not state which it is and that nothing depends on it.
DESIGN CHOICE (log 23, safe): with `doRead` and `doWrite` both set the value read is the word before the write, and with
`doRead` clear it is 0; R50 states neither, and no caller sets both or uses the value of a call that does not read. -/
def Memory.access (bo : ByteOrder) (m : Memory) (a : Word) (writeValue : Word) (doRead doWrite : Bool) : Word × Memory :=
  (if doRead then m.word bo (wordIndex a) else 0#32, if doWrite then m.setWord bo (wordIndex a) writeValue else m)

/-- `MEM_INIT` as the loader leaves it: word `i` of the section is `MemWord[i]` (R352). -/
def Memory.ofWordsFrom (bo : ByteOrder) : Nat → List Word → Memory
  | _, []       => []
  | k, w :: ws  => (Memory.ofWordsFrom bo (k + 1) ws).setWord bo k w

/-- A program section loaded at address zero (R352). -/
def Memory.ofWords (bo : ByteOrder) (ws : List Word) : Memory := Memory.ofWordsFrom bo 0 ws

/-- `FetchWord(a)`: the word the array holds, 0 beyond the memory; a fetch never faults (R53, R58). -/
def fetchWord (cfg : RunConfig) (m : Memory) (a : Word) : Word :=
  if wordIndex a < cfg.memWords then (m.access cfg.byteOrder a 0#32 true false).1 else 0#32

/-! ### Data accesses (R55 to R57) -/

/-- The widths a data access moves (R59). -/
inductive Width where
  | byte | half | word
  deriving DecidableEq, Repr

/-- The width in bytes, `n` of R56 and R57. -/
def Width.bytes : Width → Nat
  | .byte => 1
  | .half => 2
  | .word => 4

/-- The alignment an access needs (R55). -/
def alignedFor (a : Word) : Width → Bool
  | .byte => true
  | .half => aligned2 a
  | .word => aligned4 a

/-- The checks both primitives make, in their order: alignment, then range (R56, R57, R333). -/
def checkAccess (cfg : RunConfig) (a : Word) (n : Width) : Except Fault Unit :=
  if !alignedFor a n then .error (.misalignedData a n.bytes)
  else if cfg.memWords ≤ wordIndex a then .error (.outOfRange a)
  else .ok ()

/-- The bit position inside its word of the accessed data (R53). -/
def dataShift (bo : ByteOrder) (a : Word) : Width → Nat
  | .byte => bsh bo (byteOffset a)
  | .half => hsh bo (byteOffset a)
  | .word => 0

/-- The mask of a width: `0xFF`, `0xFFFF`, all ones (R57). -/
def dataMask : Width → Word
  | .byte => 0xFF#32
  | .half => 0xFFFF#32
  | .word => 0xFFFFFFFF#32

/-- `MemRead(a, n)` (R56). The `8n`-bit result is given in the low bits of a word. -/
def memRead (cfg : RunConfig) (m : Memory) (a : Word) (n : Width) : Except Fault Word :=
  match checkAccess cfg a n with
  | .error f => .error f
  | .ok ()   => .ok (((m.access cfg.byteOrder a 0#32 true false).1 >>> dataShift cfg.byteOrder a n) &&& dataMask n)

/-- The word a store leaves in place of `old`: the low `8n` bits of `v` spliced in at the data's bit position (R57). -/
def spliceWord (bo : ByteOrder) (old : Word) (a : Word) (n : Width) (v : Word) : Word :=
  (old &&& ~~~(dataMask n <<< dataShift bo a n)) ||| ((v &&& dataMask n) <<< dataShift bo a n)

/-- `MemWrite(a, n, v)`: a word store replaces the word; a sub-word store reads the containing word, splices and
writes it back (R57). -/
def memWrite (cfg : RunConfig) (m : Memory) (a : Word) (n : Width) (v : Word) : Except Fault Memory :=
  match checkAccess cfg a n with
  | .error f => .error f
  | .ok ()   =>
    match n with
    | .word => .ok (m.access cfg.byteOrder a v false true).2
    | _     =>
      let old := (m.access cfg.byteOrder a 0#32 true false).1
      .ok (m.access cfg.byteOrder a (spliceWord cfg.byteOrder old a n v) false true).2

/-- The extension of loaded data to 32 bits: zeros when unsigned, copies of its top bit otherwise; a word is whole
(R171 to R175, R232). -/
def extendData (n : Width) (loadUnsigned : Bool) (v : Word) : Word :=
  match n with
  | .word => v
  | .half => if loadUnsigned then v else (v.setWidth 16).signExtend 32
  | .byte => if loadUnsigned then v else (v.setWidth 8).signExtend 32

/-! ### The end of a run -/

/-- A `SpecFault` ends the run: nothing of the cycle is kept and the run state is `Faulted` (R15, R41, R212). -/
def State.raise (s : State) (f : Fault) : State := { s with run := .faulted f }

/-- The run state becomes `Halted` (R41, R355). -/
def State.halt (s : State) : State := { s with run := .halted }

/-- The outcome of a meaning that either faults or gives a state. -/
def outcomeOf : Except Fault State → Host.Outcome State Fault Refusal
  | .ok s    => .next s
  | .error f => .fault f

end Sys2Proof.Machine
end

