-- ==== Sys2Proof/Machine/Latch.lean ====
section
/-! DEFINITION. The helper predicates over a latch (spec/44_pipeline_engine.md R213). -/

namespace Sys2Proof.Machine

/-- `writesReg` over the fields it names (R213). -/
def writesRegFields (empty : Bool) (ctrl : Ctrl) (actl : AluControl) (dest : Reg) : Bool :=
  !empty && ctrl.regWrite && !actl.jumpReg && dest != 0#5

/-- `writesReg(L)` of a decoded instruction or of `IDEX` (R213, R309). -/
def IdEx.writesReg (l : IdEx) : Bool := writesRegFields l.empty l.ctrl l.actl l.dest

/-- `writesReg(L)` of an `EXMEM` latch (R213). -/
def ExMem.writesReg (l : ExMem) : Bool := writesRegFields l.empty l.ctrl l.actl l.dest

/-- `writesReg(L)` of a `MEMWB` latch (R213). -/
def MemWb.writesReg (l : MemWb) : Bool := writesRegFields l.empty l.ctrl l.actl l.dest

/-- `wbValue(L)` (R213). -/
def MemWb.wbValue (l : MemWb) : Word := if l.ctrl.memToReg then l.memData else l.aluResult

/-- `isLoad(L)` of an `EXMEM` latch (R213). -/
def ExMem.isLoad (l : ExMem) : Bool := !l.empty && l.ctrl.memRead

/-- `isLoad(L)` of a `MEMWB` latch (R213). -/
def MemWb.isLoad (l : MemWb) : Bool := !l.empty && l.ctrl.memRead

end Sys2Proof.Machine
end

