-- ==== Sys2Proof/Machine/Forward.lean ====
section
/-! DEFINITION. The data-forwarding network (spec/46_forwarding.md R266, R267; spec/48_dual_issue.md R305). -/

namespace Sys2Proof.Machine

/-- `exFwd(L, r)`: an `EXMEM` latch is a producer of `x[r]` (R266). -/
def ExMem.forwards (l : ExMem) (r : Reg) : Bool :=
  l.writesReg && !l.ctrl.memRead && !l.ctrl.jump && l.dest == r

/-- `wbFwd(L, r)`: a `MEMWB` latch is a producer of `x[r]` (R266). -/
def MemWb.forwards (l : MemWb) (r : Reg) : Bool := l.writesReg && !l.ctrl.jump && l.dest == r

/-- `forward(r, v)`: the most recent value of `x[r]` still in a start-of-cycle latch, else the value `v` Decode latched;
within a stage lane 2 is the younger (R267, R305). -/
def forward (lanes : LaneCount) (exmem : Lanes ExMem) (memwb : Lanes MemWb) (r : Reg) (v : Word) : Word :=
  match lanes with
  | .one =>
    if exmem.lane1.forwards r then exmem.lane1.aluResult
    else if memwb.lane1.forwards r then memwb.lane1.wbValue
    else v
  | .two =>
    if exmem.lane2.forwards r then exmem.lane2.aluResult
    else if exmem.lane1.forwards r then exmem.lane1.aluResult
    else if memwb.lane2.forwards r then memwb.lane2.wbValue
    else if memwb.lane1.forwards r then memwb.lane1.wbValue
    else v

end Sys2Proof.Machine
end

