-- ==== Sys2Proof/Machine/Hazard.lean ====
section
/-! DEFINITION. The hazard-detection unit (spec/45_hazard_detection.md R251, R252; spec/48_dual_issue.md R308, R309). -/

namespace Sys2Proof.Machine

/-- The instruction consumes its `rs` field (R251). -/
def IdEx.usesRs (d : IdEx) : Bool := !d.actl.unsupported && !d.ctrl.jump && !d.ctrl.lui && !d.actl.shift

/-- The instruction consumes its `rt` field (R251). -/
def IdEx.usesRt (d : IdEx) : Bool :=
  !d.actl.unsupported && ((!d.ctrl.aluSrc && !d.ctrl.jump) || d.ctrl.memWrite)

/-- `r` is in `reads(D)`; the set is empty for an empty latch and never holds register 0 (R251). -/
def IdEx.readsReg (d : IdEx) (r : Reg) : Bool :=
  !d.empty && r != 0#5 && ((d.usesRs && d.rs == r) || (d.usesRt && d.rt == r))

/-- `loadUse(D, IDEX)` (R252): the instruction ahead is a load whose destination the decoded instruction reads. -/
def loadUse (d idex : IdEx) : Bool :=
  !d.empty && !idex.empty && idex.ctrl.memRead && idex.ctrl.regWrite && idex.dest != 0#5 && d.readsReg idex.dest

/-- `lu(k)`: load-use of one lane's instruction against both lanes of `IDEX` (R308). -/
def loadUseBoth (d : IdEx) (idex : Lanes IdEx) : Bool := loadUse d idex.lane1 || loadUse d idex.lane2

/-- `interLane`: lane 1's decoded instruction writes a register lane 2's reads (R309). -/
def interLane (d : Lanes IdEx) : Bool :=
  !d.lane1.empty && !d.lane2.empty && d.lane1.writesReg && d.lane2.readsReg d.lane1.dest

/-- `stall1` (R309). -/
def stallLane1 (d idex : Lanes IdEx) : Bool := loadUseBoth d.lane1 idex

/-- `stall2` (R309). -/
def stallLane2 (d idex : Lanes IdEx) : Bool := loadUseBoth d.lane2 idex || interLane d

end Sys2Proof.Machine
end

