-- ==== Sys2Proof/Machine/Prediction.lean ====
section
/-! DEFINITION. The branch predictor (spec/47_branch_prediction.md R280 to R288). -/

namespace Sys2Proof.Machine

/-- `index(g, pc) = (g XOR pc[H+1:2]) mod 2^H` (R281). -/
def predictorIndex (h ghr : Nat) (pc : Word) : Nat := (ghr ^^^ pc.toNat / 4) % 2 ^ h

/-- The counter an index names. A table of `2^H` counters holds every index (log 19). -/
def Predictor.counter (p : Predictor) (i : Nat) : BitVec 2 := p.bht.getD i 0#2

/-- `predictTaken(pc)`: the counter is 2 or 3, weakly or strongly taken (R282). -/
def Predictor.predictTaken (h : Nat) (p : Predictor) (pc : Word) : Bool :=
  decide (2 ≤ (p.counter (predictorIndex h p.ghr pc)).toNat)

/-- Saturating increment on taken, saturating decrement on not taken (R287). -/
def bumpCounter (taken : Bool) (c : BitVec 2) : BitVec 2 :=
  if taken then (if c = 3#2 then 3#2 else c + 1#2) else (if c = 0#2 then 0#2 else c - 1#2)

/-- The update at the resolution of a branch at `pc`: one counter moves, the history shifts in the outcome; the index
uses the history before this update (R287). -/
def Predictor.update (h : Nat) (p : Predictor) (pc : Word) (taken : Bool) : Predictor where
  bht :=
    let i := predictorIndex h p.ghr pc
    p.bht.set i (bumpCounter taken (p.counter i))
  ghr := (2 * p.ghr + if taken then 1 else 0) % 2 ^ h

/-- The update a resolved branch makes: none with `PREDICT` off (R287). -/
def Predictor.resolve (cfg : RunConfig) (p : Predictor) (pc : Word) (taken : Bool) : Predictor :=
  if cfg.predict then p.update cfg.h pc taken else p

/-- `PREDICT and isBranch(I) and predictTaken(PC)`, the direction recorded at fetch (R220, R283). -/
def predictedTaken (cfg : RunConfig) (p : Predictor) (pc instr : Word) : Bool :=
  cfg.predict && isBranch instr && p.predictTaken cfg.h pc

end Sys2Proof.Machine
end

