-- ==== Sys2Proof/Machine/Stages.lean ====
section
/-! DEFINITION. What each stage does with one lane's latch in one cycle (spec/44_pipeline_engine.md R220 to R235;
spec/47_branch_prediction.md R286 to R293). The scalar engine runs each once, the dual-issue engine once per lane. -/

namespace Sys2Proof.Machine

/-! ### Writeback (R230) -/

/-- What Writeback changes: the register file and the commit counter. -/
structure Retired where
  regs      : RegFile
  committed : Nat
  deriving DecidableEq, Repr

/-- Writeback of one latch (R230, R302): an instruction fetched from beyond the memory faults; a non-empty latch is
counted as committed; `x[dest] <- wbValue` when the instruction writes a register. The register file is called once,
with its read values ignored (R24). -/
def writebackLane (cfg : RunConfig) (r : Retired) (w : MemWb) : Except Fault Retired :=
  if !w.empty && decide (cfg.memWords ≤ wordIndex w.pc) then .error (.outOfRange w.pc)
  else .ok {
    regs      := (r.regs.access 0#5 0#5 w.dest w.writesReg w.wbValue).2.2
    committed := if w.empty then r.committed else r.committed + 1 }

/-! ### Memory (R232, R235) -/

/-- The width of an access: `n = 1 if Byte, 2 if Half, 4 otherwise` (R232). -/
def Ctrl.width (c : Ctrl) : Width := if c.byte then .byte else if c.half then .half else .word

/-- The load part of the Memory stage: the extended data, 0 for an instruction that loads nothing (R232). -/
def loadStage (cfg : RunConfig) (mem : Memory) (m : ExMem) : Except Fault Word :=
  if m.ctrl.memRead then
    match memRead cfg mem m.aluResult (Ctrl.width m.ctrl) with
    | .error f => .error f
    | .ok v    => .ok (extendData (Ctrl.width m.ctrl) m.ctrl.loadUnsigned v)
  else .ok 0#32

/-- The store part of the Memory stage: the memory after (R232). -/
def storeStage (cfg : RunConfig) (mem : Memory) (m : ExMem) : Except Fault Memory :=
  if m.ctrl.memWrite then memWrite cfg mem m.aluResult (Ctrl.width m.ctrl) m.storeData else .ok mem

/-- Memory stage of one latch: the next `MEMWB` latch and the memory after (R232, R235). -/
def memoryLane (cfg : RunConfig) (mem : Memory) (m : ExMem) : Except Fault (MemWb × Memory) :=
  if m.empty then .ok (MemWb.bubble, mem)
  else if m.actl.unsupported then .error (.unsupportedInstruction m.pc m.instr)
  else
    match loadStage cfg mem m with
    | .error f => .error f
    | .ok d    =>
      match storeStage cfg mem m with
      | .error f  => .error f
      | .ok mem'  =>
        .ok ({ empty     := false
               instr     := m.instr
               pc        := m.pc
               ctrl      := m.ctrl
               actl      := m.actl
               dest      := m.dest
               aluResult := m.aluResult
               memData   := d }, mem')

/-! ### Execute (R227 to R229, R286 to R293) -/

/-- Operand 1 of the ALU: the shift amount for a shift, else the forwarded `x[rs]` (R228). -/
def aluOperand1 (e : IdEx) (a : Word) : Word := if e.actl.shift then shamtOperand (shamtOf e.instr) else a

/-- Operand 2 of the ALU: the forwarded `x[rt]`, or the immediate, zero-extended for ANDI and ORI (R228). -/
def aluOperand2 (e : IdEx) (b : Word) : Word :=
  if !e.ctrl.aluSrc then b
  else if e.actl.zextImm then zextImm (immOf e.instr)
  else e.imm

/-- The ALU's outputs for the latch's instruction (R228). -/
def aluOutput (e : IdEx) (a b : Word) : Word × Bool := aluExecute e.actl.op (aluOperand1 e a) (aluOperand2 e b)

/-- The Execute stage's result (R228): the link value of a jump, 0 for JR and unsupported words, the upper immediate of
LUI, else the ALU result. -/
def executeResult (e : IdEx) (a b : Word) : Word :=
  if e.ctrl.jump then nextPc e.pc
  else if e.actl.jumpReg then 0#32
  else if e.actl.unsupported then 0#32
  else if e.ctrl.lui then upperImm (immOf e.instr)
  else (aluOutput e a b).1

/-- The actual direction of the branch in the latch (R286). -/
def resolvedTaken (e : IdEx) (a b : Word) : Bool := branchTaken e.ctrl.branchNE (aluOutput e a b).2

/-- The redirect signal with its target (R289, R290): a mispredicted branch, a jump, a JR; JR to an address that is not
a multiple of 4 raises `SpecFault.MisalignedTarget`. -/
def executeRedirect (e : IdEx) (a b : Word) : Except Fault (Option Word) :=
  if e.ctrl.branch then
    .ok (if resolvedTaken e a b == e.pred then none
         else if resolvedTaken e a b then some (nextPc e.pc + e.imm <<< 2)
         else some (nextPc e.pc))
  else if e.ctrl.jump then .ok (some (jumpTarget e.pc (indexOf e.instr)))
  else if e.actl.jumpReg then
    if aligned4 a then .ok (some a) else .error (.misalignedTarget e.pc a)
  else .ok none

/-- The predictor after the latch's instruction: updated by every BEQ or BNE that resolves, by nothing else (R287). -/
def executePredictor (cfg : RunConfig) (p : Predictor) (e : IdEx) (a b : Word) : Predictor :=
  if e.ctrl.branch then p.resolve cfg e.pc (resolvedTaken e a b) else p

/-- What Execute produces for one lane: the next `EXMEM` latch, the redirect target if there is a redirect, the
predictor after. -/
structure Executed where
  latch     : ExMem
  redirect  : Option Word
  predictor : Predictor
  deriving DecidableEq, Repr

/-- Execute of one latch on the forwarded operands `a` and `b` (R227, R229). The instruction itself always proceeds. -/
def executeLane (cfg : RunConfig) (p : Predictor) (e : IdEx) (a b : Word) : Except Fault Executed :=
  if e.empty then .ok { latch := ExMem.bubble, redirect := none, predictor := p }
  else
    match executeRedirect e a b with
    | .error f => .error f
    | .ok redirect =>
      .ok { latch := { empty     := false
                       instr     := e.instr
                       pc        := e.pc
                       ctrl      := e.ctrl
                       actl      := e.actl
                       dest      := e.dest
                       aluResult := executeResult e a b
                       storeData := b }
            redirect  := redirect
            predictor := executePredictor cfg p e a b }

/-! ### Decode (R225) -/

/-- Decode of one latch, reading the register file after this cycle's Writeback (R225): one register-file call with no
write (R24). An unsupported word gets the all-zero control vector. -/
def decodeLane (regs : RegFile) (l : IfId) : IdEx :=
  if l.empty then IdEx.bubble
  else
    let read := regs.access (rsOf l.instr) (rtOf l.instr) 0#5 false 0#32
    { empty := false
      instr := l.instr
      pc    := l.pc
      pred  := l.pred
      ctrl  := wordCtrl l.instr
      actl  := wordActl l.instr
      rs    := rsOf l.instr
      rt    := rtOf l.instr
      rsVal := read.1
      rtVal := read.2.1
      imm   := sextImm (immOf l.instr)
      dest  := destOf l.instr (wordCtrl l.instr) }

/-! ### Fetch (R220) -/

/-- What Fetch latches for the word at `pc`: the word, its address and its predicted direction (R220, R312). -/
def fetchLatch (cfg : RunConfig) (mem : Memory) (p : Predictor) (pc : Word) : IfId :=
  let i := fetchWord cfg mem pc
  { empty := false, instr := i, pc := pc, pred := predictedTaken cfg p pc i }

/-- The address fetched after a latched word, when nothing else redirects: the branch target when the word is
predicted taken (R222, R284), else the following word. -/
def nextFetch (l : IfId) : Word := if l.pred then branchTarget l.pc (immOf l.instr) else nextPc l.pc

end Sys2Proof.Machine
end

