-- ==== Sys2Proof/Machine/Scalar.lean ====
section
/-! DEFINITION. One cycle of the scalar engine, `LANES` = 1 (spec/44_pipeline_engine.md R211, R212, R234) and the halt
check (spec/70_reset_and_hazards.md R355; spec/48_dual_issue.md R318). Every stage reads start-of-cycle latches; the
same-cycle paths are those of R211's table. -/

namespace Sys2Proof.Machine

/-- What the front of the pipeline holds at the start of the next cycle (R234, R311). -/
structure FrontEnd where
  idex : Lanes IdEx
  ifid : Lanes IfId
  pc   : Word
  deriving DecidableEq, Repr

/-- The front end after a redirect: both latches of every lane are empty and the PC is the target (R291). -/
def FrontEnd.flushed (target : Word) : FrontEnd where
  idex := ⟨IdEx.bubble, IdEx.bubble⟩
  ifid := ⟨IfId.bubble, IfId.bubble⟩
  pc   := target

/-- The instruction in a `MEMWB` latch is the one at `END_PC` (R355). -/
def MemWb.atEnd (cfg : RunConfig) (w : MemWb) : Bool := !w.empty && w.pc == cfg.endPC

/-- Retire the latch as Writeback would: the drain of R318. DEDUCED (log 16, safe): "exactly as rule R302 would retire
it" takes in R302's check that the instruction was fetched from inside the memory. -/
def State.drainLane1 (s : State) : Except Fault State :=
  match writebackLane s.cfg ⟨s.regs, s.committed⟩ s.memwb.lane1 with
  | .error f => .error f
  | .ok r    => .ok { s with regs := r.regs, committed := r.committed }

/-- The halt check at the end of a cycle, after the latch update: lane 1 first; with the instruction at `END_PC` in
lane 2, lane 1 is drained (R318, R355). -/
def State.haltCheck (s : State) : Except Fault State :=
  if s.memwb.lane1.atEnd s.cfg then .ok s.halt
  else
    match s.cfg.lanes with
    | .one => .ok s
    | .two =>
      if s.memwb.lane2.atEnd s.cfg then
        match s.drainLane1 with
        | .error f => .error f
        | .ok t    => .ok t.halt
      else .ok s

/-- Execute of the instruction in a lane of `IDEX` on its forwarded operands (R227, R304). -/
def State.executeOn (s : State) (p : Predictor) (e : IdEx) : Except Fault Executed :=
  executeLane s.cfg p e (forward s.cfg.lanes s.exmem s.memwb e.rs e.rsVal)
    (forward s.cfg.lanes s.exmem s.memwb e.rt e.rtVal)

/-- The front end at the start of the next cycle, in the priority order of R234: redirect, stall, otherwise. -/
def scalarFront (s : State) (regs : RegFile) (mem : Memory) (x : Executed) : FrontEnd :=
  let d := decodeLane regs s.ifid.lane1
  match x.redirect with
  | some target => FrontEnd.flushed target
  | none =>
    if loadUse d s.idex.lane1 then
      { idex := ⟨IdEx.bubble, IdEx.bubble⟩, ifid := s.ifid, pc := s.pc }
    else
      let f := fetchLatch s.cfg mem x.predictor s.pc
      { idex := ⟨d, IdEx.bubble⟩, ifid := ⟨f, IfId.bubble⟩, pc := nextFetch f }

/-- The state after the latch update of a scalar cycle, the cycle counted (R212 steps 6 and 7, R234): `r`, `y` with
`mem`, and `x` are what Writeback, Memory and Execute produced. -/
def scalarUpdate (s : State) (r : Retired) (y : MemWb) (mem : Memory) (x : Executed) : State :=
  let front := scalarFront s r.regs mem x
  { s with
    regs      := r.regs
    committed := r.committed
    mem       := mem
    memwb     := ⟨y, MemWb.bubble⟩
    exmem     := ⟨x.latch, ExMem.bubble⟩
    idex      := front.idex
    ifid      := front.ifid
    pc        := front.pc
    predictor := x.predictor
    cycles    := s.cycles + 1 }

/-- One cycle of the scalar engine, in evaluation order (R212). -/
def cycleScalar (s : State) : Except Fault State :=
  match writebackLane s.cfg ⟨s.regs, s.committed⟩ s.memwb.lane1 with
  | .error f => .error f
  | .ok r =>
    match memoryLane s.cfg s.mem s.exmem.lane1 with
    | .error f => .error f
    | .ok (y, mem) =>
      match s.executeOn s.predictor s.idex.lane1 with
      | .error f => .error f
      | .ok x    => (scalarUpdate s r y mem x).haltCheck

end Sys2Proof.Machine
end

