-- ==== Sys2Proof/Machine/DualIssue.lean ====
section
/-! DEFINITION. One cycle of the dual-issue engine, `LANES` = 2 (spec/48_dual_issue.md R300 to R312), and the cycle of
whichever engine the run selected. -/

namespace Sys2Proof.Machine

/-- Writeback of both lanes, lane 1 then lane 2 (R302). -/
def writebackBoth (s : State) : Except Fault Retired :=
  match writebackLane s.cfg ⟨s.regs, s.committed⟩ s.memwb.lane1 with
  | .error f => .error f
  | .ok r    => writebackLane s.cfg r s.memwb.lane2

/-- Memory of both lanes: lane 1's access is complete before lane 2's begins (R303). -/
def memoryBoth (s : State) : Except Fault (Lanes MemWb × Memory) :=
  match memoryLane s.cfg s.mem s.exmem.lane1 with
  | .error f => .error f
  | .ok (y1, mem1) =>
    match memoryLane s.cfg mem1 s.exmem.lane2 with
    | .error f => .error f
    | .ok (y2, mem2) => .ok (⟨y1, y2⟩, mem2)

/-- What Execute produces for both lanes: the next `EXMEM` latches, the one redirect, the predictor after. -/
structure ExecutedBoth where
  latches   : Lanes ExMem
  redirect  : Option Word
  predictor : Predictor
  deriving DecidableEq, Repr

/-- Execute of both lanes (R304): a redirect by lane 1 squashes lane 2, which then raises nothing and updates nothing;
otherwise lane 2 resolves with the predictor as lane 1 left it. -/
def executeBoth (s : State) : Except Fault ExecutedBoth :=
  match s.executeOn s.predictor s.idex.lane1 with
  | .error f => .error f
  | .ok x1 =>
    match x1.redirect with
    | some target =>
      .ok { latches := ⟨x1.latch, ExMem.bubble⟩, redirect := some target, predictor := x1.predictor }
    | none =>
      match s.executeOn x1.predictor s.idex.lane2 with
      | .error f => .error f
      | .ok x2 => .ok { latches := ⟨x1.latch, x2.latch⟩, redirect := x2.redirect, predictor := x2.predictor }

/-- Fetch of two words (R312): a branch predicted taken in lane 1 leaves lane 2 empty; each lane is predicted by its
own address with the same history. -/
def fetchBoth (cfg : RunConfig) (mem : Memory) (p : Predictor) (pc : Word) : Lanes IfId × Word :=
  let f1 := fetchLatch cfg mem p pc
  if f1.pred then (⟨f1, IfId.bubble⟩, nextFetch f1)
  else
    let f2 := fetchLatch cfg mem p (nextPc pc)
    (⟨f1, f2⟩, nextFetch f2)

/-- The front end at the start of the next cycle, in the priority order of R311: redirect, `stall1`, `stall2`,
otherwise. -/
def dualFront (s : State) (regs : RegFile) (mem : Memory) (redirect : Option Word) (p : Predictor) : FrontEnd :=
  let d : Lanes IdEx := ⟨decodeLane regs s.ifid.lane1, decodeLane regs s.ifid.lane2⟩
  match redirect with
  | some target => FrontEnd.flushed target
  | none =>
    if stallLane1 d s.idex then
      { idex := ⟨IdEx.bubble, IdEx.bubble⟩, ifid := s.ifid, pc := s.pc }
    else if stallLane2 d s.idex then
      { idex := ⟨d.lane1, IdEx.bubble⟩, ifid := ⟨IfId.bubble, s.ifid.lane2⟩, pc := s.pc }
    else
      let f := fetchBoth s.cfg mem p s.pc
      { idex := d, ifid := f.1, pc := f.2 }

/-- The state after the latch update of a dual-issue cycle, the cycle counted (R311). -/
def dualUpdate (s : State) (r : Retired) (y : Lanes MemWb) (mem : Memory) (x : ExecutedBoth) : State :=
  let front := dualFront s r.regs mem x.redirect x.predictor
  { s with
    regs      := r.regs
    committed := r.committed
    mem       := mem
    memwb     := y
    exmem     := x.latches
    idex      := front.idex
    ifid      := front.ifid
    pc        := front.pc
    predictor := x.predictor
    cycles    := s.cycles + 1 }

/-- One cycle of the dual-issue engine (R212, R311). -/
def cycleDual (s : State) : Except Fault State :=
  match writebackBoth s with
  | .error f => .error f
  | .ok r =>
    match memoryBoth s with
    | .error f => .error f
    | .ok (y, mem) =>
      match executeBoth s with
      | .error f => .error f
      | .ok x    => (dualUpdate s r y mem x).haltCheck

/-- One cycle of the pipelined engine (R3, R212, R300). -/
def cycle (s : State) : Except Fault State :=
  match s.cfg.lanes with
  | .one => cycleScalar s
  | .two => cycleDual s

end Sys2Proof.Machine
end

