-- ==== Sys2Proof/Machine/AluRegister.lean ====
section
/-! DEFINITION. Register-register arithmetic, logic and shifts (spec/40_alu_register.md). -/

namespace Sys2Proof.Machine

/-- The template of the family (R120): the sources are read first, the result goes to `rd`, no flag, no exception,
`pc <- pc + 4`. -/
def State.finishReg (s : State) (rd : Reg) (result : Word) : Host.Outcome State Fault Refusal :=
  .next (s.setReg rd result).advance

/-- SLL (R121): `x[rd] <- x[rt] << shamt`. -/
def execSll (rd rt : Reg) (shamt : BitVec 5) (s : State) : Host.Outcome State Fault Refusal :=
  s.finishReg rd (s.reg rt <<< shamt.toNat)

/-- SRL (R122): `x[rd] <- x[rt] >>u shamt`. -/
def execSrl (rd rt : Reg) (shamt : BitVec 5) (s : State) : Host.Outcome State Fault Refusal :=
  s.finishReg rd (s.reg rt >>> shamt.toNat)

/-- SRA (R123): `x[rd] <- x[rt] >>s shamt`. -/
def execSra (rd rt : Reg) (shamt : BitVec 5) (s : State) : Host.Outcome State Fault Refusal :=
  s.finishReg rd ((s.reg rt).sshiftRight shamt.toNat)

/-- ADD (R124, R134): `x[rd] <- x[rs] + x[rt]`, no overflow trap. -/
def execAdd (rd rs rt : Reg) (s : State) : Host.Outcome State Fault Refusal :=
  s.finishReg rd (s.reg rs + s.reg rt)

/-- ADDU (R125): `x[rd] <- x[rs] + x[rt]`. -/
def execAddu (rd rs rt : Reg) (s : State) : Host.Outcome State Fault Refusal :=
  s.finishReg rd (s.reg rs + s.reg rt)

/-- SUB (R126, R134): `x[rd] <- x[rs] - x[rt]`, no overflow trap. -/
def execSub (rd rs rt : Reg) (s : State) : Host.Outcome State Fault Refusal :=
  s.finishReg rd (s.reg rs - s.reg rt)

/-- SUBU (R127): `x[rd] <- x[rs] - x[rt]`. -/
def execSubu (rd rs rt : Reg) (s : State) : Host.Outcome State Fault Refusal :=
  s.finishReg rd (s.reg rs - s.reg rt)

/-- AND (R128). -/
def execAnd (rd rs rt : Reg) (s : State) : Host.Outcome State Fault Refusal :=
  s.finishReg rd (s.reg rs &&& s.reg rt)

/-- OR (R129). -/
def execOr (rd rs rt : Reg) (s : State) : Host.Outcome State Fault Refusal :=
  s.finishReg rd (s.reg rs ||| s.reg rt)

/-- XOR (R130). -/
def execXor (rd rs rt : Reg) (s : State) : Host.Outcome State Fault Refusal :=
  s.finishReg rd (s.reg rs ^^^ s.reg rt)

/-- NOR (R131). -/
def execNor (rd rs rt : Reg) (s : State) : Host.Outcome State Fault Refusal :=
  s.finishReg rd (~~~(s.reg rs ||| s.reg rt))

/-- SLT (R132): 1 if `signed(x[rs]) < signed(x[rt])`, else 0. -/
def execSlt (rd rs rt : Reg) (s : State) : Host.Outcome State Fault Refusal :=
  s.finishReg rd (boolWord (signedLess (s.reg rs) (s.reg rt)))

/-- SLTU (R133): 1 if `unsigned(x[rs]) < unsigned(x[rt])`, else 0. -/
def execSltu (rd rs rt : Reg) (s : State) : Host.Outcome State Fault Refusal :=
  s.finishReg rd (boolWord (unsignedLess (s.reg rs) (s.reg rt)))

end Sys2Proof.Machine
end

