-- ==== Sys2Proof/Machine/AluImmediate.lean ====
section
/-! DEFINITION. Immediate arithmetic, logic and load-upper-immediate (spec/41_alu_immediate.md). The template is
R150: `rs` is the source, `rt` the destination, no flag, no exception, `pc <- pc + 4`. -/

namespace Sys2Proof.Machine

/-- ADDI (R151, R134): `x[rt] <- x[rs] + sext_32(imm)`, no overflow trap. -/
def execAddi (rt rs : Reg) (imm : BitVec 16) (s : State) : Host.Outcome State Fault Refusal :=
  s.finishReg rt (s.reg rs + sextImm imm)

/-- ADDIU (R152): as ADDI; the immediate is sign-extended despite the name. -/
def execAddiu (rt rs : Reg) (imm : BitVec 16) (s : State) : Host.Outcome State Fault Refusal :=
  s.finishReg rt (s.reg rs + sextImm imm)

/-- SLTI (R153): signed comparison with `sext_32(imm)`. -/
def execSlti (rt rs : Reg) (imm : BitVec 16) (s : State) : Host.Outcome State Fault Refusal :=
  s.finishReg rt (boolWord (signedLess (s.reg rs) (sextImm imm)))

/-- SLTIU (R154): the immediate is sign-extended and then compared as unsigned. -/
def execSltiu (rt rs : Reg) (imm : BitVec 16) (s : State) : Host.Outcome State Fault Refusal :=
  s.finishReg rt (boolWord (unsignedLess (s.reg rs) (sextImm imm)))

/-- ANDI (R155): `x[rt] <- x[rs] & zext_32(imm)`. -/
def execAndi (rt rs : Reg) (imm : BitVec 16) (s : State) : Host.Outcome State Fault Refusal :=
  s.finishReg rt (s.reg rs &&& zextImm imm)

/-- ORI (R156): `x[rt] <- x[rs] | zext_32(imm)`. -/
def execOri (rt rs : Reg) (imm : BitVec 16) (s : State) : Host.Outcome State Fault Refusal :=
  s.finishReg rt (s.reg rs ||| zextImm imm)

/-- LUI (R157): `x[rt] <- (imm, 0x0000)`; no register is read. -/
def execLui (rt : Reg) (imm : BitVec 16) (s : State) : Host.Outcome State Fault Refusal :=
  s.finishReg rt (upperImm imm)

end Sys2Proof.Machine
end

