-- ==== Sys2Proof/Machine/LoadStore.lean ====
section
/-! DEFINITION. Loads and stores (spec/42_load_store.md). One addressing mode, base plus displacement (R170); an access
that the spec gives no behaviour to raises a `SpecFault` (R179). -/

namespace Sys2Proof.Machine

/-- Every load (R170, R180): `x[rt]` becomes the extended value read at the effective address, `pc <- pc + 4`. A load
to register 0 still reads, and can fault. -/
def State.load (s : State) (rt rs : Reg) (imm : BitVec 16) (n : Width) (loadUnsigned : Bool) :
    Host.Outcome State Fault Refusal :=
  match memRead s.cfg s.mem (effAddr (s.reg rs) imm) n with
  | .error f => .fault f
  | .ok v    => .next (s.setReg rt (extendData n loadUnsigned v)).advance

/-- Every store (R170, R180): the low bytes of `x[rt]` go to the effective address, no register is written,
`pc <- pc + 4`. -/
def State.store (s : State) (rt rs : Reg) (imm : BitVec 16) (n : Width) : Host.Outcome State Fault Refusal :=
  match memWrite s.cfg s.mem (effAddr (s.reg rs) imm) n (s.reg rt) with
  | .error f => .fault f
  | .ok m    => .next (s.setMem m).advance

/-- LB (R171). -/
def execLb (rt : Reg) (imm : BitVec 16) (rs : Reg) (s : State) : Host.Outcome State Fault Refusal :=
  s.load rt rs imm .byte false

/-- LH (R172). -/
def execLh (rt : Reg) (imm : BitVec 16) (rs : Reg) (s : State) : Host.Outcome State Fault Refusal :=
  s.load rt rs imm .half false

/-- LW (R173). -/
def execLw (rt : Reg) (imm : BitVec 16) (rs : Reg) (s : State) : Host.Outcome State Fault Refusal :=
  s.load rt rs imm .word false

/-- LBU (R174). -/
def execLbu (rt : Reg) (imm : BitVec 16) (rs : Reg) (s : State) : Host.Outcome State Fault Refusal :=
  s.load rt rs imm .byte true

/-- LHU (R175). -/
def execLhu (rt : Reg) (imm : BitVec 16) (rs : Reg) (s : State) : Host.Outcome State Fault Refusal :=
  s.load rt rs imm .half true

/-- SB (R176). -/
def execSb (rt : Reg) (imm : BitVec 16) (rs : Reg) (s : State) : Host.Outcome State Fault Refusal :=
  s.store rt rs imm .byte

/-- SH (R177). -/
def execSh (rt : Reg) (imm : BitVec 16) (rs : Reg) (s : State) : Host.Outcome State Fault Refusal :=
  s.store rt rs imm .half

/-- SW (R178). -/
def execSw (rt : Reg) (imm : BitVec 16) (rs : Reg) (s : State) : Host.Outcome State Fault Refusal :=
  s.store rt rs imm .word

end Sys2Proof.Machine
end

