-- ==== Sys2Proof/Machine/Transfer.lean ====
section
/-! DEFINITION. Branches and jumps (spec/43_control_transfer.md). There is no delay slot (R190). -/

namespace Sys2Proof.Machine

/-- A branch (R191, R192): to the target when taken, to `pc + 4` otherwise. -/
def State.branch (s : State) (taken : Bool) (imm : BitVec 16) : Host.Outcome State Fault Refusal :=
  .next (if taken then s.jumpTo (branchTarget s.pc imm) else s.advance)

/-- BEQ (R191): `taken = (x[rs] = x[rt])`. -/
def execBeq (rs rt : Reg) (imm : BitVec 16) (s : State) : Host.Outcome State Fault Refusal :=
  s.branch (s.reg rs == s.reg rt) imm

/-- BNE (R192): `taken = (x[rs] != x[rt])`. -/
def execBne (rs rt : Reg) (imm : BitVec 16) (s : State) : Host.Outcome State Fault Refusal :=
  s.branch (s.reg rs != s.reg rt) imm

/-- J (R193): `pc <- ((pc + 4)[31:28], index, 0b00)`. -/
def execJ (index : BitVec 26) (s : State) : Host.Outcome State Fault Refusal :=
  .next (s.jumpTo (jumpTarget s.pc index))

/-- JAL (R194): `x[31] <- pc + 4`, then as J. -/
def execJal (index : BitVec 26) (s : State) : Host.Outcome State Fault Refusal :=
  .next ((s.setReg linkReg (nextPc s.pc)).jumpTo (jumpTarget s.pc index))

/-- JR (R195): `pc <- x[rs]`; a target that is not a multiple of 4 raises `SpecFault.MisalignedTarget`. -/
def execJr (rs : Reg) (s : State) : Host.Outcome State Fault Refusal :=
  if aligned4 (s.reg rs) then .next (s.jumpTo (s.reg rs)) else .fault (.misalignedTarget s.pc (s.reg rs))

end Sys2Proof.Machine
end

