-- ==== Sys2Proof/Machine/Sequential.lean ====
section
/-! DEFINITION. The single-cycle engine: `SeqStep` (spec/44_pipeline_engine.md R210), and one instruction taken through
the stages of the pipeline with nothing else in flight. -/

namespace Sys2Proof.Machine

/-- Count an executed instruction: the baseline takes one cycle per instruction (R210, R363; log 9). -/
def State.countStep (s : State) : State := { s with cycles := s.cycles + 1, committed := s.committed + 1 }

/-- The outcome of an instruction, with the counters moved when it completes. -/
def countOutcome : Host.Outcome State Fault Refusal → Host.Outcome State Fault Refusal
  | .next t    => .next t.countStep
  | .fault f   => .fault f
  | .refused r => .refused r

/-- `SeqStep` (R210): stop at `END_PC`; fault on an instruction address beyond the memory; fetch; fault on an
unsupported word; else perform the instruction's rule. -/
def seqStep (s : State) : Host.Outcome State Fault Refusal :=
  if s.pc = s.cfg.endPC then .next s.halt
  else if s.cfg.memWords ≤ wordIndex s.pc then .fault (.outOfRange s.pc)
  else
    match decodeWord (fetchWord s.cfg s.mem s.pc) with
    | .error _ => .fault (.unsupportedInstruction s.pc (fetchWord s.cfg s.mem s.pc))
    | .ok i    => countOutcome (exec i s)

/-- The parameters under which the very next step runs the instruction at the PC: the single-cycle engine, a memory
that reaches the PC, an end address that is not the PC (log 6). -/
def fetchConfig (cfg : RunConfig) (pc : Word) : RunConfig :=
  { cfg with
    engine   := .singleCycle
    memWords := max cfg.memWords (wordIndex pc + 1)
    endPC    := if cfg.endPC = pc then nextPc pc else cfg.endPC }

/-- The word `w` at `s.pc` taken through Decode, Execute, Memory and Writeback with no other instruction in flight: the
operands come from the register file, nothing is predicted, and the next pc is the redirect target or `pc + 4` (R225 to
R235, R290). The commit counter is the Writeback stage's. -/
def datapathStep (s : State) (w : Word) : Except Fault State :=
  let d := decodeLane s.regs { empty := false, instr := w, pc := s.pc, pred := false }
  match executeLane s.cfg s.predictor d d.rsVal d.rtVal with
  | .error f => .error f
  | .ok x =>
    match memoryLane s.cfg s.mem x.latch with
    | .error f => .error f
    | .ok (y, mem) =>
      match writebackLane s.cfg ⟨s.regs, s.committed⟩ y with
      | .error f => .error f
      | .ok r => .ok { s with
          regs      := r.regs
          committed := r.committed
          mem       := mem
          pc        := x.redirect.getD (nextPc s.pc) }

end Sys2Proof.Machine
end

