-- ==== Sys2Proof/Machine/Step.lean ====
section
/-! DEFINITION. One step of the machine (spec/44_pipeline_engine.md R210, R212; spec/10_state.md R41). -/

namespace Sys2Proof.Machine

/-- One step: a cycle of the pipelined engine, or one instruction of the single-cycle engine, whichever the run
selected (R2, R3). A halted or faulted machine makes no further cycle (R41): halted it stays as it is, faulted it
answers its fault again (log 10). -/
def step (s : State) : Host.Outcome State Fault Refusal :=
  match s.run with
  | .halted    => .next s
  | .faulted f => .fault f
  | .running   =>
    match s.cfg.engine with
    | .singleCycle => seqStep s
    | .pipelined   => outcomeOf (cycle s)

/-- The machine after a step with the run state the outcome gives it: a `SpecFault` leaves the state of the cycle's
start with the run state `Faulted` (R41, R212; log 11). -/
def tick (s : State) : State :=
  match step s with
  | .next t    => t
  | .fault f   => s.raise f
  | .refused _ => s

/-- `s` with the instruction word `w` of the opcode table stored where the next step fetches (log 6): `MemWord` of the
PC, the single-cycle engine selected, the machine running. -/
def State.withFetchWord (s : State) (nbits w : Nat) : State :=
  { s with
    mem := s.mem.setWord s.cfg.byteOrder (wordIndex s.pc) (BitVec.ofNat 32 (w % 2 ^ nbits))
    run := .running
    cfg := fetchConfig s.cfg s.pc }

end Sys2Proof.Machine
end

