-- ==== Sys2Proof/Safety.lean ====
section
/-! DEFINITION. What counts as a safe run, in the terms the obligations use: the shapes of an instruction's effect, the
invariants of the state, and the programs for which the pipeline must agree with the baseline. -/

namespace Sys2Proof.Machine

/-! ### Rows of the opcode map and effects of an instruction -/

/-- Every word of opcode 0 with this function code is the instruction `i` makes of it (R87, R89). -/
def RowR (funct : BitVec 6) (i : Word → Instr) : Prop :=
  ∀ w : Word, opcodeOf w = 0x00#6 → functOf w = funct → decodeWord w = .ok (i w)

/-- Every word with this primary opcode is the instruction `i` makes of it (R86, R89). -/
def RowIJ (opcode : BitVec 6) (i : Word → Instr) : Prop :=
  ∀ w : Word, opcodeOf w = opcode → decodeWord w = .ok (i w)

/-- From `s` to `t` the register `rd` took the value `v` (nothing if it is register 0), the pc moved to the next word,
and nothing else changed (R21, R120, R150). -/
structure WroteReg (s t : State) (rd : Reg) (v : Word) : Prop where
  regs : ∀ r, t.reg r = if r = rd ∧ r ≠ 0#5 then v else s.reg r
  rest : t = { s with regs := t.regs, pc := s.pc + 4#32 }

/-- From `s` to `t` the `n` bytes from address `a` up became `data`, every other byte kept its value, the memory is
still canonical, the pc moved to the next word, and nothing else changed (R57, R180). -/
structure StoredBytes (s t : State) (a : Word) (n : Nat) (data : Nat → Byte) : Prop where
  inside  : ∀ k < n, t.mem.read (a.toNat + k) = data k
  outside : ∀ b, (b < a.toNat ∨ a.toNat + n ≤ b) → t.mem.read b = s.mem.read b
  wf      : t.mem.wf = true
  rest    : t = { s with mem := t.mem, pc := s.pc + 4#32 }

/-- The halfword made of the byte at the lower address and the byte after it (R53). -/
def halfOfBytes (bo : ByteOrder) (b0 b1 : Byte) : BitVec 16 :=
  match bo with
  | .little => b1 ++ b0
  | .big    => b0 ++ b1

/-- Byte `k`, counted from the lowest address, of the low `n` bytes of `v` (R53). -/
def dataByte (bo : ByteOrder) (n : Nat) (v : Word) (k : Nat) : Byte :=
  match bo with
  | .little => v.extractLsb' (8 * k) 8
  | .big    => v.extractLsb' (8 * (n - 1 - k)) 8

/-- The destination register an instruction's rule names, if it names one (R102, R213). -/
def destReg : Instr → Option Reg
  | .sll rd _ _ | .srl rd _ _ | .sra rd _ _ => some rd
  | .add rd _ _ | .addu rd _ _ | .sub rd _ _ | .subu rd _ _ => some rd
  | .and rd _ _ | .or rd _ _ | .xor rd _ _ | .nor rd _ _ => some rd
  | .slt rd _ _ | .sltu rd _ _ => some rd
  | .addi rt _ _ | .addiu rt _ _ | .slti rt _ _ | .sltiu rt _ _ | .andi rt _ _ | .ori rt _ _ => some rt
  | .lui rt _ => some rt
  | .lb rt _ _ | .lh rt _ _ | .lw rt _ _ | .lbu rt _ _ | .lhu rt _ _ => some rt
  | .jal _ => some 31#5
  | .jr _ | .j _ => none
  | .beq _ _ _ | .bne _ _ _ => none
  | .sb _ _ _ | .sh _ _ _ | .sw _ _ _ => none

/-- The register fields of the word `w` of the instruction that the hazard unit compares (R251's table). -/
def sourceRegs (w : Word) : Instr → List Reg
  | .sll _ rt _ | .srl _ rt _ | .sra _ rt _ => [rt]
  | .add _ rs rt | .addu _ rs rt | .sub _ rs rt | .subu _ rs rt => [rs, rt]
  | .and _ rs rt | .or _ rs rt | .xor _ rs rt | .nor _ rs rt => [rs, rt]
  | .slt _ rs rt | .sltu _ rs rt => [rs, rt]
  | .jr rs => [rs, rtOf w]
  | .addi _ rs _ | .addiu _ rs _ | .slti _ rs _ | .sltiu _ rs _ | .andi _ rs _ | .ori _ rs _ => [rs]
  | .lui _ _ => []
  | .lb _ _ rs | .lh _ _ rs | .lw _ _ rs | .lbu _ _ rs | .lhu _ _ rs => [rs]
  | .sb rt _ rs | .sh rt _ rs | .sw rt _ rs => [rs, rt]
  | .beq rs rt _ | .bne rs rt _ => [rs, rt]
  | .j _ | .jal _ => []

/-- Whether the instruction can redirect the fetch: branches and jumps (R290). -/
def isTransfer : Instr → Bool
  | .beq _ _ _ | .bne _ _ _ | .j _ | .jal _ | .jr _ => true
  | .sll _ _ _ | .srl _ _ _ | .sra _ _ _ => false
  | .add _ _ _ | .addu _ _ _ | .sub _ _ _ | .subu _ _ _ => false
  | .and _ _ _ | .or _ _ _ | .xor _ _ _ | .nor _ _ _ | .slt _ _ _ | .sltu _ _ _ => false
  | .addi _ _ _ | .addiu _ _ _ | .slti _ _ _ | .sltiu _ _ _ | .andi _ _ _ | .ori _ _ _ | .lui _ _ => false
  | .lb _ _ _ | .lh _ _ _ | .lw _ _ _ | .lbu _ _ _ | .lhu _ _ _ => false
  | .sb _ _ _ | .sh _ _ _ | .sw _ _ _ => false

/-- The address a jump's index field makes at `pc`: the region of the next word, and the index counted in words
(R193). -/
def jumpAddress (pc : Word) (index : BitVec 26) : Word :=
  BitVec.ofNat 32 ((pc + 4#32).toNat / 2 ^ 28 * 2 ^ 28 + 4 * index.toNat)

/-- The address a branch's offset field makes at `pc` (R191). -/
def branchAddress (pc : Word) (imm : BitVec 16) : Word := BitVec.ofInt 32 (pc.toNat + 4 + 4 * imm.toInt)

/-- The latch holds a store whose bytes include the byte address `c` (R57, R232). -/
def ExMem.storesAt (m : ExMem) (c : Nat) : Bool :=
  !m.empty && m.ctrl.memWrite && decide (m.aluResult.toNat ≤ c) &&
    decide (c < m.aluResult.toNat + (Ctrl.width m.ctrl).bytes)

/-- The byte that store puts at `c` (R53, R57). -/
def ExMem.storedAt (bo : ByteOrder) (m : ExMem) (c : Nat) : Byte :=
  dataByte bo (Ctrl.width m.ctrl).bytes m.storeData (c - m.aluResult.toNat)

/-- The predictor after `k` taken resolutions of the one branch at `pc`, from history 0 and counters 0 (R297). -/
def trained (h : Nat) (pc : Word) : Nat → Predictor
  | 0     => { ghr := 0, bht := List.replicate (2 ^ h) 0#2 }
  | k + 1 => (trained h pc k).update h pc true

/-! ### Invariants of the state -/

/-- The property holds of both lanes. -/
def Lanes.Both {α : Type} (p : α → Prop) (l : Lanes α) : Prop := p l.lane1 ∧ p l.lane2

/-- The memory is in its canonical form and lists nothing beyond its last word (R31, log 1). -/
def State.MemoryCanonical (s : State) : Prop :=
  s.mem.wf = true ∧ ∀ c ∈ s.mem, c.1 < 4 * s.cfg.memWords

/-- The fetch PC and the pc of every latch are multiples of 4 (R27, R80). -/
def State.PcAligned (s : State) : Prop :=
  s.pc.toNat % 4 = 0 ∧
  s.ifid.Both (fun l => l.pc.toNat % 4 = 0) ∧ s.idex.Both (fun l => l.pc.toNat % 4 = 0) ∧
  s.exmem.Both (fun l => l.pc.toNat % 4 = 0) ∧ s.memwb.Both (fun l => l.pc.toNat % 4 = 0)

/-- A predicted direction is "taken" only for a branch, and only with the predictor on (R283). -/
def PredLegal (cfg : RunConfig) (pred : Bool) (instr : Word) : Prop :=
  pred = true → cfg.predict = true ∧ isBranch instr = true

/-- An empty latch is `EMPTY`; a non-empty one carries a legal predicted direction (R34, R283). -/
def IfId.Consistent (cfg : RunConfig) (l : IfId) : Prop :=
  (l.empty = true → l = IfId.bubble) ∧ PredLegal cfg l.pred l.instr

/-- A non-empty latch carries the control words and the fields of its own instruction (R34). -/
def IdEx.Consistent (cfg : RunConfig) (l : IdEx) : Prop :=
  (l.empty = true → l = IdEx.bubble) ∧
  (l.empty = false → l.ctrl = wordCtrl l.instr ∧ l.actl = wordActl l.instr ∧ l.dest = destOf l.instr l.ctrl ∧
    l.rs = rsOf l.instr ∧ l.rt = rtOf l.instr ∧ l.imm = sextImm (immOf l.instr)) ∧
  PredLegal cfg l.pred l.instr

/-- As for `IDEX` (R34). -/
def ExMem.Consistent (l : ExMem) : Prop :=
  (l.empty = true → l = ExMem.bubble) ∧
  (l.empty = false → l.ctrl = wordCtrl l.instr ∧ l.actl = wordActl l.instr ∧ l.dest = destOf l.instr l.ctrl)

/-- As for `IDEX`; and the load data of an instruction that loads nothing is 0 (R33, R34). -/
def MemWb.Consistent (l : MemWb) : Prop :=
  (l.empty = true → l = MemWb.bubble) ∧
  (l.empty = false → l.ctrl = wordCtrl l.instr ∧ l.actl = wordActl l.instr ∧ l.dest = destOf l.instr l.ctrl) ∧
  (l.ctrl.memRead = false → l.memData = 0#32)

/-- Every latch of both lanes is a self-consistent snapshot (R34). -/
def State.LatchesConsistent (s : State) : Prop :=
  s.ifid.Both (IfId.Consistent s.cfg) ∧ s.idex.Both (IdEx.Consistent s.cfg) ∧
  s.exmem.Both ExMem.Consistent ∧ s.memwb.Both MemWb.Consistent

/-- Where both lanes of a latch hold an instruction, lane 2's is the word after lane 1's (R301); with `LANES` = 1 there
is nothing in lane 2 (R32). -/
def State.LanesOrdered (s : State) : Prop :=
  (s.ifid.lane1.empty = false → s.ifid.lane2.empty = false → s.ifid.lane2.pc = s.ifid.lane1.pc + 4#32) ∧
  (s.idex.lane1.empty = false → s.idex.lane2.empty = false → s.idex.lane2.pc = s.idex.lane1.pc + 4#32) ∧
  (s.exmem.lane1.empty = false → s.exmem.lane2.empty = false → s.exmem.lane2.pc = s.exmem.lane1.pc + 4#32) ∧
  (s.memwb.lane1.empty = false → s.memwb.lane2.empty = false → s.memwb.lane2.pc = s.memwb.lane1.pc + 4#32) ∧
  (s.cfg.lanes = .one → s.ifid.lane2 = IfId.bubble ∧ s.idex.lane2 = IdEx.bubble ∧ s.exmem.lane2 = ExMem.bubble ∧
    s.memwb.lane2 = MemWb.bubble)

/-- `GHR` has `H` bits and `BHT` has `2^H` counters; with `PREDICT` off there are none (R37). -/
def State.PredictorShaped (s : State) : Prop :=
  if s.cfg.predict then s.predictor.ghr < 2 ^ s.cfg.h ∧ s.predictor.bht.length = 2 ^ s.cfg.h
  else s.predictor = { ghr := 0, bht := [] }

/-- Behind a jump in `EXMEM` the latches `IFID` and `IDEX` are empty, and behind one in `MEMWB` the latch `IDEX` is
(R272). -/
def State.JumpsDrained (s : State) : Prop :=
  (¬ s.exmem.Both (fun m => m.empty = true ∨ m.ctrl.jump = false) →
    s.ifid.Both (fun l => l.empty = true) ∧ s.idex.Both (fun l => l.empty = true)) ∧
  (¬ s.memwb.Both (fun w => w.empty = true ∨ w.ctrl.jump = false) → s.idex.Both (fun l => l.empty = true))

/-- No instruction in `IDEX` reads the destination of a load in `EXMEM` (R252, R266), and lane 2 of `IDEX` does not
read what lane 1 writes (R309). -/
def State.HazardsSpaced (s : State) : Prop :=
  s.idex.Both (fun e => s.exmem.Both (fun m =>
    m.empty = false → m.ctrl.memRead = true → m.ctrl.regWrite = true → e.readsReg m.dest = false)) ∧
  (s.idex.lane1.writesReg = true → s.idex.lane2.readsReg s.idex.lane1.dest = false)

/-- While the pipeline runs, the operand values latched in `IDEX` are those the register file holds (R225, R271). -/
def State.OperandsCurrent (s : State) : Prop :=
  s.run = .running → s.cfg.engine = .pipelined →
    s.idex.Both (fun e => e.empty = false → e.rsVal = s.reg e.rs ∧ e.rtVal = s.reg e.rt)

/-- The latch holds an instruction that writes register `r` (R213). -/
def MemWb.writesTo (w : MemWb) (r : Reg) : Bool := w.writesReg && w.dest == r

/-- How many of the two flags say "not empty". -/
def occupied (empty1 empty2 : Bool) : Nat := (if empty1 then 0 else 1) + (if empty2 then 0 else 1)

/-- Each stage behind the front lags it by a cycle: of the instructions fetched, at most `LANES` per cycle, those that
have left a stage number at most `LANES` times the cycles that stage has had (R316, R363). -/
def State.ThroughputBounded (s : State) : Prop :=
  s.cfg.engine = .pipelined →
    let w := occupied s.memwb.lane1.empty s.memwb.lane2.empty
    let m := occupied s.exmem.lane1.empty s.exmem.lane2.empty
    let e := occupied s.idex.lane1.empty s.idex.lane2.empty
    let f := occupied s.ifid.lane1.empty s.ifid.lane2.empty
    let n := s.cfg.lanes.toNat
    (s.run = .running →
      s.committed ≤ n * (s.cycles - 4) ∧ s.committed + w ≤ n * (s.cycles - 3) ∧
      s.committed + w + m ≤ n * (s.cycles - 2) ∧ s.committed + w + m + e ≤ n * (s.cycles - 1) ∧
      s.committed + w + m + e + f ≤ n * s.cycles) ∧
    (s.run = .halted → s.committed ≤ n * (s.cycles - 3))

/-- Everything the correctness of hazard handling rests on (R34, R271, R272, R252, R309). -/
structure State.PipelineInv (s : State) : Prop where
  consistent : s.LatchesConsistent
  drained    : s.JumpsDrained
  spaced     : s.HazardsSpaced
  current    : s.OperandsCurrent

/-- The registers once every instruction in `MEMWB` and `EXMEM` has retired: Writeback of `MEMWB`, then Writeback of
what the Memory stage makes of `EXMEM` (R230, R302). -/
def settledRegs (r : Retired) (y : Lanes MemWb) : RegFile :=
  let regs := if y.lane1.writesReg then r.regs.write y.lane1.dest y.lane1.wbValue else r.regs
  if y.lane2.writesReg then regs.write y.lane2.dest y.lane2.wbValue else regs

/-- The states agree on everything but the predictor's contents (R39, R295). -/
def SameButPredictor (s t : State) : Prop := t = { s with predictor := t.predictor }

/-! ### Runs -/

/-- `n` steps from `s` end in `t`, none of them a fault. -/
def Reaches (s : State) (n : Nat) (t : State) : Prop := Host.Core.run Sys2Proof.core n s = .next t

/-- The run of the single-cycle baseline with these inputs (R210). -/
def baseline (cfg : RunConfig) (regs : RegFile) (mem : Memory) : State :=
  State.start { cfg with engine := .singleCycle } regs mem

/-- The run of the pipelined engine with these inputs (R350). -/
def pipeline (cfg : RunConfig) (regs : RegFile) (mem : Memory) : State :=
  State.start { cfg with engine := .pipelined } regs mem

/-- Requirement 2 of R360 at one moment: the `2 * LANES` words at `END_PC` are NOP. -/
def EndIsNop (cfg : RunConfig) (m : Memory) : Prop :=
  ∀ k < 2 * cfg.lanes.toNat, fetchWord cfg m (cfg.endPC + BitVec.ofNat 32 (4 * k)) = 0#32

/-- What R360 asks of a run of `n` instructions that the baseline makes, ending in `t`: aligned entry and end; the
baseline reaches `END_PC` after `n` instructions without a fault (which is requirement 4); the words at `END_PC` are
NOPs; no step changes a word executed within the next `3 * LANES - 1` instructions. DESIGN CHOICE (log 24, safe): R360
asks requirement 2 at the start of the run and says nothing of a store to those words during it; `endIsNop` asks it
after every instruction of the baseline's run as well. -/
structure BootRequirements (cfg : RunConfig) (regs : RegFile) (mem : Memory) (n : Nat) (t : State) : Prop where
  canonical    : mem.wf = true
  entryAligned : cfg.entryPC.toNat % 4 = 0
  endAligned   : cfg.endPC.toNat % 4 = 0
  reaches      : Reaches (baseline cfg regs mem) n t
  running      : t.run = .running
  atEnd        : t.pc = cfg.endPC
  endIsNop     : ∀ i u, i ≤ n → Reaches (baseline cfg regs mem) i u → EndIsNop cfg u.mem
  noNearStore  : ∀ i j u u' v, i < j → j < n → j ≤ i + (3 * cfg.lanes.toNat - 1) →
    Reaches (baseline cfg regs mem) i u → Reaches (baseline cfg regs mem) (i + 1) u' →
    Reaches (baseline cfg regs mem) j v → fetchWord cfg u'.mem v.pc = fetchWord cfg u.mem v.pc

end Sys2Proof.Machine
end

