-- ==== Sys2Proof/Certificates/Slice0/Obligations.lean ====
section
/-! DEFINITION. The statements for the provers, each from the numbered rules of spec/ its docstring names. -/

section Statements
open Sys2Proof Sys2Proof.Machine

/-! ### Encoding (spec/30_encoding.md) -/

/-- R82 to R84, R86, R87: decoding the bytes of an encoded instruction gives the instruction back and leaves the bytes
behind it, under both byte orders; no operand loses a bit. -/
def Obligations.EncodeDecodeRoundTrip : Prop :=
  ∀ (bo : ByteOrder) (i : Instr) (rest : List Byte), decodeBytes bo (bytesOfWord bo (encode i) ++ rest) = .ok (i, rest)

/-- R86, R87: the two tables of numbers, row by row, and every other number unsupported. -/
def Obligations.OpcodeMap : Prop :=
  (RowIJ 0x02#6 (fun w => .j (indexOf w)) ∧ RowIJ 0x03#6 (fun w => .jal (indexOf w)) ∧
   RowIJ 0x04#6 (fun w => .beq (rsOf w) (rtOf w) (immOf w)) ∧ RowIJ 0x05#6 (fun w => .bne (rsOf w) (rtOf w) (immOf w)) ∧
   RowIJ 0x08#6 (fun w => .addi (rtOf w) (rsOf w) (immOf w)) ∧ RowIJ 0x09#6 (fun w => .addiu (rtOf w) (rsOf w) (immOf w)) ∧
   RowIJ 0x0A#6 (fun w => .slti (rtOf w) (rsOf w) (immOf w)) ∧ RowIJ 0x0B#6 (fun w => .sltiu (rtOf w) (rsOf w) (immOf w)) ∧
   RowIJ 0x0C#6 (fun w => .andi (rtOf w) (rsOf w) (immOf w)) ∧ RowIJ 0x0D#6 (fun w => .ori (rtOf w) (rsOf w) (immOf w)) ∧
   RowIJ 0x0F#6 (fun w => .lui (rtOf w) (immOf w)) ∧
   RowIJ 0x20#6 (fun w => .lb (rtOf w) (immOf w) (rsOf w)) ∧ RowIJ 0x21#6 (fun w => .lh (rtOf w) (immOf w) (rsOf w)) ∧
   RowIJ 0x23#6 (fun w => .lw (rtOf w) (immOf w) (rsOf w)) ∧ RowIJ 0x24#6 (fun w => .lbu (rtOf w) (immOf w) (rsOf w)) ∧
   RowIJ 0x25#6 (fun w => .lhu (rtOf w) (immOf w) (rsOf w)) ∧ RowIJ 0x28#6 (fun w => .sb (rtOf w) (immOf w) (rsOf w)) ∧
   RowIJ 0x29#6 (fun w => .sh (rtOf w) (immOf w) (rsOf w)) ∧ RowIJ 0x2B#6 (fun w => .sw (rtOf w) (immOf w) (rsOf w))) ∧
  (RowR 0x00#6 (fun w => .sll (rdOf w) (rtOf w) (shamtOf w)) ∧ RowR 0x02#6 (fun w => .srl (rdOf w) (rtOf w) (shamtOf w)) ∧
   RowR 0x03#6 (fun w => .sra (rdOf w) (rtOf w) (shamtOf w)) ∧ RowR 0x08#6 (fun w => .jr (rsOf w)) ∧
   RowR 0x20#6 (fun w => .add (rdOf w) (rsOf w) (rtOf w)) ∧ RowR 0x21#6 (fun w => .addu (rdOf w) (rsOf w) (rtOf w)) ∧
   RowR 0x22#6 (fun w => .sub (rdOf w) (rsOf w) (rtOf w)) ∧ RowR 0x23#6 (fun w => .subu (rdOf w) (rsOf w) (rtOf w)) ∧
   RowR 0x24#6 (fun w => .and (rdOf w) (rsOf w) (rtOf w)) ∧ RowR 0x25#6 (fun w => .or (rdOf w) (rsOf w) (rtOf w)) ∧
   RowR 0x26#6 (fun w => .xor (rdOf w) (rsOf w) (rtOf w)) ∧ RowR 0x27#6 (fun w => .nor (rdOf w) (rsOf w) (rtOf w)) ∧
   RowR 0x2A#6 (fun w => .slt (rdOf w) (rsOf w) (rtOf w)) ∧ RowR 0x2B#6 (fun w => .sltu (rdOf w) (rsOf w) (rtOf w))) ∧
  (∀ w : Word, let n := (opcodeOf w).toNat
    (n = 0x01 ∨ n = 0x06 ∨ n = 0x07 ∨ n = 0x0E ∨ (0x10 ≤ n ∧ n ≤ 0x1F) ∨ n = 0x22 ∨ n = 0x26 ∨ n = 0x27 ∨ n = 0x2A ∨
      0x2C ≤ n) → decodeWord w = .error (.unsupportedOpcode (opcodeOf w))) ∧
  (∀ w : Word, opcodeOf w = 0x00#6 → let n := (functOf w).toNat
    (n = 0x01 ∨ (0x04 ≤ n ∧ n ≤ 0x07) ∨ (0x09 ≤ n ∧ n ≤ 0x1F) ∨ n = 0x28 ∨ n = 0x29 ∨ 0x2C ≤ n) →
      decodeWord w = .error (.unsupportedFunct (functOf w)))

/-- R89: a word that decodes has, under its row's mask, the bits of the instruction it decodes to, and the bits the
format does not use are accepted at any value and change nothing. -/
def Obligations.UnusedFieldsIgnored : Prop :=
  (∀ (w : Word) (i : Instr), decodeWord w = .ok i → w &&& rowMask w = encode i &&& rowMask (encode i)) ∧
  (∀ (rs rt rd : Reg) (sh : BitVec 5),
    decodeWord (encodeR rs rt rd sh 0x00#6) = .ok (.sll rd rt sh) ∧
    decodeWord (encodeR rs rt rd sh 0x02#6) = .ok (.srl rd rt sh) ∧
    decodeWord (encodeR rs rt rd sh 0x03#6) = .ok (.sra rd rt sh) ∧
    decodeWord (encodeR rs rt rd sh 0x08#6) = .ok (.jr rs) ∧
    decodeWord (encodeR rs rt rd sh 0x20#6) = .ok (.add rd rs rt) ∧
    decodeWord (encodeR rs rt rd sh 0x21#6) = .ok (.addu rd rs rt) ∧
    decodeWord (encodeR rs rt rd sh 0x22#6) = .ok (.sub rd rs rt) ∧
    decodeWord (encodeR rs rt rd sh 0x23#6) = .ok (.subu rd rs rt) ∧
    decodeWord (encodeR rs rt rd sh 0x24#6) = .ok (.and rd rs rt) ∧
    decodeWord (encodeR rs rt rd sh 0x25#6) = .ok (.or rd rs rt) ∧
    decodeWord (encodeR rs rt rd sh 0x26#6) = .ok (.xor rd rs rt) ∧
    decodeWord (encodeR rs rt rd sh 0x27#6) = .ok (.nor rd rs rt) ∧
    decodeWord (encodeR rs rt rd sh 0x2A#6) = .ok (.slt rd rs rt) ∧
    decodeWord (encodeR rs rt rd sh 0x2B#6) = .ok (.sltu rd rs rt)) ∧
  (∀ (rs rt : Reg) (imm : BitVec 16), decodeWord (encodeI 0x0F#6 rs rt imm) = .ok (.lui rt imm))

/-- Words the spec writes out (R90, R123, R124, R151, R173, R177, R191, R194, R195), decoded; a word of XORI's opcode,
which is not in the subset (R86, R158), is rejected. -/
def Obligations.SampleWordsDecode : Prop :=
  decodeWord 0x00000000#32 = .ok (.sll 0#5 0#5 0#5) ∧
  decodeWord 0x00011103#32 = .ok (.sra 2#5 1#5 4#5) ∧
  decodeWord 0x00221820#32 = .ok (.add 3#5 1#5 2#5) ∧
  decodeWord 0x20010005#32 = .ok (.addi 1#5 0#5 5#16) ∧
  decodeWord 0x8C010040#32 = .ok (.lw 1#5 64#16 0#5) ∧
  decodeWord 0xA4410002#32 = .ok (.sh 1#5 2#16 2#5) ∧
  decodeWord 0x10220003#32 = .ok (.beq 1#5 2#5 3#16) ∧
  decodeWord 0x0C000040#32 = .ok (.jal 0x40#26) ∧
  decodeWord 0x03E00008#32 = .ok (.jr 31#5) ∧
  decodeWord 0x38000000#32 = .error (.unsupportedOpcode 0x0E#6)

/-- R96, R225, R235: an unsupported word gets the all-zero control vector and the flag `Unsupported`, writes and reads
no register, redirects nothing, updates no predictor, is no forwarding producer, and raises `UnsupportedInstruction`
in the Memory stage; a supported word has the flag clear. -/
def Obligations.UnsupportedWordCarried : Prop :=
  (∀ (cfg : RunConfig) (regs : RegFile) (mem : Memory) (p : Predictor) (w pc a b : Word) (pred : Bool) (why : Reject),
    decodeWord w = .error why →
    let d := decodeLane regs { empty := false, instr := w, pc := pc, pred := pred }
    d.ctrl = Ctrl.zero ∧ d.actl.unsupported = true ∧ d.writesReg = false ∧ (∀ r, d.readsReg r = false) ∧
    ∃ x, executeLane cfg p d a b = .ok x ∧ x.redirect = none ∧ x.predictor = p ∧ (∀ r, x.latch.forwards r = false) ∧
      x.latch.writesReg = false ∧ memoryLane cfg mem x.latch = .error (.unsupportedInstruction pc w)) ∧
  (∀ (w : Word) (i : Instr), decodeWord w = .ok i → (wordActl w).unsupported = false)

/-- R105's contract, met by the reference Decode Unit and ALU control for every word. -/
def Obligations.ControlWordContract : Prop :=
  ∀ w : Word, let c := decodeUnit (opcodeOf w)
    ([c.jump, c.branch, c.memRead, c.memWrite, (wordActl w).jumpReg].count true ≤ 1) ∧
    (c.branch = true ∨ c.memWrite = true ∨ (c.jump = true ∧ c.link = false) → c.regWrite = false) ∧
    c.memToReg = c.memRead

/-- R213, R102, R251: of a decoded instruction, whether it writes a register and which one, and the register fields it
consumes; register 0 is neither. -/
def Obligations.DecodedRegisterRoles : Prop :=
  ∀ (regs : RegFile) (w pc : Word) (pred : Bool) (i : Instr), decodeWord w = .ok i →
    let d := decodeLane regs { empty := false, instr := w, pc := pc, pred := pred }
    (d.writesReg = true ↔ ∃ r, destReg i = some r ∧ r ≠ 0#5) ∧ (∀ r, destReg i = some r → d.dest = r) ∧
    (∀ r, d.readsReg r = true ↔ r ≠ 0#5 ∧ r ∈ sourceRegs w i)

/-- R91: an assembled branch that is taken, and an assembled jump, continue at the target the line names. -/
def Obligations.AssembledTargetReached : Prop :=
  (∀ (rs rt target : Nat) (s : State), s.pc.toNat % 4 = 0 →
    ((Asm.branch .beq rs rt target).wellFormed s.pc = true → s.reg (regOfNat rs) = s.reg (regOfNat rt) →
      ∃ t, exec (assemble s.pc (.branch .beq rs rt target)) s = .next t ∧ t.pc = BitVec.ofNat 32 target) ∧
    ((Asm.branch .bne rs rt target).wellFormed s.pc = true → s.reg (regOfNat rs) ≠ s.reg (regOfNat rt) →
      ∃ t, exec (assemble s.pc (.branch .bne rs rt target)) s = .next t ∧ t.pc = BitVec.ofNat 32 target)) ∧
  (∀ (op : JumpOp) (target : Nat) (s : State), (Asm.jump op target).wellFormed s.pc = true →
    ∃ t, exec (assemble s.pc (.jump op target)) s = .next t ∧ t.pc = BitVec.ofNat 32 target)

/-! ### Register arithmetic (spec/40_alu_register.md, spec/41_alu_immediate.md): result, completion, frame -/

/-- R124 to R127, R134: the sum and the difference modulo `2^32`; no overflow trap, so each pair is one operation;
nothing else changed. -/
def Obligations.AddSubtractResult : Prop :=
  (RowR 0x20#6 (fun w => .add (rdOf w) (rsOf w) (rtOf w)) ∧ RowR 0x21#6 (fun w => .addu (rdOf w) (rsOf w) (rtOf w)) ∧
   RowR 0x22#6 (fun w => .sub (rdOf w) (rsOf w) (rtOf w)) ∧ RowR 0x23#6 (fun w => .subu (rdOf w) (rsOf w) (rtOf w))) ∧
  ∀ (rd rs rt : Reg) (s : State),
    let sum := BitVec.ofNat 32 (((s.reg rs).toNat + (s.reg rt).toNat) % 2 ^ 32)
    let difference := BitVec.ofInt 32 (((s.reg rs).toNat : Int) - ((s.reg rt).toNat : Int))
    (∃ t, exec (.add rd rs rt) s = .next t ∧ WroteReg s t rd sum) ∧
    (∃ t, exec (.addu rd rs rt) s = .next t ∧ WroteReg s t rd sum) ∧
    (∃ t, exec (.sub rd rs rt) s = .next t ∧ WroteReg s t rd difference) ∧
    (∃ t, exec (.subu rd rs rt) s = .next t ∧ WroteReg s t rd difference)

/-- R128 to R131: the four logical operations, bit by bit, nothing else changed. -/
def Obligations.LogicResult : Prop :=
  RowR 0x24#6 (fun w => .and (rdOf w) (rsOf w) (rtOf w)) ∧ RowR 0x25#6 (fun w => .or (rdOf w) (rsOf w) (rtOf w)) ∧
  RowR 0x26#6 (fun w => .xor (rdOf w) (rsOf w) (rtOf w)) ∧ RowR 0x27#6 (fun w => .nor (rdOf w) (rsOf w) (rtOf w)) ∧
  ∀ (rd rs rt : Reg) (s : State),
    let a := fun k => (s.reg rs).getLsbD k
    let b := fun k => (s.reg rt).getLsbD k
    (∃ t v, exec (.and rd rs rt) s = .next t ∧ WroteReg s t rd v ∧ ∀ k < 32, v.getLsbD k = (a k && b k)) ∧
    (∃ t v, exec (.or rd rs rt) s = .next t ∧ WroteReg s t rd v ∧ ∀ k < 32, v.getLsbD k = (a k || b k)) ∧
    (∃ t v, exec (.xor rd rs rt) s = .next t ∧ WroteReg s t rd v ∧ ∀ k < 32, v.getLsbD k = (a k != b k)) ∧
    (∃ t v, exec (.nor rd rs rt) s = .next t ∧ WroteReg s t rd v ∧ ∀ k < 32, v.getLsbD k = !(a k || b k))

/-- R132, R133: 1 or 0 by the exact signed, or the unsigned, comparison, nothing else changed. -/
def Obligations.SetLessResult : Prop :=
  RowR 0x2A#6 (fun w => .slt (rdOf w) (rsOf w) (rtOf w)) ∧ RowR 0x2B#6 (fun w => .sltu (rdOf w) (rsOf w) (rtOf w)) ∧
  ∀ (rd rs rt : Reg) (s : State),
    (∃ t, exec (.slt rd rs rt) s = .next t ∧
      WroteReg s t rd (if (s.reg rs).toInt < (s.reg rt).toInt then 1#32 else 0#32)) ∧
    (∃ t, exec (.sltu rd rs rt) s = .next t ∧
      WroteReg s t rd (if (s.reg rs).toNat < (s.reg rt).toNat then 1#32 else 0#32))

/-- R121 to R123: shift left, shift right with zeros, shift right with copies of bit 31, by 0 to 31, as arithmetic on
the register's value; `rs` is not read. -/
def Obligations.ShiftResult : Prop :=
  ∀ (rd rt : Reg) (shamt : BitVec 5) (s : State),
    (∃ t, exec (.sll rd rt shamt) s = .next t ∧
      WroteReg s t rd (BitVec.ofNat 32 ((s.reg rt).toNat * 2 ^ shamt.toNat))) ∧
    (∃ t, exec (.srl rd rt shamt) s = .next t ∧
      WroteReg s t rd (BitVec.ofNat 32 ((s.reg rt).toNat / 2 ^ shamt.toNat))) ∧
    (∃ t, exec (.sra rd rt shamt) s = .next t ∧
      WroteReg s t rd (BitVec.ofInt 32 ((s.reg rt).toInt / 2 ^ shamt.toNat)))

/-- R151, R152: the sum with the sign-extended immediate modulo `2^32`, no overflow trap, nothing else changed. -/
def Obligations.AddImmediateResult : Prop :=
  RowIJ 0x08#6 (fun w => .addi (rtOf w) (rsOf w) (immOf w)) ∧ RowIJ 0x09#6 (fun w => .addiu (rtOf w) (rsOf w) (immOf w)) ∧
  ∀ (rt rs : Reg) (imm : BitVec 16) (s : State),
    let v := BitVec.ofInt 32 ((s.reg rs).toInt + imm.toInt)
    (∃ t, exec (.addi rt rs imm) s = .next t ∧ WroteReg s t rt v) ∧
    (∃ t, exec (.addiu rt rs imm) s = .next t ∧ WroteReg s t rt v)

/-- R153, R154: 1 or 0 by comparison with the sign-extended immediate, signed, or read as unsigned. -/
def Obligations.SetLessImmediateResult : Prop :=
  RowIJ 0x0A#6 (fun w => .slti (rtOf w) (rsOf w) (immOf w)) ∧ RowIJ 0x0B#6 (fun w => .sltiu (rtOf w) (rsOf w) (immOf w)) ∧
  ∀ (rt rs : Reg) (imm : BitVec 16) (s : State),
    (∃ t, exec (.slti rt rs imm) s = .next t ∧
      WroteReg s t rt (if (s.reg rs).toInt < imm.toInt then 1#32 else 0#32)) ∧
    (∃ t, exec (.sltiu rt rs imm) s = .next t ∧
      WroteReg s t rt
        (if (s.reg rs).toNat < (if imm.toNat < 0x8000 then imm.toNat else imm.toNat + 0xFFFF0000) then 1#32 else 0#32))

/-- R155, R156: the logical operations with the zero-extended immediate, bit by bit: bits 31 to 16 of ANDI's result are
clear, those of ORI's pass unchanged. -/
def Obligations.LogicImmediateResult : Prop :=
  RowIJ 0x0C#6 (fun w => .andi (rtOf w) (rsOf w) (immOf w)) ∧ RowIJ 0x0D#6 (fun w => .ori (rtOf w) (rsOf w) (immOf w)) ∧
  ∀ (rt rs : Reg) (imm : BitVec 16) (s : State),
    let a := fun k => (s.reg rs).getLsbD k
    (∃ t v, exec (.andi rt rs imm) s = .next t ∧ WroteReg s t rt v ∧
      ∀ k < 32, v.getLsbD k = if k < 16 then a k && imm.getLsbD k else false) ∧
    (∃ t v, exec (.ori rt rs imm) s = .next t ∧ WroteReg s t rt v ∧
      ∀ k < 32, v.getLsbD k = if k < 16 then a k || imm.getLsbD k else a k)

/-- R157: the immediate in the upper half, zeros below; no register is read. -/
def Obligations.LoadUpperResult : Prop :=
  ∀ (rt : Reg) (imm : BitVec 16) (s : State),
    ∃ t, exec (.lui rt imm) s = .next t ∧ WroteReg s t rt (BitVec.ofNat 32 (imm.toNat * 2 ^ 16))

/-- R21, R24: register 0 reads as zero whatever is written, every other register reads back what was written to it, and
both reads of one register-file call see the state before its write. -/
def Obligations.RegisterFileAccess : Prop :=
  ∀ (regs : RegFile) (i j w : Reg) (doWrite : Bool) (v : Word),
    let call := regs.access i j w doWrite v
    call.1 = regs.read i ∧ call.2.1 = regs.read j ∧ call.2.2.read 0#5 = 0#32 ∧
    ∀ q, q ≠ 0#5 → call.2.2.read q = if doWrite = true ∧ q = w then v else regs.read q

/-! ### Loads and stores (spec/42_load_store.md) and memory (spec/20_memory.md) -/

/-- R170 to R175: the loads, at any address inside the memory their width is aligned at: the byte, halfword or word
there, sign- or zero-extended; nothing but `x[rt]` and the pc changes. -/
def Obligations.LoadResult : Prop :=
  ∀ (rt rs : Reg) (imm : BitVec 16) (s : State),
    let a := effAddr (s.reg rs) imm
    let b := fun k => s.mem.read (a.toNat + k)
    let h := halfOfBytes s.cfg.byteOrder (b 0) (b 1)
    a = BitVec.ofInt 32 ((s.reg rs).toInt + imm.toInt) ∧
    (a.toNat / 4 < s.cfg.memWords →
      (∃ t, exec (.lb rt imm rs) s = .next t ∧ WroteReg s t rt ((b 0).signExtend 32)) ∧
      (∃ t, exec (.lbu rt imm rs) s = .next t ∧ WroteReg s t rt ((b 0).setWidth 32)) ∧
      (a.toNat % 2 = 0 → ∃ t, exec (.lh rt imm rs) s = .next t ∧ WroteReg s t rt (h.signExtend 32)) ∧
      (a.toNat % 2 = 0 → ∃ t, exec (.lhu rt imm rs) s = .next t ∧ WroteReg s t rt (h.setWidth 32)) ∧
      (a.toNat % 4 = 0 → ∃ t, exec (.lw rt imm rs) s = .next t ∧
        WroteReg s t rt (wordOfBytes s.cfg.byteOrder (b 0) (b 1) (b 2) (b 3))))

/-- R176 to R178, R57: each store replaces the bytes of its width at its effective address by the low bytes of `x[rt]`,
changes no other byte, and writes no register. -/
def Obligations.StoreResult : Prop :=
  ∀ (rt rs : Reg) (imm : BitVec 16) (s : State), s.mem.wf = true →
    let a := effAddr (s.reg rs) imm
    a.toNat / 4 < s.cfg.memWords →
      (∃ t, exec (.sb rt imm rs) s = .next t ∧ StoredBytes s t a 1 (dataByte s.cfg.byteOrder 1 (s.reg rt))) ∧
      (a.toNat % 2 = 0 →
        ∃ t, exec (.sh rt imm rs) s = .next t ∧ StoredBytes s t a 2 (dataByte s.cfg.byteOrder 2 (s.reg rt))) ∧
      (a.toNat % 4 = 0 →
        ∃ t, exec (.sw rt imm rs) s = .next t ∧ StoredBytes s t a 4 (dataByte s.cfg.byteOrder 4 (s.reg rt)))

/-- R179, R333: a misaligned halfword or word access faults, and so does an aligned access beyond the memory, which is
tested second. -/
def Obligations.DataAccessFaults : Prop :=
  ∀ (rt rs : Reg) (imm : BitVec 16) (s : State),
    let a := effAddr (s.reg rs) imm
    (a.toNat % 2 = 1 → exec (.lh rt imm rs) s = .fault (.misalignedData a 2) ∧
      exec (.lhu rt imm rs) s = .fault (.misalignedData a 2) ∧ exec (.sh rt imm rs) s = .fault (.misalignedData a 2)) ∧
    (a.toNat % 4 ≠ 0 → exec (.lw rt imm rs) s = .fault (.misalignedData a 4) ∧
      exec (.sw rt imm rs) s = .fault (.misalignedData a 4)) ∧
    (s.cfg.memWords ≤ a.toNat / 4 →
      (exec (.lb rt imm rs) s = .fault (.outOfRange a) ∧ exec (.lbu rt imm rs) s = .fault (.outOfRange a) ∧
        exec (.sb rt imm rs) s = .fault (.outOfRange a)) ∧
      (a.toNat % 2 = 0 → exec (.lh rt imm rs) s = .fault (.outOfRange a) ∧
        exec (.lhu rt imm rs) s = .fault (.outOfRange a) ∧ exec (.sh rt imm rs) s = .fault (.outOfRange a)) ∧
      (a.toNat % 4 = 0 → exec (.lw rt imm rs) s = .fault (.outOfRange a) ∧
        exec (.sw rt imm rs) s = .fault (.outOfRange a)))

/-- R54: what bytes and halfwords a word store leaves under each byte order, and that the word is fetched as it was
stored under either. -/
def Obligations.MixedWidthView : Prop :=
  ∀ (cfg : RunConfig) (m : Memory) (a : Word), m.wf = true → a.toNat % 4 = 0 → a.toNat / 4 < cfg.memWords →
    (∃ m', memWrite cfg m a .word 0x11223344#32 = .ok m' ∧
      (cfg.byteOrder = .little →
        memRead cfg m' a .byte = .ok 0x44#32 ∧ memRead cfg m' (a + 1#32) .byte = .ok 0x33#32 ∧
        memRead cfg m' (a + 2#32) .byte = .ok 0x22#32 ∧ memRead cfg m' (a + 3#32) .byte = .ok 0x11#32 ∧
        memRead cfg m' a .half = .ok 0x3344#32 ∧ memRead cfg m' (a + 2#32) .half = .ok 0x1122#32) ∧
      (cfg.byteOrder = .big →
        memRead cfg m' a .byte = .ok 0x11#32 ∧ memRead cfg m' (a + 1#32) .byte = .ok 0x22#32 ∧
        memRead cfg m' (a + 2#32) .byte = .ok 0x33#32 ∧ memRead cfg m' (a + 3#32) .byte = .ok 0x44#32 ∧
        memRead cfg m' a .half = .ok 0x1122#32 ∧ memRead cfg m' (a + 2#32) .half = .ok 0x3344#32)) ∧
    (∀ v : Word, ∃ m', memWrite cfg m a .word v = .ok m' ∧ fetchWord cfg m' a = v)

/-- R59, R57, R62: a write that passes its checks is read back, whole; a read of bytes it does not touch answers as
before; writing what is already there changes nothing. -/
def Obligations.ReadAfterWrite : Prop :=
  ∀ (cfg : RunConfig) (m : Memory) (a : Word) (n : Width), m.wf = true → alignedFor a n = true →
    a.toNat / 4 < cfg.memWords →
    (∀ v : Word, ∃ m', memWrite cfg m a n v = .ok m' ∧ m'.wf = true ∧
      memRead cfg m' a n = .ok (BitVec.ofNat 32 (v.toNat % 2 ^ (8 * n.bytes))) ∧
      ∀ (b : Word) (k : Width), (b.toNat + k.bytes ≤ a.toNat ∨ a.toNat + n.bytes ≤ b.toNat) →
        memRead cfg m' b k = memRead cfg m b k) ∧
    (∃ v, memRead cfg m a n = .ok v ∧ memWrite cfg m a n v = .ok m)

/-- R58, R230: the fetch of an address beyond the memory answers the NOP word; the instruction so fetched goes through
Execute without a redirect and through Memory without an access, and faults when it retires, not before. -/
def Obligations.FetchBeyondMemory : Prop :=
  (∀ (cfg : RunConfig) (m : Memory) (a : Word), cfg.memWords ≤ a.toNat / 4 → fetchWord cfg m a = 0#32) ∧
  (∀ (cfg : RunConfig) (m : Memory) (a : Word), a.toNat / 4 < cfg.memWords → a.toNat % 4 = 0 →
    fetchWord cfg m a = wordOfBytes cfg.byteOrder (m.read a.toNat) (m.read (a.toNat + 1)) (m.read (a.toNat + 2))
      (m.read (a.toNat + 3))) ∧
  (∀ (cfg : RunConfig) (r : Retired) (w : MemWb), w.empty = false → cfg.memWords ≤ w.pc.toNat / 4 →
    writebackLane cfg r w = .error (.outOfRange w.pc)) ∧
  (∀ (cfg : RunConfig) (regs : RegFile) (fetched later : Memory) (p q : Predictor) (a v1 v2 : Word) (r : Retired),
    cfg.memWords ≤ a.toNat / 4 → ∃ x y,
      executeLane cfg q (decodeLane regs (fetchLatch cfg fetched p a)) v1 v2 = .ok x ∧
      x.redirect = none ∧ x.predictor = q ∧ memoryLane cfg later x.latch = .ok (y, later) ∧
      writebackLane cfg r y = .error (.outOfRange a))

/-! ### Control transfer (spec/43_control_transfer.md) -/

/-- R191, R192: a branch goes to `pc + 4` plus its word offset when its condition holds and to `pc + 4` otherwise, and
changes nothing else. -/
def Obligations.BranchResult : Prop :=
  ∀ (rs rt : Reg) (imm : BitVec 16) (s : State),
    exec (.beq rs rt imm) s =
      .next { s with pc := if s.reg rs = s.reg rt then branchAddress s.pc imm else s.pc + 4#32 } ∧
    exec (.bne rs rt imm) s =
      .next { s with pc := if s.reg rs = s.reg rt then s.pc + 4#32 else branchAddress s.pc imm }

/-- R193 to R195: J goes to the jump address and changes nothing else; JAL does the same and writes `pc + 4` to
register 31; JR goes to `x[rs]` and changes nothing else, and faults on a value that is not a multiple of 4. -/
def Obligations.JumpResult : Prop :=
  ∀ (index : BitVec 26) (rs : Reg) (s : State),
    exec (.j index) s = .next { s with pc := jumpAddress s.pc index } ∧
    (∃ t, exec (.jal index) s = .next t ∧ (∀ r, t.reg r = if r = 31#5 then s.pc + 4#32 else s.reg r) ∧
      t = { s with regs := t.regs, pc := jumpAddress s.pc index }) ∧
    ((s.reg rs).toNat % 4 = 0 → exec (.jr rs) s = .next { s with pc := s.reg rs }) ∧
    ((s.reg rs).toNat % 4 ≠ 0 → exec (.jr rs) s = .fault (.misalignedTarget s.pc (s.reg rs)))

/-! ### Reset and the run (spec/70_reset_and_hazards.md, spec/10_state.md) -/

/-- R353: the state at the start of a run, for any parameters, registers and memory; the default `ENTRY_PC` and
`BHT_INIT` are 0. That lane 2 holds `EMPTY` with `LANES` = 1 too is the model's choice (log 17). -/
def Obligations.ResetState : Prop :=
  ∀ (cfg : RunConfig) (regs : RegFile) (mem : Memory),
    let s := State.start cfg regs mem
    s.reg 0#5 = 0#32 ∧ (∀ r, r ≠ 0#5 → s.reg r = regs.read r) ∧ s.pc = cfg.entryPC ∧ s.mem = mem ∧
    s.ifid.Both (· = IfId.bubble) ∧ s.idex.Both (· = IdEx.bubble) ∧ s.exmem.Both (· = ExMem.bubble) ∧
    s.memwb.Both (· = MemWb.bubble) ∧
    (cfg.predict = true → s.predictor.ghr = 0 ∧ s.predictor.bht.length = 2 ^ cfg.h ∧
      ∀ i < 2 ^ cfg.h, s.predictor.counter i = cfg.bhtInit) ∧
    s.cycles = 0 ∧ s.committed = 0 ∧ s.run = .running ∧
    RunConfig.atReset.entryPC = 0#32 ∧ RunConfig.atReset.bhtInit = 0#2

/-- R210, R80: a step of the single-cycle engine runs exactly the instruction the bytes at the pc decode to, and counts
it; what the instruction does is `exec`. The counting is the model's reading (log 9). -/
def Obligations.StepRunsDecodedInstruction : Prop :=
  ∀ (s : State) (i : Instr), s.run = .running → s.cfg.engine = .singleCycle → s.pc ≠ s.cfg.endPC →
    s.pc.toNat % 4 = 0 → s.pc.toNat / 4 < s.cfg.memWords →
    decodeBytes s.cfg.byteOrder [s.mem.read s.pc.toNat, s.mem.read (s.pc.toNat + 1), s.mem.read (s.pc.toNat + 2),
      s.mem.read (s.pc.toNat + 3)] = .ok (i, []) →
    (∀ t, exec i s = .next t → step s = .next { t with cycles := s.cycles + 1, committed := s.committed + 1 }) ∧
    (∀ f, exec i s = .fault f → step s = .fault f)

/-- R210: the three ways the single-cycle engine stops before an instruction, in their order. That the stop at `END_PC`
is a step of its own is the model's reading (log 8). -/
def Obligations.SequentialStops : Prop :=
  ∀ s : State, s.run = .running → s.cfg.engine = .singleCycle →
    (s.pc = s.cfg.endPC → step s = .next { s with run := .halted }) ∧
    (s.pc ≠ s.cfg.endPC → s.cfg.memWords ≤ s.pc.toNat / 4 → step s = .fault (.outOfRange s.pc)) ∧
    (s.pc ≠ s.cfg.endPC → s.pc.toNat / 4 < s.cfg.memWords →
      ∀ why, decodeWord (fetchWord s.cfg s.mem s.pc) = .error why →
        step s = .fault (.unsupportedInstruction s.pc (fetchWord s.cfg s.mem s.pc)))

/-- R41, R212, R15: a halted machine stays as it is and a faulted one answers its fault again (the model's choice, log
10); the machine with its run state keeps, at a fault, every field but the run state (the model's own, log 11: R334
leaves that state open); no step is refused. -/
def Obligations.StoppedMachine : Prop :=
  (∀ s : State, s.run = .halted → step s = .next s) ∧
  (∀ (s : State) (f : Fault), s.run = .faulted f → step s = .fault f) ∧
  (∀ (s : State) (f : Fault), step s = .fault f → tick s = { s with run := .faulted f }) ∧
  (∀ (s : State) (r : Refusal), step s ≠ .refused r)

/-- R51, R331: with the default memory of `2^30` words, or more, no step of a running machine raises `OutOfRange`. -/
def Obligations.OutOfRangeImpossible : Prop :=
  ∀ (s : State) (a : Word), s.run = .running → 2 ^ 30 ≤ s.cfg.memWords → step s ≠ .fault (.outOfRange a)

/-- R3, R53, R350: no step changes the parameters of the run, and a cycle of the pipeline counts itself. -/
def Obligations.ParametersFixed : Prop :=
  ∀ s t : State, step s = .next t → t.cfg = s.cfg ∧
    (s.run = .running → s.cfg.engine = .pipelined → t.cycles = s.cycles + 1)

/-- R355, R357: a cycle of the pipeline leaves the machine halted exactly when it latched the instruction at `END_PC`
into `MEMWB`, and running otherwise; it stops in no other way. -/
def Obligations.HaltCheck : Prop :=
  ∀ s t : State, s.run = .running → s.cfg.engine = .pipelined → step s = .next t →
    ((t.memwb.lane1.empty = false ∧ t.memwb.lane1.pc = s.cfg.endPC) ∨
      (s.cfg.lanes = .two ∧ t.memwb.lane2.empty = false ∧ t.memwb.lane2.pc = s.cfg.endPC) → t.run = .halted) ∧
    (¬ ((t.memwb.lane1.empty = false ∧ t.memwb.lane1.pc = s.cfg.endPC) ∨
      (s.cfg.lanes = .two ∧ t.memwb.lane2.empty = false ∧ t.memwb.lane2.pc = s.cfg.endPC)) → t.run = .running)

/-! ### One cycle (spec/44_pipeline_engine.md, spec/48_dual_issue.md) -/

/-- R234, with R212 and R220: a cycle of the scalar engine in which no stage faults completes, and what each latch and
the PC hold at the start of the next cycle, by redirect, stall, or neither; and with self-consistent latches (R34) a
redirect and a stall never meet in one cycle. -/
def Obligations.ScalarLatchUpdate : Prop :=
  ∀ (s : State) (r : Retired) (y : MemWb) (mem : Memory) (x : Executed),
    s.run = .running → s.cfg.engine = .pipelined → s.cfg.lanes = .one →
    writebackLane s.cfg { regs := s.regs, committed := s.committed } s.memwb.lane1 = .ok r →
    memoryLane s.cfg s.mem s.exmem.lane1 = .ok (y, mem) →
    executeLane s.cfg s.predictor s.idex.lane1
      (forward .one s.exmem s.memwb s.idex.lane1.rs s.idex.lane1.rsVal)
      (forward .one s.exmem s.memwb s.idex.lane1.rt s.idex.lane1.rtVal) = .ok x →
    let d := decodeLane r.regs s.ifid.lane1
    let i := fetchWord s.cfg mem s.pc
    let p := s.cfg.predict && isBranch i && x.predictor.predictTaken s.cfg.h s.pc
    ∃ t, step s = .next t ∧ t.regs = r.regs ∧ t.committed = r.committed ∧ t.mem = mem ∧
      t.predictor = x.predictor ∧ t.cycles = s.cycles + 1 ∧ t.memwb.lane1 = y ∧ t.exmem.lane1 = x.latch ∧
      (∀ target, x.redirect = some target →
        t.idex.lane1 = IdEx.bubble ∧ t.ifid.lane1 = IfId.bubble ∧ t.pc = target) ∧
      (x.redirect = none → loadUse d s.idex.lane1 = true →
        t.idex.lane1 = IdEx.bubble ∧ t.ifid.lane1 = s.ifid.lane1 ∧ t.pc = s.pc) ∧
      (x.redirect = none → loadUse d s.idex.lane1 = false →
        t.idex.lane1 = d ∧ t.ifid.lane1 = { empty := false, instr := i, pc := s.pc, pred := p } ∧
        t.pc = if p then branchAddress s.pc (immOf i) else s.pc + 4#32) ∧
      (s.LatchesConsistent → x.redirect ≠ none → loadUse d s.idex.lane1 = false)

/-- R311, R312, with R310: the same for the dual-issue engine, by redirect, the stall of lane 1, the stall of lane 2
alone, or none of them, whether or not the cycle halts; a cycle with nothing at `END_PC` in the new `MEMWB`
completes. -/
def Obligations.DualLatchUpdate : Prop :=
  ∀ (s : State) (r : Retired) (y : Lanes MemWb) (mem : Memory) (x : ExecutedBoth),
    s.run = .running → s.cfg.engine = .pipelined → s.cfg.lanes = .two →
    writebackBoth s = .ok r → memoryBoth s = .ok (y, mem) → executeBoth s = .ok x →
    let d1 := decodeLane r.regs s.ifid.lane1
    let d2 := decodeLane r.regs s.ifid.lane2
    let stall1 := loadUse d1 s.idex.lane1 || loadUse d1 s.idex.lane2
    let interLane := !d1.empty && !d2.empty && d1.writesReg && d2.readsReg d1.dest
    let stall2 := loadUse d2 s.idex.lane1 || loadUse d2 s.idex.lane2 || interLane
    let i1 := fetchWord s.cfg mem s.pc
    let i2 := fetchWord s.cfg mem (s.pc + 4#32)
    let p1 := s.cfg.predict && isBranch i1 && x.predictor.predictTaken s.cfg.h s.pc
    let p2 := s.cfg.predict && isBranch i2 && x.predictor.predictTaken s.cfg.h (s.pc + 4#32)
    ((y.lane1.empty = true ∨ y.lane1.pc ≠ s.cfg.endPC) → (y.lane2.empty = true ∨ y.lane2.pc ≠ s.cfg.endPC) →
      ∃ t, step s = .next t ∧ t.run = .running ∧ t.regs = r.regs ∧ t.committed = r.committed) ∧
    ∀ t, step s = .next t → t.mem = mem ∧ t.predictor = x.predictor ∧ t.cycles = s.cycles + 1 ∧ t.memwb = y ∧
      t.exmem = x.latches ∧
      (∀ target, x.redirect = some target →
        t.idex.Both (· = IdEx.bubble) ∧ t.ifid.Both (· = IfId.bubble) ∧ t.pc = target) ∧
      (x.redirect = none → stall1 = true → t.idex.Both (· = IdEx.bubble) ∧ t.ifid = s.ifid ∧ t.pc = s.pc) ∧
      (x.redirect = none → stall1 = false → stall2 = true →
        t.idex.lane1 = d1 ∧ t.idex.lane2 = IdEx.bubble ∧ t.ifid.lane1 = IfId.bubble ∧
        t.ifid.lane2 = s.ifid.lane2 ∧ t.pc = s.pc) ∧
      (x.redirect = none → stall1 = false → stall2 = false →
        t.idex.lane1 = d1 ∧ t.idex.lane2 = d2 ∧
        t.ifid.lane1 = { empty := false, instr := i1, pc := s.pc, pred := p1 } ∧
        (p1 = true → t.ifid.lane2 = IfId.bubble ∧ t.pc = branchAddress s.pc (immOf i1)) ∧
        (p1 = false → t.ifid.lane2 = { empty := false, instr := i2, pc := s.pc + 4#32, pred := p2 } ∧
          t.pc = if p2 then branchAddress (s.pc + 4#32) (immOf i2) else s.pc + 8#32))

/-- R232, R303, R63, R52: memory after a cycle of the pipeline, byte by byte: only the stores in `EXMEM` change it, lane
1's first and lane 2's over it. -/
def Obligations.MemoryAfterCycle : Prop :=
  ∀ (s t : State) (c : Nat), s.run = .running → s.cfg.engine = .pipelined → s.mem.wf = true →
    (s.cfg.lanes = .one → s.exmem.lane2.empty = true) → step s = .next t →
    t.mem.read c =
      if s.exmem.lane2.storesAt c then s.exmem.lane2.storedAt s.cfg.byteOrder c
      else if s.exmem.lane1.storesAt c then s.exmem.lane1.storedAt s.cfg.byteOrder c
      else s.mem.read c

/-- R303, R63, R53: lane 2's access is made over the memory in which the bytes lane 1 stores in the same cycle stand, so
that a load in lane 2, of whatever width, reads each of its bytes from lane 1's store where that covers it. -/
def Obligations.LoadSeesOlderLaneStore : Prop :=
  ∀ (s : State) (y : Lanes MemWb) (mem : Memory), s.mem.wf = true → memoryBoth s = .ok (y, mem) →
    let store := s.exmem.lane1
    let load := s.exmem.lane2
    let bo := s.cfg.byteOrder
    let byteAt := fun c => if store.storesAt c then store.storedAt bo c else s.mem.read c
    let b := fun k => byteAt (load.aluResult.toNat + k)
    let h := halfOfBytes bo (b 0) (b 1)
    (∃ mem1, mem1.wf = true ∧ (∀ c, mem1.read c = byteAt c) ∧ memoryLane s.cfg mem1 load = .ok (y.lane2, mem)) ∧
    (load.empty = false → load.ctrl.memRead = true →
      (load.ctrl.byte = true →
        y.lane2.memData = if load.ctrl.loadUnsigned then (b 0).setWidth 32 else (b 0).signExtend 32) ∧
      (load.ctrl.byte = false → load.ctrl.half = true →
        y.lane2.memData = if load.ctrl.loadUnsigned then h.setWidth 32 else h.signExtend 32) ∧
      (load.ctrl.byte = false → load.ctrl.half = false →
        y.lane2.memData = wordOfBytes bo (b 0) (b 1) (b 2) (b 3)))

/-- R230, R302, R318, R22: the registers and the commit counter after a cycle of the pipeline: what the instructions in
`MEMWB` write, lane 2 over lane 1, and, when the cycle halts on lane 2, what the drained instruction beside it
writes. -/
def Obligations.RegistersAfterCycle : Prop :=
  ∀ (s t : State), s.run = .running → s.cfg.engine = .pipelined →
    (s.cfg.lanes = .one → s.memwb.lane2 = MemWb.bubble) → step s = .next t →
    let drains := t.run = .halted ∧ ¬ (t.memwb.lane1.empty = false ∧ t.memwb.lane1.pc = s.cfg.endPC)
    let n := s.committed + occupied s.memwb.lane1.empty s.memwb.lane2.empty
    let x := fun r =>
      if s.memwb.lane2.writesTo r then s.memwb.lane2.wbValue
      else if s.memwb.lane1.writesTo r then s.memwb.lane1.wbValue
      else s.reg r
    (¬ drains → (∀ r, t.reg r = x r) ∧ t.committed = n) ∧
    (drains → (∀ r, t.reg r = if t.memwb.lane1.writesTo r then t.memwb.lane1.wbValue else x r) ∧
      t.committed = n + if t.memwb.lane1.empty then 0 else 1)

/-- R254, R255, R256, R269: a load-use stall holds the consumer in Decode for one cycle behind one bubble; on the next
cycle the consumer issues, and what the network then forwards for the load's register is the value the load read. -/
def Obligations.LoadUseStallOnce : Prop :=
  ∀ (s t u : State) (r : Retired), s.run = .running → s.cfg.engine = .pipelined → s.cfg.lanes = .one →
    s.LatchesConsistent →
    writebackLane s.cfg { regs := s.regs, committed := s.committed } s.memwb.lane1 = .ok r →
    loadUse (decodeLane r.regs s.ifid.lane1) s.idex.lane1 = true →
    step s = .next t → t.run = .running → step t = .next u →
    t.idex.lane1 = IdEx.bubble ∧ t.ifid.lane1 = s.ifid.lane1 ∧ t.pc = s.pc ∧
    t.exmem.lane1.empty = false ∧ t.exmem.lane1.instr = s.idex.lane1.instr ∧
    u.idex.lane1.empty = false ∧ u.idex.lane1.instr = s.ifid.lane1.instr ∧ u.exmem.lane1 = ExMem.bubble ∧
    u.memwb.lane1.instr = s.idex.lane1.instr ∧
    ∀ v, forward .one u.exmem u.memwb s.idex.lane1.dest v = u.memwb.lane1.memData

/-- R234, R252, R289: in the scalar engine a redirect and a stall never meet in one cycle. -/
def Obligations.RedirectExcludesStall : Prop :=
  ∀ (s : State) (d : IdEx) (x : Executed) (target : Word), s.LatchesConsistent →
    s.executeOn s.predictor s.idex.lane1 = .ok x → x.redirect = some target → loadUse d s.idex.lane1 = false

/-- R291, R294: after a redirect two cycles pass in which nothing enters `EXMEM`, and the next instruction to reach
`IDEX` is the one at the target: the flushed instructions never execute. -/
def Obligations.RedirectLosesTwoCycles : Prop :=
  ∀ (s t u v : State) (target : Word), s.run = .running → s.cfg.engine = .pipelined →
    ((s.cfg.lanes = .one ∧ ∃ x, s.executeOn s.predictor s.idex.lane1 = .ok x ∧ x.redirect = some target) ∨
      (s.cfg.lanes = .two ∧ ∃ x, executeBoth s = .ok x ∧ x.redirect = some target)) →
    step s = .next t → t.run = .running → step t = .next u → u.run = .running → step u = .next v →
    t.pc = target ∧ t.idex.Both (· = IdEx.bubble) ∧ t.ifid.Both (· = IfId.bubble) ∧
    u.exmem.lane1 = ExMem.bubble ∧ (u.cfg.lanes = .two → u.exmem.lane2 = ExMem.bubble) ∧
    u.ifid.lane1.empty = false ∧ u.ifid.lane1.pc = target ∧
    v.exmem.lane1 = ExMem.bubble ∧ (v.cfg.lanes = .two → v.exmem.lane2 = ExMem.bubble) ∧
    v.idex.lane1.empty = false ∧ v.idex.lane1.pc = target

/-- R290, with R286, R287 and R289: the redirect of each instruction on any operand values `a` and `b`, and what its
resolution does to the predictor. -/
def Obligations.RedirectTable : Prop :=
  (∀ (cfg : RunConfig) (p : Predictor) (a b : Word),
    executeLane cfg p IdEx.bubble a b = .ok { latch := ExMem.bubble, redirect := none, predictor := p }) ∧
  ∀ (cfg : RunConfig) (p : Predictor) (e : IdEx) (a b : Word), e.empty = false → e.Consistent cfg →
    let learn := fun taken => if cfg.predict then p.update cfg.h e.pc taken else p
    (∀ rs rt imm, decodeWord e.instr = .ok (.beq rs rt imm) →
      executePredictor cfg p e a b = learn (decide (a = b)) ∧
      executeRedirect e a b = .ok (
        if decide (a = b) = e.pred then none
        else if a = b then some (branchAddress e.pc imm) else some (e.pc + 4#32))) ∧
    (∀ rs rt imm, decodeWord e.instr = .ok (.bne rs rt imm) →
      executePredictor cfg p e a b = learn (decide (a ≠ b)) ∧
      executeRedirect e a b = .ok (
        if decide (a ≠ b) = e.pred then none
        else if a ≠ b then some (branchAddress e.pc imm) else some (e.pc + 4#32))) ∧
    (∀ index, (decodeWord e.instr = .ok (.j index) ∨ decodeWord e.instr = .ok (.jal index)) →
      executePredictor cfg p e a b = p ∧ executeRedirect e a b = .ok (some (jumpAddress e.pc index))) ∧
    (∀ rs, decodeWord e.instr = .ok (.jr rs) → executePredictor cfg p e a b = p ∧
      executeRedirect e a b = if a.toNat % 4 = 0 then .ok (some a) else .error (.misalignedTarget e.pc a)) ∧
    ((∀ i, decodeWord e.instr = .ok i → isTransfer i = false) →
      executePredictor cfg p e a b = p ∧ executeRedirect e a b = .ok none)

/-- R304: a redirect by lane 1 squashes lane 2, which raises nothing, updates nothing and does not go on, whatever it
holds; otherwise lane 2 executes with the predictor lane 1 left and operands from the same start-of-cycle latches. -/
def Obligations.LaneOneRedirectSquashesLaneTwo : Prop :=
  ∀ (s : State) (x1 : Executed), s.cfg.lanes = .two → s.executeOn s.predictor s.idex.lane1 = .ok x1 →
    (∀ target, x1.redirect = some target → executeBoth s =
      .ok { latches := { lane1 := x1.latch, lane2 := ExMem.bubble }, redirect := some target,
            predictor := x1.predictor }) ∧
    (∀ x2, x1.redirect = none →
      executeLane s.cfg x1.predictor s.idex.lane2
        (forward .two s.exmem s.memwb s.idex.lane2.rs s.idex.lane2.rsVal)
        (forward .two s.exmem s.memwb s.idex.lane2.rt s.idex.lane2.rtVal) = .ok x2 → executeBoth s =
      .ok { latches := { lane1 := x1.latch, lane2 := x2.latch }, redirect := x2.redirect, predictor := x2.predictor })

/-- R266, R267, R269, R270: every register an instruction in `IDEX` consumes is forwarded as the value it has once all
the older instructions in flight have retired. -/
def Obligations.ForwardedOperandsAreCurrent : Prop :=
  ∀ (s : State) (r : Retired) (y : Lanes MemWb) (mem : Memory), s.run = .running → s.cfg.engine = .pipelined →
    s.LanesOrdered → s.PipelineInv → writebackBoth s = .ok r → memoryBoth s = .ok (y, mem) →
    ∀ e, (e = s.idex.lane1 ∨ e = s.idex.lane2) → e.empty = false → ∀ q, e.readsReg q = true →
      (e.rs = q → forward s.cfg.lanes s.exmem s.memwb e.rs e.rsVal = (settledRegs r y).read q) ∧
      (e.rt = q → forward s.cfg.lanes s.exmem s.memwb e.rt e.rtVal = (settledRegs r y).read q)

/-- R272: excluding jumps from the forwarding sources changes no forwarded value: with an instruction in `IDEX` no latch
they would be found in holds one. -/
def Obligations.JumpExclusionHarmless : Prop :=
  ∀ (s : State), s.JumpsDrained → ∀ e, (e = s.idex.lane1 ∨ e = s.idex.lane2) → e.empty = false →
    (∀ m, (m = s.exmem.lane1 ∨ m = s.exmem.lane2) → ∀ r,
      m.forwards r = (m.writesReg && !m.ctrl.memRead && m.dest == r)) ∧
    (∀ w, (w = s.memwb.lane1 ∨ w = s.memwb.lane2) → ∀ r, w.forwards r = (w.writesReg && w.dest == r))

/-! ### The predictor (spec/47_branch_prediction.md) -/

/-- R296, with R281 and R287: one update moves one counter by at most one, up on taken and down on not taken, within 0
to 3, leaves every other counter alone, and shifts the outcome into the history. -/
def Obligations.CounterUpdate : Prop :=
  ∀ (h : Nat) (p : Predictor) (pc : Word) (taken : Bool), p.bht.length = 2 ^ h →
    let i := (p.ghr ^^^ pc.toNat / 4 % 2 ^ h) % 2 ^ h
    let q := p.update h pc taken
    (∀ j, (q.counter j).toNat ≤ 3) ∧ (∀ j, j ≠ i → q.counter j = p.counter j) ∧
    (taken = true → (q.counter i).toNat = min 3 ((p.counter i).toNat + 1)) ∧
    (taken = false → (q.counter i).toNat = (p.counter i).toNat - 1) ∧
    q.ghr = (2 * p.ghr + (if taken then 1 else 0)) % 2 ^ h ∧ q.bht.length = 2 ^ h

/-- R297: a branch that is always taken and is alone is mispredicted on its first `H + 2` resolutions and on none
after. -/
def Obligations.PredictorConverges : Prop :=
  ∀ (h : Nat) (pc : Word) (k : Nat), (trained h pc k).predictTaken h pc = decide (h + 2 ≤ k)

/-- R295, R39: the predictor's contents change no architectural result of a cycle: they decide only what is fetched
next. -/
def Obligations.PredictorNoninterference : Prop :=
  ∀ s s' : State, SameButPredictor s s' → s.run = .running → s.cfg.engine = .pipelined →
    (∀ f, step s = .fault f ↔ step s' = .fault f) ∧
    (∀ t, step s = .next t → ∃ t', step s' = .next t' ∧ t'.regs = t.regs ∧ t'.mem = t.mem ∧
      t'.committed = t.committed ∧ t'.cycles = t.cycles ∧ t'.run = t.run ∧ t'.idex = t.idex ∧ t'.exmem = t.exmem ∧
      t'.memwb = t.memwb)

/-! ### Invariants -/

/-- R31, R50 (log 1): every step keeps the memory canonical and inside its size. -/
def Obligations.MemoryCanonicalKept : Prop :=
  ∀ s t : State, step s = .next t → s.MemoryCanonical → t.MemoryCanonical

/-- R27: every step keeps the PC, and every latch's pc, a multiple of 4. -/
def Obligations.PcAlignedKept : Prop :=
  ∀ s t : State, step s = .next t → s.PcAligned → t.PcAligned

/-- R34: every step keeps every latch a self-consistent snapshot, or `EMPTY`. -/
def Obligations.LatchesConsistentKept : Prop :=
  ∀ s t : State, step s = .next t → s.LatchesConsistent → t.LatchesConsistent

/-- R301, R32: every step keeps the lane order. That lane 2 holds `EMPTY` with `LANES` = 1 is the model's choice
(log 17). -/
def Obligations.LanesOrderedKept : Prop :=
  ∀ s t : State, step s = .next t → s.LanesOrdered → t.LanesOrdered

/-- R37: every step keeps the predictor's shape. What stands there with `PREDICT` off is the model's choice (log 18). -/
def Obligations.PredictorShapedKept : Prop :=
  ∀ s t : State, step s = .next t → s.PredictorShaped → t.PredictorShaped

/-- R34, R252, R271, R272, R309: every step keeps what the correctness of stalls, forwarding and flushes rests on. -/
def Obligations.PipelineInvKept : Prop :=
  ∀ s t : State, step s = .next t → s.PipelineInv → t.PipelineInv

/-- R316, R363, R40: every step keeps the bound on what has been committed in so many cycles. -/
def Obligations.ThroughputBoundKept : Prop :=
  ∀ s t : State, step s = .next t → s.ThroughputBounded → t.ThroughputBounded

/-- R353: the invariants hold at the start of every run whose inputs meet the boot requirements, and at reset (the
reset parameters and contents are the model's choice, log 2, 4, 5). -/
def Obligations.InvariantsAtStart : Prop :=
  (∀ (cfg : RunConfig) (regs : RegFile) (mem : Memory), cfg.entryPC.toNat % 4 = 0 → mem.wf = true →
    (∀ c ∈ mem, c.1 < 4 * cfg.memWords) →
    let s := State.start cfg regs mem
    s.MemoryCanonical ∧ s.PcAligned ∧ s.LatchesConsistent ∧ s.LanesOrdered ∧ s.PredictorShaped ∧ s.PipelineInv ∧
      s.ThroughputBounded) ∧
  State.reset.MemoryCanonical ∧ State.reset.PcAligned ∧ State.reset.LatchesConsistent ∧ State.reset.LanesOrdered ∧
  State.reset.PredictorShaped ∧ State.reset.PipelineInv ∧ State.reset.ThroughputBounded

/-! ### The pipeline against the baseline -/

/-- R5, R225 to R235 against files 40 to 43: the word of an instruction taken alone through Decode, Execute, Memory and
Writeback does what the instruction's rule says, and faults when and as it faults. -/
def Obligations.DatapathAgreesWithRules : Prop :=
  ∀ (s : State) (w : Word) (i : Instr), decodeWord w = .ok i → s.pc.toNat / 4 < s.cfg.memWords →
    (∀ t, exec i s = .next t → datapathStep s w = .ok { t with committed := s.committed + 1 }) ∧
    (∀ f, exec i s = .fault f → datapathStep s w = .error f)

/-- R211, R212, R236 for one instruction: fetched into the empty scalar pipeline it has changed memory as its rule says
after four cycles, the registers after five, and the instruction right behind it is the one at the next address its
rule gives. -/
def Obligations.PipelineRunsInstruction : Prop :=
  ∀ (s t u v : State) (i : Instr), s.run = .running → s.cfg.engine = .pipelined → s.cfg.lanes = .one →
    s.ifid.lane1 = IfId.bubble → s.idex.lane1 = IdEx.bubble → s.exmem.lane1 = ExMem.bubble →
    s.memwb.lane1 = MemWb.bubble → s.pc.toNat / 4 < s.cfg.memWords → s.pc ≠ s.cfg.endPC →
    decodeWord (fetchWord s.cfg s.mem s.pc) = .ok i → exec i s = .next t → Reaches s 4 u → Reaches u 1 v →
    u.mem = t.mem ∧ u.regs = s.regs ∧ u.committed = s.committed ∧ u.memwb.lane1.empty = false ∧
    u.memwb.lane1.pc = s.pc ∧ v.regs = t.regs ∧ v.committed = s.committed + 1 ∧
    (u.exmem.lane1.empty = false → u.exmem.lane1.pc = t.pc) ∧
    (u.exmem.lane1.empty = true → u.idex.lane1.empty = false → u.idex.lane1.pc = t.pc) ∧
    (u.exmem.lane1.empty = true → u.idex.lane1.empty = true → u.ifid.lane1.empty = false ∧ u.ifid.lane1.pc = t.pc)

/-- R316, R363, R237: `n` NOPs take `n + 4` cycles on the scalar engine and `n / 2 + 4` on the dual-issue engine, for
every predictor. Memory that holds nothing reads as zero by the model's choice (log 2). -/
def Obligations.StraightLineCycles : Prop :=
  ∀ (cfg : RunConfig) (regs : RegFile) (n : Nat), 4 * n < 2 ^ 32 → n ≤ cfg.memWords → cfg.entryPC = 0#32 →
    cfg.endPC = BitVec.ofNat 32 (4 * n) →
    let k := match cfg.lanes with
      | .one => n + 4
      | .two => n / 2 + 4
    ∃ t, Reaches (pipeline cfg regs []) k t ∧ t.run = .halted ∧ t.cycles = k ∧ t.committed = n ∧ t.mem = [] ∧
      ∀ r, t.reg r = if r = 0#5 then 0#32 else regs.read r

/-- R236: for every variant, when the baseline reaches `END_PC` after `n` instructions and the boot requirements of
R360 hold, the pipeline halts with the baseline's registers and memory and `committed = n`. That the words at `END_PC`
stay NOPs during the run is the model's reading of R360 (log 24). -/
def Obligations.PipelineEqualsBaseline : Prop :=
  ∀ (cfg : RunConfig) (regs : RegFile) (mem : Memory) (n : Nat) (t : State), BootRequirements cfg regs mem n t →
    ∃ k u, Reaches (pipeline cfg regs mem) k u ∧ u.run = .halted ∧ u.regs = t.regs ∧ u.mem = t.mem ∧ u.committed = n

end Statements
end

