-- ==== Sys2Proof/Laws/State.lean ====
section
/-! SUPPORT. One lemma per field per update of State, each true by rfl. -/

namespace Sys2Proof.Machine

variable (s : State)

/-! ### `State.setReg` -/

@[simp] theorem State.setReg_regs (r : Reg) (v : Word) : (s.setReg r v).regs = s.regs.write r v := rfl
@[simp] theorem State.setReg_pc (r : Reg) (v : Word) : (s.setReg r v).pc = s.pc := rfl
@[simp] theorem State.setReg_mem (r : Reg) (v : Word) : (s.setReg r v).mem = s.mem := rfl
@[simp] theorem State.setReg_ifid (r : Reg) (v : Word) : (s.setReg r v).ifid = s.ifid := rfl
@[simp] theorem State.setReg_idex (r : Reg) (v : Word) : (s.setReg r v).idex = s.idex := rfl
@[simp] theorem State.setReg_exmem (r : Reg) (v : Word) : (s.setReg r v).exmem = s.exmem := rfl
@[simp] theorem State.setReg_memwb (r : Reg) (v : Word) : (s.setReg r v).memwb = s.memwb := rfl
@[simp] theorem State.setReg_predictor (r : Reg) (v : Word) : (s.setReg r v).predictor = s.predictor := rfl
@[simp] theorem State.setReg_cycles (r : Reg) (v : Word) : (s.setReg r v).cycles = s.cycles := rfl
@[simp] theorem State.setReg_committed (r : Reg) (v : Word) : (s.setReg r v).committed = s.committed := rfl
@[simp] theorem State.setReg_run (r : Reg) (v : Word) : (s.setReg r v).run = s.run := rfl
@[simp] theorem State.setReg_cfg (r : Reg) (v : Word) : (s.setReg r v).cfg = s.cfg := rfl

/-! ### `State.jumpTo` -/

@[simp] theorem State.jumpTo_regs (target : Word) : (s.jumpTo target).regs = s.regs := rfl
@[simp] theorem State.jumpTo_pc (target : Word) : (s.jumpTo target).pc = target := rfl
@[simp] theorem State.jumpTo_mem (target : Word) : (s.jumpTo target).mem = s.mem := rfl
@[simp] theorem State.jumpTo_ifid (target : Word) : (s.jumpTo target).ifid = s.ifid := rfl
@[simp] theorem State.jumpTo_idex (target : Word) : (s.jumpTo target).idex = s.idex := rfl
@[simp] theorem State.jumpTo_exmem (target : Word) : (s.jumpTo target).exmem = s.exmem := rfl
@[simp] theorem State.jumpTo_memwb (target : Word) : (s.jumpTo target).memwb = s.memwb := rfl
@[simp] theorem State.jumpTo_predictor (target : Word) : (s.jumpTo target).predictor = s.predictor := rfl
@[simp] theorem State.jumpTo_cycles (target : Word) : (s.jumpTo target).cycles = s.cycles := rfl
@[simp] theorem State.jumpTo_committed (target : Word) : (s.jumpTo target).committed = s.committed := rfl
@[simp] theorem State.jumpTo_run (target : Word) : (s.jumpTo target).run = s.run := rfl
@[simp] theorem State.jumpTo_cfg (target : Word) : (s.jumpTo target).cfg = s.cfg := rfl

/-! ### `State.advance` -/

@[simp] theorem State.advance_regs : s.advance.regs = s.regs := rfl
@[simp] theorem State.advance_pc : s.advance.pc = nextPc s.pc := rfl
@[simp] theorem State.advance_mem : s.advance.mem = s.mem := rfl
@[simp] theorem State.advance_ifid : s.advance.ifid = s.ifid := rfl
@[simp] theorem State.advance_idex : s.advance.idex = s.idex := rfl
@[simp] theorem State.advance_exmem : s.advance.exmem = s.exmem := rfl
@[simp] theorem State.advance_memwb : s.advance.memwb = s.memwb := rfl
@[simp] theorem State.advance_predictor : s.advance.predictor = s.predictor := rfl
@[simp] theorem State.advance_cycles : s.advance.cycles = s.cycles := rfl
@[simp] theorem State.advance_committed : s.advance.committed = s.committed := rfl
@[simp] theorem State.advance_run : s.advance.run = s.run := rfl
@[simp] theorem State.advance_cfg : s.advance.cfg = s.cfg := rfl

/-! ### `State.setMem` -/

@[simp] theorem State.setMem_regs (m : Memory) : (s.setMem m).regs = s.regs := rfl
@[simp] theorem State.setMem_pc (m : Memory) : (s.setMem m).pc = s.pc := rfl
@[simp] theorem State.setMem_mem (m : Memory) : (s.setMem m).mem = m := rfl
@[simp] theorem State.setMem_ifid (m : Memory) : (s.setMem m).ifid = s.ifid := rfl
@[simp] theorem State.setMem_idex (m : Memory) : (s.setMem m).idex = s.idex := rfl
@[simp] theorem State.setMem_exmem (m : Memory) : (s.setMem m).exmem = s.exmem := rfl
@[simp] theorem State.setMem_memwb (m : Memory) : (s.setMem m).memwb = s.memwb := rfl
@[simp] theorem State.setMem_predictor (m : Memory) : (s.setMem m).predictor = s.predictor := rfl
@[simp] theorem State.setMem_cycles (m : Memory) : (s.setMem m).cycles = s.cycles := rfl
@[simp] theorem State.setMem_committed (m : Memory) : (s.setMem m).committed = s.committed := rfl
@[simp] theorem State.setMem_run (m : Memory) : (s.setMem m).run = s.run := rfl
@[simp] theorem State.setMem_cfg (m : Memory) : (s.setMem m).cfg = s.cfg := rfl

/-! ### `State.raise` -/

@[simp] theorem State.raise_regs (f : Fault) : (s.raise f).regs = s.regs := rfl
@[simp] theorem State.raise_pc (f : Fault) : (s.raise f).pc = s.pc := rfl
@[simp] theorem State.raise_mem (f : Fault) : (s.raise f).mem = s.mem := rfl
@[simp] theorem State.raise_ifid (f : Fault) : (s.raise f).ifid = s.ifid := rfl
@[simp] theorem State.raise_idex (f : Fault) : (s.raise f).idex = s.idex := rfl
@[simp] theorem State.raise_exmem (f : Fault) : (s.raise f).exmem = s.exmem := rfl
@[simp] theorem State.raise_memwb (f : Fault) : (s.raise f).memwb = s.memwb := rfl
@[simp] theorem State.raise_predictor (f : Fault) : (s.raise f).predictor = s.predictor := rfl
@[simp] theorem State.raise_cycles (f : Fault) : (s.raise f).cycles = s.cycles := rfl
@[simp] theorem State.raise_committed (f : Fault) : (s.raise f).committed = s.committed := rfl
@[simp] theorem State.raise_run (f : Fault) : (s.raise f).run = .faulted f := rfl
@[simp] theorem State.raise_cfg (f : Fault) : (s.raise f).cfg = s.cfg := rfl

/-! ### `State.halt` -/

@[simp] theorem State.halt_regs : s.halt.regs = s.regs := rfl
@[simp] theorem State.halt_pc : s.halt.pc = s.pc := rfl
@[simp] theorem State.halt_mem : s.halt.mem = s.mem := rfl
@[simp] theorem State.halt_ifid : s.halt.ifid = s.ifid := rfl
@[simp] theorem State.halt_idex : s.halt.idex = s.idex := rfl
@[simp] theorem State.halt_exmem : s.halt.exmem = s.exmem := rfl
@[simp] theorem State.halt_memwb : s.halt.memwb = s.memwb := rfl
@[simp] theorem State.halt_predictor : s.halt.predictor = s.predictor := rfl
@[simp] theorem State.halt_cycles : s.halt.cycles = s.cycles := rfl
@[simp] theorem State.halt_committed : s.halt.committed = s.committed := rfl
@[simp] theorem State.halt_run : s.halt.run = .halted := rfl
@[simp] theorem State.halt_cfg : s.halt.cfg = s.cfg := rfl

/-! ### `State.countStep` -/

@[simp] theorem State.countStep_regs : s.countStep.regs = s.regs := rfl
@[simp] theorem State.countStep_pc : s.countStep.pc = s.pc := rfl
@[simp] theorem State.countStep_mem : s.countStep.mem = s.mem := rfl
@[simp] theorem State.countStep_ifid : s.countStep.ifid = s.ifid := rfl
@[simp] theorem State.countStep_idex : s.countStep.idex = s.idex := rfl
@[simp] theorem State.countStep_exmem : s.countStep.exmem = s.exmem := rfl
@[simp] theorem State.countStep_memwb : s.countStep.memwb = s.memwb := rfl
@[simp] theorem State.countStep_predictor : s.countStep.predictor = s.predictor := rfl
@[simp] theorem State.countStep_cycles : s.countStep.cycles = s.cycles + 1 := rfl
@[simp] theorem State.countStep_committed : s.countStep.committed = s.committed + 1 := rfl
@[simp] theorem State.countStep_run : s.countStep.run = s.run := rfl
@[simp] theorem State.countStep_cfg : s.countStep.cfg = s.cfg := rfl

end Sys2Proof.Machine
end

