-- ==== Sys2Proof/Laws/Memory.lean ====
section
/-! SUPPORT. The memory: reading after writing, and the canonical form (spec/20_memory.md R50 to R59). -/

namespace Sys2Proof.Machine

/-! ### Bytes and words -/

set_option linter.unusedSimpArgs false

@[simp] theorem byteOfWord_wordOfBytes_0 (bo : ByteOrder) (b0 b1 b2 b3 : Byte) :
    byteOfWord bo (wordOfBytes bo b0 b1 b2 b3) 0 = b0 := by
  ext i hi; cases bo <;> simp [byteOfWord, wordOfBytes, bsh, BitVec.getElem_append, BitVec.getLsbD_append] <;> grind

@[simp] theorem byteOfWord_wordOfBytes_1 (bo : ByteOrder) (b0 b1 b2 b3 : Byte) :
    byteOfWord bo (wordOfBytes bo b0 b1 b2 b3) 1 = b1 := by
  ext i hi; cases bo <;> simp [byteOfWord, wordOfBytes, bsh, BitVec.getElem_append, BitVec.getLsbD_append] <;> grind

@[simp] theorem byteOfWord_wordOfBytes_2 (bo : ByteOrder) (b0 b1 b2 b3 : Byte) :
    byteOfWord bo (wordOfBytes bo b0 b1 b2 b3) 2 = b2 := by
  ext i hi; cases bo <;> simp [byteOfWord, wordOfBytes, bsh, BitVec.getElem_append, BitVec.getLsbD_append] <;> grind

@[simp] theorem byteOfWord_wordOfBytes_3 (bo : ByteOrder) (b0 b1 b2 b3 : Byte) :
    byteOfWord bo (wordOfBytes bo b0 b1 b2 b3) 3 = b3 := by
  ext i hi; cases bo <;> simp [byteOfWord, wordOfBytes, bsh, BitVec.getElem_append, BitVec.getLsbD_append] <;> grind

/-- A word is made of its four bytes. -/
@[simp] theorem wordOfBytes_byteOfWord (bo : ByteOrder) (w : Word) :
    wordOfBytes bo (byteOfWord bo w 0) (byteOfWord bo w 1) (byteOfWord bo w 2) (byteOfWord bo w 3) = w := by
  ext i hi
  cases bo <;> simp [byteOfWord, wordOfBytes, bsh, BitVec.getElem_append] <;> grind

theorem word_ext_bytes (bo : ByteOrder) {v w : Word} (h0 : byteOfWord bo v 0 = byteOfWord bo w 0)
    (h1 : byteOfWord bo v 1 = byteOfWord bo w 1) (h2 : byteOfWord bo v 2 = byteOfWord bo w 2)
    (h3 : byteOfWord bo v 3 = byteOfWord bo w 3) : v = w := by
  rw [← wordOfBytes_byteOfWord bo v, ← wordOfBytes_byteOfWord bo w, h0, h1, h2, h3]

/-! ### One byte -/

@[simp] theorem Memory.read_nil (a : Nat) : Memory.read [] a = Config.freshByte := rfl

theorem Memory.read_cons (b : Nat) (v : Byte) (m : Memory) (a : Nat) :
    Memory.read ((b, v) :: m) a = if a = b then v else Memory.read m a := rfl

theorem Memory.wfFrom_mono {lo lo' : Nat} (h : lo' ≤ lo) : ∀ {m : Memory}, m.wfFrom lo = true → m.wfFrom lo' = true
  | [], _ => rfl
  | (b, v) :: m, hm => by
    simp only [Memory.wfFrom, Bool.and_eq_true, decide_eq_true_eq] at hm ⊢
    exact ⟨⟨by omega, hm.1.2⟩, hm.2⟩

theorem Memory.wf_of_wfFrom {lo : Nat} : ∀ {m : Memory}, m.wfFrom lo = true → m.wf = true
  | [], _ => rfl
  | (b, v) :: m, hm => by
    simp only [Memory.wfFrom, Memory.wf, Bool.and_eq_true, decide_eq_true_eq] at hm ⊢
    exact ⟨hm.1.2, hm.2⟩

/-- Below its first address a canonical memory reads as fresh. -/
theorem Memory.read_below {lo a : Nat} (h : a ≤ lo) : ∀ {m : Memory}, m.wfFrom lo = true → m.read a = Config.freshByte
  | [], _ => rfl
  | (b, v) :: m, hm => by
    simp only [Memory.wfFrom, Bool.and_eq_true, decide_eq_true_eq] at hm
    rw [Memory.read_cons, if_neg (by omega)]
    exact Memory.read_below (by omega) hm.2

theorem Memory.read_write_ne {a c : Nat} (h : c ≠ a) (v : Byte) : ∀ m : Memory, (m.write a v).read c = m.read c
  | [] => by
    unfold Memory.write
    split
    · rfl
    · rw [Memory.read_cons, if_neg h]
  | (b, w) :: m => by
    unfold Memory.write
    split
    · split
      · rfl
      · rw [Memory.read_cons, if_neg h]
    · split
      · rename_i hab
        subst hab
        split
        · rw [Memory.read_cons, if_neg h]
        · rw [Memory.read_cons, Memory.read_cons, if_neg h, if_neg h]
      · rw [Memory.read_cons, Memory.read_cons, Memory.read_write_ne h v m]

theorem Memory.read_write_same_from {lo a : Nat} (v : Byte) :
    ∀ {m : Memory}, m.wfFrom lo = true → (m.write a v).read a = v
  | [], _ => by
    unfold Memory.write
    split
    · rename_i h; rw [Memory.read_nil, h]
    · rw [Memory.read_cons, if_pos rfl]
  | (b, w) :: m, hm => by
    have hm' := hm
    simp only [Memory.wfFrom, Bool.and_eq_true, decide_eq_true_eq] at hm'
    unfold Memory.write
    split
    · rename_i hab
      split
      · rename_i hv
        rw [Memory.read_cons, if_neg (by omega), hv]
        exact Memory.read_below (by omega) hm'.2
      · rw [Memory.read_cons, if_pos rfl]
    · split
      · rename_i hab
        subst hab
        split
        · rename_i hv
          rw [hv]
          exact Memory.read_below (Nat.le_refl _) hm'.2
        · rw [Memory.read_cons, if_pos rfl]
      · rename_i hne
        rw [Memory.read_cons, if_neg hne]
        exact Memory.read_write_same_from v hm'.2

theorem Memory.wf_cons_from {b : Nat} {v : Byte} {m : Memory} (h : Memory.wf ((b, v) :: m) = true) :
    v ≠ Config.freshByte ∧ m.wfFrom b = true := by
  simpa only [Memory.wf, Bool.and_eq_true, decide_eq_true_eq] using h

theorem Memory.read_write_same {m : Memory} (hm : m.wf = true) (a : Nat) (v : Byte) : (m.write a v).read a = v := by
  match m, hm with
  | [], _ => exact Memory.read_write_same_from (lo := 0) v rfl
  | (b, w) :: m, hm =>
    obtain ⟨hw, hf⟩ := Memory.wf_cons_from hm
    unfold Memory.write
    split
    · rename_i hab
      split
      · rename_i hv
        rw [Memory.read_cons, if_neg (by omega), hv]
        exact Memory.read_below (by omega) hf
      · rw [Memory.read_cons, if_pos rfl]
    · split
      · rename_i hab
        subst hab
        split
        · rename_i hv
          rw [hv]
          exact Memory.read_below (Nat.le_refl _) hf
        · rw [Memory.read_cons, if_pos rfl]
      · rename_i hne
        rw [Memory.read_cons, if_neg hne]
        exact Memory.read_write_same_from v hf

/-- A byte write, read back at any address: the one fact about both operations on a canonical memory. -/
theorem Memory.read_write {m : Memory} (hm : m.wf = true) (a c : Nat) (v : Byte) :
    (m.write a v).read c = if c = a then v else m.read c := by
  split
  · rename_i h; subst h; exact Memory.read_write_same hm c v
  · rename_i h; exact Memory.read_write_ne h v m

theorem Memory.write_wfFrom {lo a : Nat} (ha : lo < a) (v : Byte) :
    ∀ {m : Memory}, m.wfFrom lo = true → (m.write a v).wfFrom lo = true
  | [], _ => by
    unfold Memory.write
    split
    · rfl
    · rename_i hv; simp [Memory.wfFrom, ha, hv]
  | (b, w) :: m, hm => by
    have hm' := hm
    simp only [Memory.wfFrom, Bool.and_eq_true, decide_eq_true_eq] at hm'
    unfold Memory.write
    split
    · rename_i hab
      split
      · exact hm
      · rename_i hv
        simp only [Memory.wfFrom, Bool.and_eq_true, decide_eq_true_eq]
        exact ⟨⟨ha, hv⟩, ⟨hab, hm'.1.2⟩, hm'.2⟩
    · split
      · rename_i hab
        subst hab
        split
        · exact Memory.wfFrom_mono (by omega) hm'.2
        · rename_i hv
          simp only [Memory.wfFrom, Bool.and_eq_true, decide_eq_true_eq]
          exact ⟨⟨ha, hv⟩, hm'.2⟩
      · rename_i h1 h2
        simp only [Memory.wfFrom, Bool.and_eq_true, decide_eq_true_eq]
        exact ⟨hm'.1, Memory.write_wfFrom (by omega) v hm'.2⟩

/-- A byte write keeps the canonical form. -/
theorem Memory.write_wf {m : Memory} (hm : m.wf = true) (a : Nat) (v : Byte) : (m.write a v).wf = true := by
  match m, hm with
  | [], _ =>
    unfold Memory.write
    split
    · rfl
    · rename_i hv; simp [Memory.wf, Memory.wfFrom, hv]
  | (b, w) :: m, hm =>
    obtain ⟨hw, hf⟩ := Memory.wf_cons_from hm
    unfold Memory.write
    split
    · rename_i hab
      split
      · exact hm
      · rename_i hv
        simp only [Memory.wf, Memory.wfFrom, Bool.and_eq_true, decide_eq_true_eq]
        exact ⟨hv, ⟨hab, hw⟩, hf⟩
    · split
      · rename_i hab
        subst hab
        split
        · exact Memory.wf_of_wfFrom hf
        · rename_i hv
          simp only [Memory.wf, Bool.and_eq_true, decide_eq_true_eq]
          exact ⟨hv, hf⟩
      · simp only [Memory.wf, Bool.and_eq_true, decide_eq_true_eq]
        exact ⟨hw, Memory.write_wfFrom (by omega) v hf⟩

theorem Memory.ext_from {lo : Nat} : ∀ {m n : Memory}, m.wfFrom lo = true → n.wfFrom lo = true →
    (∀ a, m.read a = n.read a) → m = n
  | [], [], _, _, _ => rfl
  | [], (b, v) :: n, _, hn, h => by
    simp only [Memory.wfFrom, Bool.and_eq_true, decide_eq_true_eq] at hn
    have := h b
    rw [Memory.read_nil, Memory.read_cons, if_pos rfl] at this
    exact absurd this.symm hn.1.2
  | (b, v) :: m, [], hm, _, h => by
    simp only [Memory.wfFrom, Bool.and_eq_true, decide_eq_true_eq] at hm
    have := h b
    rw [Memory.read_nil, Memory.read_cons, if_pos rfl] at this
    exact absurd this hm.1.2
  | (b, v) :: m, (c, w) :: n, hm, hn, h => by
    have hm' := hm
    have hn' := hn
    simp only [Memory.wfFrom, Bool.and_eq_true, decide_eq_true_eq] at hm' hn'
    have key : b = c := by
      rcases Nat.lt_trichotomy b c with hlt | heq | hgt
      · have := h b
        rw [Memory.read_cons, if_pos rfl, Memory.read_cons, if_neg (by omega),
          Memory.read_below (by omega) hn'.2] at this
        exact absurd this hm'.1.2
      · exact heq
      · have := h c
        rw [Memory.read_cons, if_neg (by omega), Memory.read_cons, if_pos rfl,
          Memory.read_below (by omega) hm'.2] at this
        exact absurd this.symm hn'.1.2
    subst key
    have hv : v = w := by
      have := h b
      rwa [Memory.read_cons, Memory.read_cons, if_pos rfl, if_pos rfl] at this
    subst hv
    have : m = n := Memory.ext_from hm'.2 hn'.2 fun a => by
      by_cases hab : a ≤ b
      · rw [Memory.read_below hab hm'.2, Memory.read_below hab hn'.2]
      · have := h a
        rwa [Memory.read_cons, Memory.read_cons, if_neg (by omega), if_neg (by omega)] at this
    rw [this]

/-- Two canonical memories that read the same everywhere are the same data. -/
theorem Memory.ext {m n : Memory} (hm : m.wf = true) (hn : n.wf = true) (h : ∀ a, m.read a = n.read a) : m = n := by
  match m, n, hm, hn with
  | [], [], _, _ => rfl
  | [], (b, v) :: n, _, hn =>
    have := h b
    rw [Memory.read_nil, Memory.read_cons, if_pos rfl] at this
    exact absurd this.symm (Memory.wf_cons_from hn).1
  | (b, v) :: m, [], hm, _ =>
    have := h b
    rw [Memory.read_nil, Memory.read_cons, if_pos rfl] at this
    exact absurd this (Memory.wf_cons_from hm).1
  | (b, v) :: m, (c, w) :: n, hm, hn =>
    obtain ⟨hv, hm'⟩ := Memory.wf_cons_from hm
    obtain ⟨hw, hn'⟩ := Memory.wf_cons_from hn
    have key : b = c := by
      rcases Nat.lt_trichotomy b c with hlt | heq | hgt
      · have := h b
        rw [Memory.read_cons, if_pos rfl, Memory.read_cons, if_neg (by omega),
          Memory.read_below (by omega) hn'] at this
        exact absurd this hv
      · exact heq
      · have := h c
        rw [Memory.read_cons, if_neg (by omega), Memory.read_cons, if_pos rfl,
          Memory.read_below (by omega) hm'] at this
        exact absurd this.symm hw
    subst key
    have hvw : v = w := by
      have := h b
      rwa [Memory.read_cons, Memory.read_cons, if_pos rfl, if_pos rfl] at this
    subst hvw
    have : m = n := Memory.ext_from hm' hn' fun a => by
      by_cases hab : a ≤ b
      · rw [Memory.read_below hab hm', Memory.read_below hab hn']
      · have := h a
        rwa [Memory.read_cons, Memory.read_cons, if_neg (by omega), if_neg (by omega)] at this
    rw [this]

/-- Writing the byte already there changes nothing (R59). -/
theorem Memory.write_read_self {m : Memory} (hm : m.wf = true) (a : Nat) : m.write a (m.read a) = m :=
  Memory.ext (Memory.write_wf hm a _) hm fun c => by
    rw [Memory.read_write hm]; split
    · rename_i h; rw [h]
    · rfl

/-! ### One word -/

theorem Memory.setWord_wf {m : Memory} (hm : m.wf = true) (bo : ByteOrder) (k : Nat) (w : Word) :
    (m.setWord bo k w).wf = true :=
  Memory.write_wf (Memory.write_wf (Memory.write_wf (Memory.write_wf hm _ _) _ _) _ _) _ _

/-- A word write leaves every byte outside its four addresses as it was. -/
theorem Memory.read_setWord_outside (m : Memory) (bo : ByteOrder) {k a : Nat} (h : a / 4 ≠ k) (w : Word) :
    (m.setWord bo k w).read a = m.read a := by
  unfold Memory.setWord
  rw [Memory.read_write_ne (by omega), Memory.read_write_ne (by omega), Memory.read_write_ne (by omega),
    Memory.read_write_ne (by omega)]

/-- The byte at offset `o` of a word just written. -/
theorem Memory.read_setWord_inside {m : Memory} (hm : m.wf = true) (bo : ByteOrder) (k : Nat) (w : Word) {o : Nat}
    (ho : o < 4) : (m.setWord bo k w).read (4 * k + o) = byteOfWord bo w o := by
  unfold Memory.setWord
  have h1 := Memory.write_wf hm (4 * k) (byteOfWord bo w 0)
  have h2 := Memory.write_wf h1 (4 * k + 1) (byteOfWord bo w 1)
  have h3 := Memory.write_wf h2 (4 * k + 2) (byteOfWord bo w 2)
  rw [Memory.read_write h3, Memory.read_write h2, Memory.read_write h1, Memory.read_write hm]
  have : o = 0 ∨ o = 1 ∨ o = 2 ∨ o = 3 := by omega
  rcases this with rfl | rfl | rfl | rfl <;> simp

theorem Memory.word_setWord_ne (m : Memory) (bo : ByteOrder) {j k : Nat} (h : j ≠ k) (w : Word) :
    (m.setWord bo k w).word bo j = m.word bo j := by
  unfold Memory.word
  rw [Memory.read_setWord_outside m bo (by omega), Memory.read_setWord_outside m bo (by omega),
    Memory.read_setWord_outside m bo (by omega), Memory.read_setWord_outside m bo (by omega)]

theorem Memory.word_setWord_same {m : Memory} (hm : m.wf = true) (bo : ByteOrder) (k : Nat) (w : Word) :
    (m.setWord bo k w).word bo k = w := by
  unfold Memory.word
  have h0 := Memory.read_setWord_inside hm bo k w (o := 0) (by omega)
  rw [Nat.add_zero] at h0
  rw [h0, Memory.read_setWord_inside hm bo k w (o := 1) (by omega),
    Memory.read_setWord_inside hm bo k w (o := 2) (by omega), Memory.read_setWord_inside hm bo k w (o := 3) (by omega),
    wordOfBytes_byteOfWord]

/-- A word write, read back at any word (R59: a read returns the last value written). -/
theorem Memory.word_setWord {m : Memory} (hm : m.wf = true) (bo : ByteOrder) (j k : Nat) (w : Word) :
    (m.setWord bo k w).word bo j = if j = k then w else m.word bo j := by
  split
  · rename_i h; subst h; exact Memory.word_setWord_same hm bo j w
  · rename_i h; exact Memory.word_setWord_ne m bo h w

/-- The byte of `MemWord[k]` with offset `o` is the byte at address `4k + o` (R53). -/
theorem Memory.byteOfWord_word (m : Memory) (bo : ByteOrder) (k : Nat) {o : Nat} (ho : o < 4) :
    byteOfWord bo (m.word bo k) o = m.read (4 * k + o) := by
  have : o = 0 ∨ o = 1 ∨ o = 2 ∨ o = 3 := by omega
  rcases this with rfl | rfl | rfl | rfl <;> simp [Memory.word]

/-- Writing back the word already there changes nothing (R59). -/
theorem Memory.setWord_word_self {m : Memory} (hm : m.wf = true) (bo : ByteOrder) (k : Nat) :
    m.setWord bo k (m.word bo k) = m :=
  Memory.ext (Memory.setWord_wf hm bo k _) hm fun a => by
    by_cases h : a / 4 = k
    · have ha : a = 4 * k + a % 4 := by omega
      rw [ha, Memory.read_setWord_inside hm bo k _ (Nat.mod_lt a (by omega)),
        Memory.byteOfWord_word m bo k (Nat.mod_lt a (by omega))]
    · exact Memory.read_setWord_outside m bo h _

@[simp] theorem Memory.access_read (bo : ByteOrder) (m : Memory) (a v : Word) :
    m.access bo a v true false = (m.word bo (wordIndex a), m) := rfl

@[simp] theorem Memory.access_write (bo : ByteOrder) (m : Memory) (a v : Word) :
    m.access bo a v false true = (0#32, m.setWord bo (wordIndex a) v) := rfl

theorem Memory.ofWordsFrom_wf (bo : ByteOrder) : ∀ (k : Nat) (ws : List Word), (Memory.ofWordsFrom bo k ws).wf = true
  | _, []      => rfl
  | k, w :: ws => Memory.setWord_wf (Memory.ofWordsFrom_wf bo (k + 1) ws) bo k w

/-- The loader's memory is canonical. -/
theorem Memory.ofWords_wf (bo : ByteOrder) (ws : List Word) : (Memory.ofWords bo ws).wf = true :=
  Memory.ofWordsFrom_wf bo 0 ws

end Sys2Proof.Machine
end

