-- ==== Sys2Proof/Laws/Access.lean ====
section
/-! SUPPORT. What `MemRead` and `MemWrite` answer and leave unchanged (spec/20_memory.md R53 to R57). -/

namespace Sys2Proof.Machine

set_option linter.unusedSimpArgs false

/-! ### The checks -/

theorem checkAccess_ok_iff {cfg : RunConfig} {a : Word} {n : Width} :
    checkAccess cfg a n = .ok () ↔ alignedFor a n = true ∧ wordIndex a < cfg.memWords := by
  unfold checkAccess
  cases alignedFor a n <;> simp

theorem checkAccess_misaligned {cfg : RunConfig} {a : Word} {n : Width} (h : alignedFor a n = false) :
    checkAccess cfg a n = .error (.misalignedData a n.bytes) := by simp [checkAccess, h]

theorem checkAccess_outOfRange {cfg : RunConfig} {a : Word} {n : Width} (h : alignedFor a n = true)
    (hr : cfg.memWords ≤ wordIndex a) : checkAccess cfg a n = .error (.outOfRange a) := by simp [checkAccess, h, hr]

/-- The low two bits of an address are its byte offset. -/
theorem aligned4_iff (a : Word) : aligned4 a = true ↔ byteOffset a = 0 := by
  unfold aligned4 byteOffset
  rw [beq_iff_eq, ← BitVec.toNat_inj]
  simp

theorem aligned2_iff (a : Word) : aligned2 a = true ↔ byteOffset a % 2 = 0 := by
  unfold aligned2 byteOffset
  rw [beq_iff_eq, ← BitVec.toNat_inj]
  simp

theorem byteOffset_lt (a : Word) : byteOffset a < 4 := Nat.mod_lt _ (by omega)

/-- An address is four times its word index plus its byte offset. -/
theorem toNat_eq_index_offset (a : Word) : a.toNat = 4 * wordIndex a + byteOffset a := by
  unfold wordIndex byteOffset; omega

/-! ### Reading -/

/-- Everything `MemRead` can do: it fails its checks, or answers the accessed field of the containing word. -/
theorem memRead_eq (cfg : RunConfig) (m : Memory) (a : Word) (n : Width) :
    memRead cfg m a n =
      (checkAccess cfg a n).map fun _ =>
        (m.word cfg.byteOrder (wordIndex a) >>> dataShift cfg.byteOrder a n) &&& dataMask n := by
  unfold memRead
  cases checkAccess cfg a n <;> rfl

/-- The width in bits. -/
def Width.bits (n : Width) : Nat := 8 * n.bytes

theorem getLsbD_dataMask (n : Width) : ∀ i < 32, (dataMask n).getLsbD i = decide (i < n.bits) := by
  cases n <;> decide

theorem dataMask_byte (v : Word) : v &&& dataMask .byte = (v.setWidth 8).setWidth 32 := by
  ext i hi
  rw [BitVec.getElem_and, ← BitVec.getLsbD_eq_getElem (x := dataMask .byte), getLsbD_dataMask .byte i hi]
  simp [BitVec.getLsbD_eq_getElem hi, Width.bits, Width.bytes, Bool.and_comm]

theorem dataMask_half (v : Word) : v &&& dataMask .half = (v.setWidth 16).setWidth 32 := by
  ext i hi
  rw [BitVec.getElem_and, ← BitVec.getLsbD_eq_getElem (x := dataMask .half), getLsbD_dataMask .half i hi]
  by_cases h : i < 16 <;> simp [BitVec.getLsbD_eq_getElem hi, Width.bits, Width.bytes, h]

@[simp] theorem dataMask_word (v : Word) : v &&& dataMask .word = v := by
  have : dataMask .word = BitVec.allOnes 32 := by decide
  rw [this, BitVec.and_allOnes]

/-- A one-byte read that passes its checks answers the byte at its address. -/
theorem memRead_byte {cfg : RunConfig} (m : Memory) {a : Word} (h : wordIndex a < cfg.memWords) :
    memRead cfg m a .byte = .ok ((m.read a.toNat).setWidth 32) := by
  have hc : checkAccess cfg a .byte = .ok () := checkAccess_ok_iff.2 ⟨rfl, h⟩
  rw [memRead_eq, hc, Except.map, dataMask_byte, toNat_eq_index_offset a,
    ← Memory.byteOfWord_word m cfg.byteOrder (wordIndex a) (byteOffset_lt a)]
  rfl

theorem half_of_word (bo : ByteOrder) (w : Word) {o : Nat} (ho : o = 0 ∨ o = 2) :
    (w >>> hsh bo o).setWidth 16 = halfOfBytes bo (byteOfWord bo w o) (byteOfWord bo w (o + 1)) := by
  ext i hi
  rcases ho with rfl | rfl <;> cases bo <;>
    simp [hsh, halfOfBytes, byteOfWord, bsh, BitVec.getElem_append] <;> grind

/-- A halfword read that passes its checks answers the halfword made of the two bytes at its address. -/
theorem memRead_half {cfg : RunConfig} (m : Memory) {a : Word} (ha : aligned2 a = true)
    (h : wordIndex a < cfg.memWords) :
    memRead cfg m a .half =
      .ok ((halfOfBytes cfg.byteOrder (m.read a.toNat) (m.read (a.toNat + 1))).setWidth 32) := by
  have hc : checkAccess cfg a .half = .ok () := checkAccess_ok_iff.2 ⟨ha, h⟩
  have ho : byteOffset a = 0 ∨ byteOffset a = 2 := by
    have := (aligned2_iff a).1 ha; have := byteOffset_lt a; omega
  have hlt : byteOffset a + 1 < 4 := by omega
  rw [memRead_eq, hc, Except.map, dataMask_half, toNat_eq_index_offset a, Nat.add_assoc,
    ← Memory.byteOfWord_word m cfg.byteOrder (wordIndex a) (byteOffset_lt a),
    ← Memory.byteOfWord_word m cfg.byteOrder (wordIndex a) hlt, ← half_of_word cfg.byteOrder _ ho]
  rfl

/-- A word read that passes its checks answers `MemWord` of its address. -/
theorem memRead_word {cfg : RunConfig} (m : Memory) {a : Word} (ha : aligned4 a = true)
    (h : wordIndex a < cfg.memWords) : memRead cfg m a .word = .ok (m.word cfg.byteOrder (wordIndex a)) := by
  have hc : checkAccess cfg a .word = .ok () := checkAccess_ok_iff.2 ⟨ha, h⟩
  rw [memRead_eq, hc, Except.map, dataMask_word]
  simp [dataShift]

/-! ### Writing -/

/-- The word a store leaves in place of `old`, whatever its width. -/
def storedWord (bo : ByteOrder) (old : Word) (a : Word) (n : Width) (v : Word) : Word :=
  match n with
  | .word => v
  | _     => spliceWord bo old a n v

/-- Everything `MemWrite` can do: it fails its checks, or replaces the containing word. -/
theorem memWrite_eq (cfg : RunConfig) (m : Memory) (a : Word) (n : Width) (v : Word) :
    memWrite cfg m a n v =
      (checkAccess cfg a n).map fun _ =>
        m.setWord cfg.byteOrder (wordIndex a)
          (storedWord cfg.byteOrder (m.word cfg.byteOrder (wordIndex a)) a n v) := by
  unfold memWrite
  cases checkAccess cfg a n <;> cases n <;> rfl

/-- Inversion of `MemWrite`. -/
theorem memWrite_ok {cfg : RunConfig} {m m' : Memory} {a : Word} {n : Width} {v : Word}
    (h : memWrite cfg m a n v = .ok m') :
    alignedFor a n = true ∧ wordIndex a < cfg.memWords ∧
      m' = m.setWord cfg.byteOrder (wordIndex a)
        (storedWord cfg.byteOrder (m.word cfg.byteOrder (wordIndex a)) a n v) := by
  rw [memWrite_eq] at h
  cases hc : checkAccess cfg a n with
  | error f => rw [hc] at h; cases h
  | ok u =>
    rw [hc] at h
    obtain ⟨h1, h2⟩ := checkAccess_ok_iff.1 hc
    exact ⟨h1, h2, (Except.ok.inj h).symm⟩

theorem memWrite_of_ok {cfg : RunConfig} (m : Memory) {a : Word} {n : Width} (v : Word)
    (ha : alignedFor a n = true) (h : wordIndex a < cfg.memWords) :
    memWrite cfg m a n v = .ok (m.setWord cfg.byteOrder (wordIndex a)
      (storedWord cfg.byteOrder (m.word cfg.byteOrder (wordIndex a)) a n v)) := by
  rw [memWrite_eq, checkAccess_ok_iff.2 ⟨ha, h⟩]; rfl

theorem memWrite_wf {cfg : RunConfig} {m m' : Memory} {a : Word} {n : Width} {v : Word} (hm : m.wf = true)
    (h : memWrite cfg m a n v = .ok m') : m'.wf = true := by
  obtain ⟨-, -, rfl⟩ := memWrite_ok h
  exact Memory.setWord_wf hm _ _ _

/-- A store leaves every byte outside its containing word as it was. -/
theorem memWrite_read_outside_word {cfg : RunConfig} {m m' : Memory} {a : Word} {n : Width} {v : Word}
    (h : memWrite cfg m a n v = .ok m') {c : Nat} (hc : c / 4 ≠ wordIndex a) : m'.read c = m.read c := by
  obtain ⟨-, -, rfl⟩ := memWrite_ok h
  exact Memory.read_setWord_outside m _ hc _

theorem getLsbD_byteOfWord (bo : ByteOrder) (w : Word) (o : Nat) {i : Nat} (hi : i < 8) :
    (byteOfWord bo w o).getLsbD i = w.getLsbD (bsh bo o + i) := by
  simp [byteOfWord, hi]

/-- Every bit of a spliced word: the stored data inside the accessed field, the old word outside. -/
theorem getLsbD_spliceWord (bo : ByteOrder) (old a v : Word) (n : Width) {j : Nat} (hj : j < 32) :
    (spliceWord bo old a n v).getLsbD j =
      if dataShift bo a n ≤ j ∧ j < dataShift bo a n + n.bits then v.getLsbD (j - dataShift bo a n)
      else old.getLsbD j := by
  unfold spliceWord
  generalize dataShift bo a n = s
  simp only [BitVec.getLsbD_or, BitVec.getLsbD_and, BitVec.getLsbD_not, BitVec.getLsbD_shiftLeft,
    getLsbD_dataMask n (j - s) (by omega), hj, decide_true, Bool.true_and]
  by_cases h1 : j < s
  · simp [h1]
  · by_cases h2 : j - s < n.bits
    · have : s ≤ j ∧ j < s + n.bits := by omega
      simp [h1, h2, this]
    · have : ¬(j < s + n.bits) := by omega
      simp [h1, h2, this]

/-- The bytes of a word a byte store spliced. -/
theorem byteOfWord_splice_byte (bo : ByteOrder) (old a v : Word) {o : Nat} (ho : o < 4) :
    byteOfWord bo (spliceWord bo old a .byte v) o =
      if o = byteOffset a then v.setWidth 8 else byteOfWord bo old o := by
  have ha := byteOffset_lt a
  apply BitVec.eq_of_getLsbD_eq
  intro i hi
  have hs : bsh bo o + i < 32 := by cases bo <;> simp only [bsh] <;> omega
  rw [getLsbD_byteOfWord bo _ o hi, getLsbD_spliceWord bo old a v .byte hs]
  have hd : dataShift bo a .byte = bsh bo (byteOffset a) := rfl
  have hb : Width.bits .byte = 8 := rfl
  rw [hd, hb]
  by_cases h : o = byteOffset a
  · rw [if_pos h, if_pos (by rw [← h]; omega), ← h]
    simp [hi]
  · rw [if_neg h, if_neg (by cases bo <;> simp only [bsh] <;> omega), getLsbD_byteOfWord bo _ o hi]

/-- The byte of a stored halfword at the lower (`second` = false) or the higher address (R53). -/
def halfByte (bo : ByteOrder) (v : Word) (second : Bool) : Byte :=
  match bo, second with
  | .little, false => v.setWidth 8
  | .little, true  => (v >>> 8).setWidth 8
  | .big, false    => (v >>> 8).setWidth 8
  | .big, true     => v.setWidth 8

/-- The bytes of a word a halfword store spliced. -/
theorem byteOfWord_splice_half (bo : ByteOrder) (old a v : Word) (h2 : aligned2 a = true) {o : Nat} (ho : o < 4) :
    byteOfWord bo (spliceWord bo old a .half v) o =
      if o = byteOffset a then halfByte bo v false
      else if o = byteOffset a + 1 then halfByte bo v true
      else byteOfWord bo old o := by
  have ha := byteOffset_lt a
  have h2' := (aligned2_iff a).1 h2
  apply BitVec.eq_of_getLsbD_eq
  intro i hi
  have hs : bsh bo o + i < 32 := by cases bo <;> simp only [bsh] <;> omega
  rw [getLsbD_byteOfWord bo _ o hi, getLsbD_spliceWord bo old a v .half hs]
  have hd : dataShift bo a .half = hsh bo (byteOffset a) := rfl
  have hb : Width.bits .half = 16 := rfl
  rw [hd, hb]
  by_cases h : o = byteOffset a
  · rw [if_pos h, if_pos (by rw [← h]; cases bo <;> simp only [bsh, hsh] <;> omega), ← h]
    cases bo
    · have : bsh .little o + i - hsh .little o = i := by simp only [bsh, hsh]; omega
      simp [halfByte, hi, this]
    · have : bsh .big o + i - hsh .big o = 8 + i := by simp only [bsh, hsh]; omega
      simp [halfByte, hi, this]
  · rw [if_neg h]
    by_cases h' : o = byteOffset a + 1
    · rw [if_pos h', if_pos (by rw [h']; cases bo <;> simp only [bsh, hsh] <;> omega), h']
      cases bo
      · have : bsh .little (byteOffset a + 1) + i - hsh .little (byteOffset a) = 8 + i := by simp only [bsh, hsh]; omega
        simp [halfByte, hi, this]
      · have : bsh .big (byteOffset a + 1) + i - hsh .big (byteOffset a) = i := by simp only [bsh, hsh]; omega
        simp [halfByte, hi, this]
    · rw [if_neg h', if_neg (by cases bo <;> simp only [bsh, hsh] <;> omega), getLsbD_byteOfWord bo _ o hi]

/-- The byte of a store's data that goes to the address `i` above the effective address (R53, R57). -/
def storeByte (bo : ByteOrder) (n : Width) (v : Word) (i : Nat) : Byte :=
  match n with
  | .byte => v.setWidth 8
  | .half => halfByte bo v (i == 1)
  | .word => byteOfWord bo v i

/-- The bytes of a store's data, as the obligations write them. -/
theorem storeByte_eq_dataByte (bo : ByteOrder) (n : Width) (v : Word) {k : Nat} (hk : k < n.bytes) :
    storeByte bo n v k = dataByte bo n.bytes v k := by
  cases n with
  | byte =>
    obtain rfl : k = 0 := by simp only [Width.bytes] at hk; omega
    cases bo <;> (ext i hi; simp [storeByte, dataByte, Width.bytes])
  | half =>
    have : k = 0 ∨ k = 1 := by simp only [Width.bytes] at hk; omega
    rcases this with rfl | rfl <;> cases bo <;> rfl
  | word =>
    have : k = 0 ∨ k = 1 ∨ k = 2 ∨ k = 3 := by simp only [Width.bytes] at hk; omega
    rcases this with rfl | rfl | rfl | rfl <;> cases bo <;> rfl

/-- Every byte of memory after a store: the data's bytes at the accessed addresses, the old byte everywhere else. -/
theorem memWrite_read {cfg : RunConfig} {m m' : Memory} {a : Word} {n : Width} {v : Word} (hm : m.wf = true)
    (h : memWrite cfg m a n v = .ok m') (c : Nat) :
    m'.read c =
      if a.toNat ≤ c ∧ c < a.toNat + n.bytes then storeByte cfg.byteOrder n v (c - a.toNat) else m.read c := by
  obtain ⟨hal, -, rfl⟩ := memWrite_ok h
  have ha := byteOffset_lt a
  have hidx := toNat_eq_index_offset a
  by_cases hc : c / 4 = wordIndex a
  · obtain ⟨o, ho, rfl⟩ : ∃ o, o < 4 ∧ c = 4 * wordIndex a + o := ⟨c % 4, Nat.mod_lt c (by omega), by omega⟩
    rw [Memory.read_setWord_inside hm _ _ _ ho]
    cases n with
    | byte =>
      have hb : Width.bytes .byte = 1 := rfl
      show byteOfWord cfg.byteOrder (spliceWord cfg.byteOrder _ a .byte v) o = _
      rw [byteOfWord_splice_byte cfg.byteOrder _ a v ho, Memory.byteOfWord_word m cfg.byteOrder (wordIndex a) ho]
      by_cases h0 : o = byteOffset a
      · rw [if_pos h0, if_pos (by omega)]; rfl
      · rw [if_neg h0, if_neg (by omega)]
    | half =>
      have hb : Width.bytes .half = 2 := rfl
      have hal' := (aligned2_iff a).1 hal
      show byteOfWord cfg.byteOrder (spliceWord cfg.byteOrder _ a .half v) o = _
      rw [byteOfWord_splice_half cfg.byteOrder _ a v hal ho, Memory.byteOfWord_word m cfg.byteOrder (wordIndex a) ho]
      by_cases h0 : o = byteOffset a
      · have : 4 * wordIndex a + o - a.toNat = 0 := by omega
        rw [if_pos h0, if_pos (by omega), this]; rfl
      · rw [if_neg h0]
        by_cases h1 : o = byteOffset a + 1
        · have : 4 * wordIndex a + o - a.toNat = 1 := by omega
          rw [if_pos h1, if_pos (by omega), this]; rfl
        · rw [if_neg h1, if_neg (by omega)]
    | word =>
      have hb : Width.bytes .word = 4 := rfl
      have hal' := (aligned4_iff a).1 hal
      have : 4 * wordIndex a + o - a.toNat = o := by omega
      rw [if_pos (by omega), this]; rfl
  · rw [Memory.read_setWord_outside m _ hc]
    have hal' : byteOffset a + n.bytes ≤ 4 := by
      cases n with
      | byte => simp only [Width.bytes]; omega
      | half => have := (aligned2_iff a).1 hal; simp only [Width.bytes]; omega
      | word => have := (aligned4_iff a).1 hal; simp only [Width.bytes]; omega
    rw [if_neg (by omega)]

end Sys2Proof.Machine
end

