-- ==== Sys2Proof/Laws/Encoding.lean ====
section
/-! SUPPORT. The fields of encoded words (spec/30_encoding.md R81 to R84), and what a word's decoding says of its
control words (R96, R101, R103). -/

namespace Sys2Proof

section FormatR
variable (rs rt rd : Reg) (sh : BitVec 5) (f : BitVec 6)

theorem opcodeOf_encodeR : opcodeOf (encodeR rs rt rd sh f) = 0x00#6 := by
  ext i hi; simp [opcodeOf, encodeR]; grind
theorem rsOf_encodeR : rsOf (encodeR rs rt rd sh f) = rs := by
  ext i hi; simp [rsOf, encodeR]; grind
theorem rtOf_encodeR : rtOf (encodeR rs rt rd sh f) = rt := by
  ext i hi; simp [rtOf, encodeR]; grind
theorem rdOf_encodeR : rdOf (encodeR rs rt rd sh f) = rd := by
  ext i hi; simp [rdOf, encodeR]; grind
theorem shamtOf_encodeR : shamtOf (encodeR rs rt rd sh f) = sh := by
  ext i hi; simp [shamtOf, encodeR]; grind
theorem functOf_encodeR : functOf (encodeR rs rt rd sh f) = f := by
  ext i hi; simp [functOf, encodeR]; grind
end FormatR

section FormatI
variable (op : BitVec 6) (rs rt : Reg) (imm : BitVec 16)

theorem opcodeOf_encodeI : opcodeOf (encodeI op rs rt imm) = op := by
  ext i hi; simp [opcodeOf, encodeI]; grind
theorem rsOf_encodeI : rsOf (encodeI op rs rt imm) = rs := by
  ext i hi; simp [rsOf, encodeI]; grind
theorem rtOf_encodeI : rtOf (encodeI op rs rt imm) = rt := by
  ext i hi; simp [rtOf, encodeI]; grind
theorem immOf_encodeI : immOf (encodeI op rs rt imm) = imm := by
  ext i hi; simp [immOf, encodeI]; grind
end FormatI

theorem opcodeOf_encodeJ (op : BitVec 6) (x : BitVec 26) : opcodeOf (encodeJ op x) = op := by
  ext i hi; simp [opcodeOf, encodeJ]; grind
theorem indexOf_encodeJ (op : BitVec 6) (x : BitVec 26) : indexOf (encodeJ op x) = x := by
  ext i hi; simp [indexOf, encodeJ]; grind

/-- The word `w` has the opcode (and function code) of the instruction and its operands in the fields of R81. -/
def Instr.FieldsIn (w : Word) : Instr → Prop
  | .sll rd rt shamt => opcodeOf w = 0x00#6 ∧ functOf w = 0x00#6 ∧ rd = rdOf w ∧ rt = rtOf w ∧ shamt = shamtOf w
  | .srl rd rt shamt => opcodeOf w = 0x00#6 ∧ functOf w = 0x02#6 ∧ rd = rdOf w ∧ rt = rtOf w ∧ shamt = shamtOf w
  | .sra rd rt shamt => opcodeOf w = 0x00#6 ∧ functOf w = 0x03#6 ∧ rd = rdOf w ∧ rt = rtOf w ∧ shamt = shamtOf w
  | .jr rs => opcodeOf w = 0x00#6 ∧ functOf w = 0x08#6 ∧ rs = rsOf w
  | .add rd rs rt => opcodeOf w = 0x00#6 ∧ functOf w = 0x20#6 ∧ rd = rdOf w ∧ rs = rsOf w ∧ rt = rtOf w
  | .addu rd rs rt => opcodeOf w = 0x00#6 ∧ functOf w = 0x21#6 ∧ rd = rdOf w ∧ rs = rsOf w ∧ rt = rtOf w
  | .sub rd rs rt => opcodeOf w = 0x00#6 ∧ functOf w = 0x22#6 ∧ rd = rdOf w ∧ rs = rsOf w ∧ rt = rtOf w
  | .subu rd rs rt => opcodeOf w = 0x00#6 ∧ functOf w = 0x23#6 ∧ rd = rdOf w ∧ rs = rsOf w ∧ rt = rtOf w
  | .and rd rs rt => opcodeOf w = 0x00#6 ∧ functOf w = 0x24#6 ∧ rd = rdOf w ∧ rs = rsOf w ∧ rt = rtOf w
  | .or rd rs rt => opcodeOf w = 0x00#6 ∧ functOf w = 0x25#6 ∧ rd = rdOf w ∧ rs = rsOf w ∧ rt = rtOf w
  | .xor rd rs rt => opcodeOf w = 0x00#6 ∧ functOf w = 0x26#6 ∧ rd = rdOf w ∧ rs = rsOf w ∧ rt = rtOf w
  | .nor rd rs rt => opcodeOf w = 0x00#6 ∧ functOf w = 0x27#6 ∧ rd = rdOf w ∧ rs = rsOf w ∧ rt = rtOf w
  | .slt rd rs rt => opcodeOf w = 0x00#6 ∧ functOf w = 0x2A#6 ∧ rd = rdOf w ∧ rs = rsOf w ∧ rt = rtOf w
  | .sltu rd rs rt => opcodeOf w = 0x00#6 ∧ functOf w = 0x2B#6 ∧ rd = rdOf w ∧ rs = rsOf w ∧ rt = rtOf w
  | .j index => opcodeOf w = 0x02#6 ∧ index = indexOf w
  | .jal index => opcodeOf w = 0x03#6 ∧ index = indexOf w
  | .beq rs rt imm => opcodeOf w = 0x04#6 ∧ rs = rsOf w ∧ rt = rtOf w ∧ imm = immOf w
  | .bne rs rt imm => opcodeOf w = 0x05#6 ∧ rs = rsOf w ∧ rt = rtOf w ∧ imm = immOf w
  | .addi rt rs imm => opcodeOf w = 0x08#6 ∧ rt = rtOf w ∧ rs = rsOf w ∧ imm = immOf w
  | .addiu rt rs imm => opcodeOf w = 0x09#6 ∧ rt = rtOf w ∧ rs = rsOf w ∧ imm = immOf w
  | .slti rt rs imm => opcodeOf w = 0x0A#6 ∧ rt = rtOf w ∧ rs = rsOf w ∧ imm = immOf w
  | .sltiu rt rs imm => opcodeOf w = 0x0B#6 ∧ rt = rtOf w ∧ rs = rsOf w ∧ imm = immOf w
  | .andi rt rs imm => opcodeOf w = 0x0C#6 ∧ rt = rtOf w ∧ rs = rsOf w ∧ imm = immOf w
  | .ori rt rs imm => opcodeOf w = 0x0D#6 ∧ rt = rtOf w ∧ rs = rsOf w ∧ imm = immOf w
  | .lui rt imm => opcodeOf w = 0x0F#6 ∧ rt = rtOf w ∧ imm = immOf w
  | .lb rt imm rs => opcodeOf w = 0x20#6 ∧ rt = rtOf w ∧ imm = immOf w ∧ rs = rsOf w
  | .lh rt imm rs => opcodeOf w = 0x21#6 ∧ rt = rtOf w ∧ imm = immOf w ∧ rs = rsOf w
  | .lw rt imm rs => opcodeOf w = 0x23#6 ∧ rt = rtOf w ∧ imm = immOf w ∧ rs = rsOf w
  | .lbu rt imm rs => opcodeOf w = 0x24#6 ∧ rt = rtOf w ∧ imm = immOf w ∧ rs = rsOf w
  | .lhu rt imm rs => opcodeOf w = 0x25#6 ∧ rt = rtOf w ∧ imm = immOf w ∧ rs = rsOf w
  | .sb rt imm rs => opcodeOf w = 0x28#6 ∧ rt = rtOf w ∧ imm = immOf w ∧ rs = rsOf w
  | .sh rt imm rs => opcodeOf w = 0x29#6 ∧ rt = rtOf w ∧ imm = immOf w ∧ rs = rsOf w
  | .sw rt imm rs => opcodeOf w = 0x2B#6 ∧ rt = rtOf w ∧ imm = immOf w ∧ rs = rsOf w

/-- Inversion of the decoder's R-type half: what it answers `ok` on has the row's function code and fields. -/
theorem decodeFunct_ok {w : Word} {i : Instr} (h0 : opcodeOf w = 0x00#6) (h : decodeFunct w = .ok i) : i.FieldsIn w := by
  unfold decodeFunct at h
  split at h <;> cases h <;> simp_all [Instr.FieldsIn]

/-- Inversion of the decoder: what it answers `ok` on has the row's opcode, function code and fields. -/
theorem decodeWord_ok {w : Word} {i : Instr} (h : decodeWord w = .ok i) : i.FieldsIn w := by
  unfold decodeWord at h
  split at h
  · rename_i h0; exact decodeFunct_ok h0 h
  all_goals cases h <;> simp_all [Instr.FieldsIn]

/-- The decoder answers an instruction on every word that has its opcode, function code and fields. -/
theorem decodeWord_of_fields {w : Word} {i : Instr} (h : i.FieldsIn w) : decodeWord w = .ok i := by
  cases i <;> simp only [Instr.FieldsIn] at h <;> simp [decodeWord, decodeFunct, h]

end Sys2Proof
end

