-- ==== Sys2Proof/Laws/Registers.lean ====
section
/-! SUPPORT. The register file (spec/10_state.md R21, R24). -/

namespace Sys2Proof.Machine

@[simp] theorem RegFile.read_zero (regs : RegFile) : regs.read 0#5 = 0#32 := rfl

@[simp] theorem RegFile.write_zero (regs : RegFile) (v : Word) : regs.write 0#5 v = regs := rfl

theorem RegFile.read_write_same (regs : RegFile) {r : Reg} (hr : r ≠ 0#5) (v : Word) :
    (regs.write r v).read r = v := by
  simp [RegFile.read, RegFile.write, hr]

theorem RegFile.read_write_ne (regs : RegFile) {r q : Reg} (h : q ≠ r) (v : Word) :
    (regs.write r v).read q = regs.read q := by
  unfold RegFile.read RegFile.write
  split
  · rfl
  · split
    · rfl
    · have hn : r.toNat ≠ q.toNat := fun e => h (BitVec.eq_of_toNat_eq e.symm)
      simp [hn]

/-- A register write, read back at any register: the one fact about both operations. -/
theorem RegFile.read_write (regs : RegFile) (r q : Reg) (v : Word) :
    (regs.write r v).read q = if q = r ∧ q ≠ 0#5 then v else regs.read q := by
  by_cases h : q = r
  · subst h
    by_cases hq : q = 0#5
    · subst hq; simp
    · rw [RegFile.read_write_same regs hq, if_pos ⟨rfl, hq⟩]
  · rw [RegFile.read_write_ne regs h, if_neg (fun e => h e.1)]

@[simp] theorem RegFile.access_fst (regs : RegFile) (i j w : Reg) (d : Bool) (v : Word) :
    (regs.access i j w d v).1 = regs.read i := rfl

@[simp] theorem RegFile.access_snd (regs : RegFile) (i j w : Reg) (d : Bool) (v : Word) :
    (regs.access i j w d v).2.1 = regs.read j := rfl

@[simp] theorem RegFile.access_regs (regs : RegFile) (i j w : Reg) (d : Bool) (v : Word) :
    (regs.access i j w d v).2.2 = if d then regs.write w v else regs := rfl

@[simp] theorem State.reg_zero (s : State) : s.reg 0#5 = 0#32 := rfl

theorem State.reg_setReg (s : State) (r q : Reg) (v : Word) :
    (s.setReg r v).reg q = if q = r ∧ q ≠ 0#5 then v else s.reg q := RegFile.read_write s.regs r q v

@[simp] theorem State.reg_jumpTo (s : State) (t : Word) (r : Reg) : (s.jumpTo t).reg r = s.reg r := rfl
@[simp] theorem State.reg_advance (s : State) (r : Reg) : s.advance.reg r = s.reg r := rfl
@[simp] theorem State.reg_setMem (s : State) (m : Memory) (r : Reg) : (s.setMem m).reg r = s.reg r := rfl
@[simp] theorem State.reg_raise (s : State) (f : Fault) (r : Reg) : (s.raise f).reg r = s.reg r := rfl
@[simp] theorem State.reg_halt (s : State) (r : Reg) : s.halt.reg r = s.reg r := rfl
@[simp] theorem State.reg_countStep (s : State) (r : Reg) : s.countStep.reg r = s.reg r := rfl

/-- Slot 0 of the storage, which no access reads, keeps its value under every write. -/
theorem RegFile.slot0_write (regs : RegFile) (r : Reg) (v : Word) : (regs.write r v)[0] = regs[0] := by
  unfold RegFile.write
  split
  · rfl
  · rename_i h
    have : r.toNat ≠ 0 := fun e => h (BitVec.eq_of_toNat_eq e)
    simp [this]

end Sys2Proof.Machine
end

