-- ==== Sys2Proof/Laws/Stages.lean ====
section
/-! SUPPORT. Everything each stage can do with one latch (spec/44_pipeline_engine.md). -/

namespace Sys2Proof.Machine

/-! ### Writeback -/

/-- Writeback completes unless the instruction was fetched from beyond the memory; then it counts a non-empty latch and
writes the register of an instruction that writes one (R230). -/
theorem writebackLane_ok {cfg : RunConfig} {r r' : Retired} {w : MemWb} (h : writebackLane cfg r w = .ok r') :
    (w.empty = true ∨ wordIndex w.pc < cfg.memWords) ∧
      r'.regs = (if w.writesReg then r.regs.write w.dest w.wbValue else r.regs) ∧
      r'.committed = (if w.empty then r.committed else r.committed + 1) := by
  unfold writebackLane at h
  split at h
  · cases h
  · rename_i hc
    obtain rfl := Except.ok.inj h
    refine ⟨?_, rfl, rfl⟩
    cases he : w.empty
    · right
      simp only [he, Bool.not_false, Bool.true_and, decide_eq_true_eq, Nat.not_le] at hc
      exact hc
    · left; rfl

theorem writebackLane_bubble (cfg : RunConfig) (r : Retired) : writebackLane cfg r MemWb.bubble = .ok r := rfl

theorem writebackLane_of_inRange {cfg : RunConfig} (r : Retired) {w : MemWb}
    (h : w.empty = true ∨ wordIndex w.pc < cfg.memWords) :
    writebackLane cfg r w = .ok
      { regs := if w.writesReg then r.regs.write w.dest w.wbValue else r.regs
        committed := if w.empty then r.committed else r.committed + 1 } := by
  unfold writebackLane
  rw [if_neg]
  · rfl
  · rcases h with h | h
    · simp [h]
    · simp only [Bool.and_eq_true, decide_eq_true_eq, not_and, Nat.not_le]; intro _; exact h

/-! ### Memory -/

/-- The `MEMWB` latch of an instruction that leaves the Memory stage with load data `d` (R232). -/
def ExMem.toMemWb (m : ExMem) (d : Word) : MemWb where
  empty     := false
  instr     := m.instr
  pc        := m.pc
  ctrl      := m.ctrl
  actl      := m.actl
  dest      := m.dest
  aluResult := m.aluResult
  memData   := d

/-- The Memory stage completes on a bubble, changing nothing, or on a supported instruction whose access passes its
checks (R232, R235). -/
theorem memoryLane_ok {cfg : RunConfig} {mem mem' : Memory} {m : ExMem} {y : MemWb}
    (h : memoryLane cfg mem m = .ok (y, mem')) :
    (m.empty = true ∧ y = MemWb.bubble ∧ mem' = mem) ∨
      (m.empty = false ∧ m.actl.unsupported = false ∧
        ∃ d, loadStage cfg mem m = .ok d ∧ storeStage cfg mem m = .ok mem' ∧ y = m.toMemWb d) := by
  unfold memoryLane at h
  split at h
  · rename_i he
    obtain ⟨rfl, rfl⟩ := Prod.mk.inj (Except.ok.inj h)
    exact .inl ⟨he, rfl, rfl⟩
  · rename_i he
    split at h
    · cases h
    · rename_i hu
      split at h
      · cases h
      · rename_i d hd
        split at h
        · cases h
        · rename_i mem'' hs
          obtain ⟨rfl, rfl⟩ := Prod.mk.inj (Except.ok.inj h)
          refine .inr ⟨by simpa using he, by simpa using hu, d, hd, hs, rfl⟩

theorem memoryLane_bubble (cfg : RunConfig) (mem : Memory) :
    memoryLane cfg mem ExMem.bubble = .ok (MemWb.bubble, mem) := rfl

theorem memoryLane_of_ok {cfg : RunConfig} {mem mem' : Memory} {m : ExMem} {d : Word} (he : m.empty = false)
    (hu : m.actl.unsupported = false) (hd : loadStage cfg mem m = .ok d) (hs : storeStage cfg mem m = .ok mem') :
    memoryLane cfg mem m = .ok (m.toMemWb d, mem') := by
  unfold memoryLane
  rw [he, hu, hd, hs]
  rfl

/-- The memory after the store part: changed only by an instruction that stores. -/
theorem storeStage_ok {cfg : RunConfig} {mem mem' : Memory} {m : ExMem} (h : storeStage cfg mem m = .ok mem') :
    (m.ctrl.memWrite = false ∧ mem' = mem) ∨
      (m.ctrl.memWrite = true ∧ memWrite cfg mem m.aluResult (Ctrl.width m.ctrl) m.storeData = .ok mem') := by
  unfold storeStage at h
  split at h
  · rename_i hw; exact .inr ⟨hw, h⟩
  · rename_i hw; exact .inl ⟨by simpa using hw, (Except.ok.inj h).symm⟩

/-- The Memory stage keeps the canonical form. -/
theorem memoryLane_wf {cfg : RunConfig} {mem mem' : Memory} {m : ExMem} {y : MemWb} (hm : mem.wf = true)
    (h : memoryLane cfg mem m = .ok (y, mem')) : mem'.wf = true := by
  rcases memoryLane_ok h with ⟨-, -, rfl⟩ | ⟨-, -, d, -, hs, -⟩
  · exact hm
  · rcases storeStage_ok hs with ⟨-, rfl⟩ | ⟨-, hw⟩
    · exact hm
    · exact memWrite_wf hm hw

/-! ### Execute -/

/-- The `EXMEM` latch of an instruction that leaves the Execute stage (R229). -/
def IdEx.toExMem (e : IdEx) (a b : Word) : ExMem where
  empty     := false
  instr     := e.instr
  pc        := e.pc
  ctrl      := e.ctrl
  actl      := e.actl
  dest      := e.dest
  aluResult := executeResult e a b
  storeData := b

/-- The Execute stage completes on a bubble, with no redirect and the predictor as it was, or on an instruction whose
redirect is not misaligned (R227 to R229, R290). -/
theorem executeLane_ok {cfg : RunConfig} {p : Predictor} {e : IdEx} {a b : Word} {x : Executed}
    (h : executeLane cfg p e a b = .ok x) :
    (e.empty = true ∧ x = { latch := ExMem.bubble, redirect := none, predictor := p }) ∨
      (e.empty = false ∧ executeRedirect e a b = .ok x.redirect ∧ x.latch = e.toExMem a b ∧
        x.predictor = executePredictor cfg p e a b) := by
  unfold executeLane at h
  split at h
  · rename_i he; exact .inl ⟨he, (Except.ok.inj h).symm⟩
  · rename_i he
    split at h
    · cases h
    · rename_i r hr
      obtain rfl := Except.ok.inj h
      exact .inr ⟨by simpa using he, hr, rfl, rfl⟩

theorem executeLane_bubble (cfg : RunConfig) (p : Predictor) (a b : Word) :
    executeLane cfg p IdEx.bubble a b = .ok { latch := ExMem.bubble, redirect := none, predictor := p } := rfl

theorem executeLane_of_redirect {cfg : RunConfig} (p : Predictor) {e : IdEx} {a b : Word} {r : Option Word}
    (he : e.empty = false) (h : executeRedirect e a b = .ok r) :
    executeLane cfg p e a b = .ok { latch := e.toExMem a b, redirect := r, predictor := executePredictor cfg p e a b } := by
  unfold executeLane
  rw [he, h]
  rfl

/-- The redirects: a branch whose direction was mispredicted, a jump, a JR to an aligned address (R290). -/
theorem executeRedirect_some {e : IdEx} {a b target : Word} (h : executeRedirect e a b = .ok (some target)) :
    (e.ctrl.branch = true ∧ resolvedTaken e a b ≠ e.pred ∧
        target = if resolvedTaken e a b then nextPc e.pc + e.imm <<< 2 else nextPc e.pc) ∨
      (e.ctrl.branch = false ∧ e.ctrl.jump = true ∧ target = jumpTarget e.pc (indexOf e.instr)) ∨
      (e.ctrl.branch = false ∧ e.ctrl.jump = false ∧ e.actl.jumpReg = true ∧ aligned4 a = true ∧ target = a) := by
  unfold executeRedirect at h
  split at h
  · rename_i hb
    have h := Except.ok.inj h
    split at h
    · cases h
    · rename_i hp
      refine .inl ⟨hb, by simpa using hp, ?_⟩
      split at h <;> simp_all
  · rename_i hb
    have hb : e.ctrl.branch = false := by simpa using hb
    split at h
    · rename_i hj
      exact .inr (.inl ⟨hb, hj, (Option.some.inj (Except.ok.inj h)).symm⟩)
    · rename_i hj
      have hj : e.ctrl.jump = false := by simpa using hj
      split at h
      · rename_i hr
        split at h
        · rename_i ha
          exact .inr (.inr ⟨hb, hj, hr, ha, (Option.some.inj (Except.ok.inj h)).symm⟩)
        · cases h
      · cases Except.ok.inj h

/-! ### Decode -/

theorem decodeLane_bubble (regs : RegFile) : decodeLane regs IfId.bubble = IdEx.bubble := rfl

theorem decodeLane_of_empty {regs : RegFile} {l : IfId} (h : l.empty = true) : decodeLane regs l = IdEx.bubble := by
  simp [decodeLane, h]

/-- Decode of a non-empty latch, field by field (R225). -/
theorem decodeLane_of_full {regs : RegFile} {l : IfId} (h : l.empty = false) :
    decodeLane regs l =
      { empty := false
        instr := l.instr
        pc    := l.pc
        pred  := l.pred
        ctrl  := wordCtrl l.instr
        actl  := wordActl l.instr
        rs    := rsOf l.instr
        rt    := rtOf l.instr
        rsVal := regs.read (rsOf l.instr)
        rtVal := regs.read (rtOf l.instr)
        imm   := sextImm (immOf l.instr)
        dest  := destOf l.instr (wordCtrl l.instr) } := by
  simp [decodeLane, h]

/-! ### Hazards and forwarding -/

theorem loadUse_bubble_left (e : IdEx) : loadUse IdEx.bubble e = false := rfl

theorem loadUse_bubble_right (d : IdEx) : loadUse d IdEx.bubble = false := by
  cases h : d.empty <;> simp [loadUse, IdEx.bubble, h]

theorem forward_zero (lanes : LaneCount) (exmem : Lanes ExMem) (memwb : Lanes MemWb) (v : Word) :
    forward lanes exmem memwb 0#5 v = v := by
  have hx : ∀ l : ExMem, l.forwards 0#5 = false := by
    intro l; simp only [ExMem.forwards, ExMem.writesReg, writesRegFields]
    by_cases h : l.dest = 0#5 <;> simp [h]
  have hw : ∀ l : MemWb, l.forwards 0#5 = false := by
    intro l; simp only [MemWb.forwards, MemWb.writesReg, writesRegFields]
    by_cases h : l.dest = 0#5 <;> simp [h]
  cases lanes <;> simp [forward, hx, hw]

end Sys2Proof.Machine
end

