-- ==== Sys2Proof/Laws/Control.lean ====
section
/-! SUPPORT. What the control words of a word exclude (spec/30_encoding.md R101, R105), the target arithmetic in closed
form (R191, R193), and what one lane's Memory and Writeback do to memory and registers, address by address. -/

namespace Sys2Proof.Machine

/-! ### Control words -/

theorem wordActl_of_ok {w : Word} {i : Instr} (h : decodeWord w = .ok i) : (wordActl w).unsupported = false := by
  have a := decodeWord_ok h
  cases i <;> simp only [Instr.FieldsIn] at a <;>
    simp [wordActl, computeControl, decodeUnit, aluControlRow, functControl, opcodeControl, supportedOpcode,
      AluControl.zero, Ctrl.zero, a, Ctrl.rType, Ctrl.immediate, Ctrl.load, Ctrl.store]

theorem wordCtrl_of_ok {w : Word} {i : Instr} (h : decodeWord w = .ok i) : wordCtrl w = decodeUnit (opcodeOf w) := by
  simp [wordCtrl, wordActl_of_ok h]

/-- A word loads, or transfers control, or neither: no word does two of them. -/
theorem wordCtrl_exclusive (w : Word) :
    ((wordCtrl w).memRead = true → (wordCtrl w).branch = false ∧ (wordCtrl w).jump = false ∧
      (wordActl w).jumpReg = false ∧ (wordCtrl w).memToReg = true ∧ (wordCtrl w).memWrite = false) ∧
    ((wordCtrl w).jump = true → (wordCtrl w).branch = false) ∧ (wordCtrl w).memToReg = (wordCtrl w).memRead := by
  have key : ∀ (o f : BitVec 6), let c := decodeUnit o
      let a := computeControl c.aluOp f o
      ([c.jump, c.branch, c.memRead, c.memWrite, a.jumpReg].count true ≤ 1) ∧ c.memToReg = c.memRead := by
    decide +kernel
  obtain ⟨h1, h2⟩ := key (opcodeOf w) (functOf w)
  unfold wordCtrl
  split
  · simp [Ctrl.zero]
  · unfold wordActl
    generalize computeControl _ _ _ = a at h1 ⊢
    generalize decodeUnit (opcodeOf w) = c at h1 h2 ⊢
    refine ⟨fun hm => ?_, fun hj => ?_, h2⟩
    · rw [hm] at h1
      cases hb : c.branch <;> cases hj : c.jump <;> cases hr : a.jumpReg <;> cases hw : c.memWrite <;> simp_all
    · cases hb : c.branch <;> simp_all

theorem IdEx.Consistent.branch_of_jump {cfg : RunConfig} {e : IdEx} (h : e.Consistent cfg) (hj : e.ctrl.jump = true) :
    e.ctrl.branch = false := by
  cases he : e.empty
  · rw [(h.2.1 he).1] at hj ⊢; exact (wordCtrl_exclusive _).2.1 hj
  · rw [h.1 he]; rfl

/-! ### Targets -/

theorem sextImm_eq_ofInt (imm : BitVec 16) : sextImm imm = BitVec.ofInt 32 imm.toInt := by
  rw [← BitVec.ofInt_toInt (x := sextImm imm)]
  simp [sextImm, BitVec.toInt_signExtend_of_le]

theorem branchTarget_eq_branchAddress (pc : Word) (imm : BitVec 16) : branchTarget pc imm = branchAddress pc imm := by
  unfold branchTarget branchAddress nextPc
  rw [sextImm_eq_ofInt]
  apply BitVec.eq_of_toInt_eq
  rw [BitVec.shiftLeft_eq_mul_twoPow]
  simp [BitVec.toInt_add, BitVec.toInt_mul, BitVec.twoPow]
  rw [Int.bmod_eq_bmod_iff_bmod_sub_eq_zero, BitVec.toInt_eq_toNat_bmod]
  grind

theorem toNat_append_cast {n m k : Nat} (h : n + m = k) (x : BitVec n) (y : BitVec m) :
    (BitVec.cast h (x ++ y)).toNat = x.toNat * 2 ^ m + y.toNat := by
  subst h
  simp [BitVec.toNat_append]
  rw [← Nat.shiftLeft_add_eq_or_of_lt y.isLt, Nat.shiftLeft_eq]

theorem jumpTarget_eq_jumpAddress (pc : Word) (index : BitVec 26) : jumpTarget pc index = jumpAddress pc index := by
  unfold jumpTarget jumpAddress nextPc
  apply BitVec.eq_of_toNat_eq
  have h1 := toNat_append_cast (n := 4) (m := 26) rfl ((pc + 4#32).extractLsb' 28 4) index
  have h2 := toNat_append_cast (n := 4 + 26) (m := 2) rfl ((pc + 4#32).extractLsb' 28 4 ++ index) 0#2
  simp only [BitVec.cast_eq] at h1 h2
  rw [h1] at h2
  refine h2.trans ?_
  have := index.isLt
  have := (pc + 4#32).isLt
  simp only [BitVec.extractLsb'_toNat, BitVec.toNat_ofNat, Nat.shiftRight_eq_div_pow]
  omega

/-! ### One lane's memory and registers -/

theorem storesAt_iff {m : ExMem} {c : Nat} : m.storesAt c = true ↔
    m.empty = false ∧ m.ctrl.memWrite = true ∧ m.aluResult.toNat ≤ c ∧
      c < m.aluResult.toNat + (Ctrl.width m.ctrl).bytes := by
  simp [ExMem.storesAt, and_assoc]

/-- Every byte after one lane's Memory stage. -/
theorem memoryLane_read {cfg : RunConfig} {mem mem' : Memory} {m : ExMem} {y : MemWb} (hm : mem.wf = true)
    (h : memoryLane cfg mem m = .ok (y, mem')) (c : Nat) :
    mem'.read c = if m.storesAt c then m.storedAt cfg.byteOrder c else mem.read c := by
  rcases memoryLane_ok h with ⟨he, -, rfl⟩ | ⟨he, -, d, -, hs, -⟩
  · rw [if_neg]; rw [storesAt_iff]; simp [he]
  · rcases storeStage_ok hs with ⟨hw, rfl⟩ | ⟨hw, h2⟩
    · rw [if_neg]; rw [storesAt_iff]; simp [hw]
    · rw [memWrite_read hm h2]
      by_cases hc : m.aluResult.toNat ≤ c ∧ c < m.aluResult.toNat + (Ctrl.width m.ctrl).bytes
      · rw [if_pos hc, if_pos (storesAt_iff.2 ⟨he, hw, hc⟩), storeByte_eq_dataByte _ _ _ (by omega)]; rfl
      · rw [if_neg hc, if_neg (fun h => hc (storesAt_iff.1 h).2.2)]

/-- What a load reads, from the bytes at its address: the lowest one, the two of a halfword, or the four of a word. -/
def loadedData (bo : ByteOrder) (c : Ctrl) (b : Nat → Byte) : Word :=
  match Ctrl.width c with
  | .byte => if c.loadUnsigned then (b 0).setWidth 32 else (b 0).signExtend 32
  | .half =>
    if c.loadUnsigned then (halfOfBytes bo (b 0) (b 1)).setWidth 32 else (halfOfBytes bo (b 0) (b 1)).signExtend 32
  | .word => wordOfBytes bo (b 0) (b 1) (b 2) (b 3)

/-- The load part of the Memory stage, byte by byte. -/
theorem loadStage_bytes {cfg : RunConfig} {mem : Memory} {m : ExMem} {d : Word} (h : loadStage cfg mem m = .ok d)
    (hr : m.ctrl.memRead = true) :
    d = loadedData cfg.byteOrder m.ctrl (fun k => mem.read (m.aluResult.toNat + k)) := by
  unfold loadStage at h
  rw [if_pos hr] at h
  unfold loadedData
  cases hc : checkAccess cfg m.aluResult (Ctrl.width m.ctrl) with
  | error f => simp [memRead, hc] at h
  | ok u =>
    obtain ⟨ha, hi⟩ := checkAccess_ok_iff.1 hc
    cases hw : Ctrl.width m.ctrl <;> rw [hw] at h ha
    · rw [memRead_byte _ hi] at h
      cases hu : m.ctrl.loadUnsigned <;> simp [extendData, hu] at h ⊢ <;> exact h.symm
    · rw [memRead_half _ ha hi] at h
      cases hu : m.ctrl.loadUnsigned <;> simp [extendData, hu] at h ⊢ <;> exact h.symm
    · rw [memRead_word _ ha hi] at h
      have e : 4 * wordIndex m.aluResult = m.aluResult.toNat := by
        rw [toNat_eq_index_offset m.aluResult, (aligned4_iff _).1 ha, Nat.add_zero]
      simp [extendData, Memory.word, e] at h
      exact h.symm

/-- Every register after one lane's Writeback. -/
theorem writebackLane_read {cfg : RunConfig} {r r' : Retired} {w : MemWb} (h : writebackLane cfg r w = .ok r')
    (q : Reg) : r'.regs.read q = if w.writesTo q then w.wbValue else r.regs.read q := by
  obtain ⟨-, h1, -⟩ := writebackLane_ok h
  rw [h1]
  unfold MemWb.writesTo
  cases hw : w.writesReg
  · simp
  · have hd : w.dest ≠ 0#5 := by unfold MemWb.writesReg writesRegFields at hw; simp at hw; exact hw.2
    simp [RegFile.read_write]
    by_cases hq : q = w.dest
    · subst hq; simp [hd]
    · simp [hq, Ne.symm hq]

theorem readsReg_iff (e : IdEx) (q : Reg) : e.readsReg q = true ↔
    e.empty = false ∧ q ≠ 0#5 ∧ ((e.usesRs = true ∧ e.rs = q) ∨ (e.usesRt = true ∧ e.rt = q)) := by
  simp [IdEx.readsReg, and_assoc]

end Sys2Proof.Machine
end

