-- ==== Sys2Proof/Laws/Exec.lean ====
section
/-! SUPPORT. Everything the shared operations of the instruction meanings can do (spec files 40 to 43). -/

namespace Sys2Proof.Machine

/-- The template of files 40 and 41 always completes (R120, R150). -/
theorem finishReg_eq (s : State) (rd : Reg) (v : Word) : s.finishReg rd v = .next (s.setReg rd v).advance := rfl

/-- A load completes exactly on an aligned address inside the memory; then it writes its register and advances. -/
theorem load_next {s t : State} {rt rs : Reg} {imm : BitVec 16} {n : Width} {u : Bool}
    (h : s.load rt rs imm n u = .next t) :
    ∃ v, memRead s.cfg s.mem (effAddr (s.reg rs) imm) n = .ok v ∧ t = (s.setReg rt (extendData n u v)).advance := by
  unfold State.load at h
  split at h
  · cases h
  · rename_i v hv; exact ⟨v, hv, (Host.Outcome.next.inj h).symm⟩

theorem load_of_ok {s : State} {rt rs : Reg} {imm : BitVec 16} {n : Width} (u : Bool) {v : Word}
    (h : memRead s.cfg s.mem (effAddr (s.reg rs) imm) n = .ok v) :
    s.load rt rs imm n u = .next (s.setReg rt (extendData n u v)).advance := by
  unfold State.load; rw [h]

theorem load_of_error {s : State} {rt rs : Reg} {imm : BitVec 16} {n : Width} (u : Bool) {f : Fault}
    (h : memRead s.cfg s.mem (effAddr (s.reg rs) imm) n = .error f) : s.load rt rs imm n u = .fault f := by
  unfold State.load; rw [h]

/-- A store completes exactly on an aligned address inside the memory; then it replaces the memory and advances. -/
theorem store_next {s t : State} {rt rs : Reg} {imm : BitVec 16} {n : Width} (h : s.store rt rs imm n = .next t) :
    ∃ m, memWrite s.cfg s.mem (effAddr (s.reg rs) imm) n (s.reg rt) = .ok m ∧ t = (s.setMem m).advance := by
  unfold State.store at h
  split at h
  · cases h
  · rename_i m hm; exact ⟨m, hm, (Host.Outcome.next.inj h).symm⟩

theorem store_of_ok {s : State} {rt rs : Reg} {imm : BitVec 16} {n : Width} {m : Memory}
    (h : memWrite s.cfg s.mem (effAddr (s.reg rs) imm) n (s.reg rt) = .ok m) :
    s.store rt rs imm n = .next (s.setMem m).advance := by
  unfold State.store; rw [h]

theorem store_of_error {s : State} {rt rs : Reg} {imm : BitVec 16} {n : Width} {f : Fault}
    (h : memWrite s.cfg s.mem (effAddr (s.reg rs) imm) n (s.reg rt) = .error f) : s.store rt rs imm n = .fault f := by
  unfold State.store; rw [h]

/-- A meaning's four shapes: it writes a register and advances, it loads, it stores, or it transfers control. Every
`exec` that completes is one of them. -/
inductive Effect (s : State) : State → Prop where
  | reg (rd : Reg) (v : Word) : Effect s (s.setReg rd v).advance
  | store (m : Memory) (a : Word) (n : Width) (v : Word) (h : memWrite s.cfg s.mem a n v = .ok m) :
      Effect s (s.setMem m).advance
  | jump (target : Word) : Effect s (s.jumpTo target)
  | link (target : Word) : Effect s ((s.setReg linkReg (nextPc s.pc)).jumpTo target)

/-- Inversion of `exec`: a completed instruction has one of the four effects. -/
theorem exec_effect {i : Instr} {s t : State} (h : exec i s = .next t) : Effect s t := by
  have hload : ∀ {rt rs imm n u}, s.load rt rs imm n u = .next t → Effect s t := by
    intro rt rs imm n u h
    obtain ⟨v, -, rfl⟩ := load_next h
    exact .reg _ _
  have hstore : ∀ {rt rs imm n}, s.store rt rs imm n = .next t → Effect s t := by
    intro rt rs imm n h
    obtain ⟨m, hm, rfl⟩ := store_next h
    exact .store m _ _ _ hm
  have hreg : ∀ {rd v}, s.finishReg rd v = .next t → Effect s t := by
    intro rd v h
    obtain rfl := Host.Outcome.next.inj h
    exact .reg _ _
  have hbranch : ∀ {tk imm}, s.branch tk imm = .next t → Effect s t := by
    intro tk imm h
    obtain rfl := Host.Outcome.next.inj h
    cases tk
    · exact .jump _
    · exact .jump _
  cases i with
  | jr rs =>
    simp only [exec, execJr] at h
    split at h
    · obtain rfl := Host.Outcome.next.inj h; exact .jump _
    · cases h
  | j index => obtain rfl := Host.Outcome.next.inj h; exact .jump _
  | jal index => obtain rfl := Host.Outcome.next.inj h; exact .link _
  | beq rs rt imm => exact hbranch h
  | bne rs rt imm => exact hbranch h
  | lb rt imm rs => exact hload h
  | lh rt imm rs => exact hload h
  | lw rt imm rs => exact hload h
  | lbu rt imm rs => exact hload h
  | lhu rt imm rs => exact hload h
  | sb rt imm rs => exact hstore h
  | sh rt imm rs => exact hstore h
  | sw rt imm rs => exact hstore h
  | _ => exact hreg h

/-- No instruction is refused. -/
theorem exec_not_refused (i : Instr) (s : State) (r : Refusal) : exec i s ≠ .refused r := by
  intro h
  have hload : ∀ {rt rs imm n u}, s.load rt rs imm n u ≠ .refused r := by
    intro rt rs imm n u; unfold State.load; split <;> simp
  have hstore : ∀ {rt rs imm n}, s.store rt rs imm n ≠ .refused r := by
    intro rt rs imm n; unfold State.store; split <;> simp
  cases i with
  | jr rs => simp only [exec, execJr] at h; split at h <;> cases h
  | lb rt imm rs => exact hload h
  | lh rt imm rs => exact hload h
  | lw rt imm rs => exact hload h
  | lbu rt imm rs => exact hload h
  | lhu rt imm rs => exact hload h
  | sb rt imm rs => exact hstore h
  | sh rt imm rs => exact hstore h
  | sw rt imm rs => exact hstore h
  | _ => cases h

end Sys2Proof.Machine
end

