-- ==== Sys2Proof/Laws/Cycle.lean ====
section
/-! SUPPORT. Everything one cycle and one step can do (spec/44_pipeline_engine.md R210, R212; spec/48_dual_issue.md). -/

namespace Sys2Proof.Machine

/-! ### The halt check -/

/-- The halt check leaves the state alone, or halts it on lane 1, or drains lane 1 and halts it on lane 2 (R318, R355). -/
theorem haltCheck_ok {s t : State} (h : s.haltCheck = .ok t) :
    (s.memwb.lane1.atEnd s.cfg = true ∧ t = s.halt) ∨
      (s.memwb.lane1.atEnd s.cfg = false ∧ (s.cfg.lanes = .one ∨ s.memwb.lane2.atEnd s.cfg = false) ∧ t = s) ∨
      (s.memwb.lane1.atEnd s.cfg = false ∧ s.cfg.lanes = .two ∧ s.memwb.lane2.atEnd s.cfg = true ∧
        ∃ r, writebackLane s.cfg ⟨s.regs, s.committed⟩ s.memwb.lane1 = .ok r ∧
          t = { s with regs := r.regs, committed := r.committed, run := .halted }) := by
  unfold State.haltCheck at h
  split at h
  · rename_i h1; exact .inl ⟨h1, (Except.ok.inj h).symm⟩
  · rename_i h1
    have h1 : s.memwb.lane1.atEnd s.cfg = false := by simpa using h1
    split at h
    · rename_i hl; exact .inr (.inl ⟨h1, .inl hl, (Except.ok.inj h).symm⟩)
    · rename_i hl
      split at h
      · rename_i h2
        split at h
        · cases h
        · rename_i u hu
          obtain rfl := Except.ok.inj h
          unfold State.drainLane1 at hu
          split at hu
          · cases hu
          · rename_i r hr
            obtain rfl := Except.ok.inj hu
            exact .inr (.inr ⟨h1, hl, h2, r, hr, rfl⟩)
      · rename_i h2; exact .inr (.inl ⟨h1, .inr (by simpa using h2), (Except.ok.inj h).symm⟩)

/-- What the halt check can change: the registers and the commit counter by the drain, and the run state. -/
theorem haltCheck_frame {s t : State} (h : s.haltCheck = .ok t) :
    t = { s with regs := t.regs, committed := t.committed, run := t.run } := by
  rcases haltCheck_ok h with ⟨-, rfl⟩ | ⟨-, -, rfl⟩ | ⟨-, -, -, r, -, rfl⟩ <;> rfl

/-! ### One cycle -/

/-- Inversion of a scalar cycle: Writeback, Memory and Execute each complete, then the latch update and the halt check
(R212). -/
theorem cycleScalar_ok {s t : State} (h : cycleScalar s = .ok t) :
    ∃ r y mem x, writebackLane s.cfg ⟨s.regs, s.committed⟩ s.memwb.lane1 = .ok r ∧
      memoryLane s.cfg s.mem s.exmem.lane1 = .ok (y, mem) ∧
      s.executeOn s.predictor s.idex.lane1 = .ok x ∧
      (scalarUpdate s r y mem x).haltCheck = .ok t := by
  unfold cycleScalar at h
  split at h
  · cases h
  · rename_i r hr
    split at h
    · cases h
    · rename_i y mem hm
      split at h
      · cases h
      · rename_i x hx; exact ⟨r, y, mem, x, hr, hm, hx, h⟩

theorem cycleScalar_of_ok {s : State} {r : Retired} {y : MemWb} {mem : Memory} {x : Executed}
    (hr : writebackLane s.cfg ⟨s.regs, s.committed⟩ s.memwb.lane1 = .ok r)
    (hm : memoryLane s.cfg s.mem s.exmem.lane1 = .ok (y, mem))
    (hx : s.executeOn s.predictor s.idex.lane1 = .ok x) :
    cycleScalar s = (scalarUpdate s r y mem x).haltCheck := by
  unfold cycleScalar; simp only [hr, hm, hx]

/-- Inversion of a dual-issue cycle (R311). -/
theorem cycleDual_ok {s t : State} (h : cycleDual s = .ok t) :
    ∃ r y mem x, writebackBoth s = .ok r ∧ memoryBoth s = .ok (y, mem) ∧ executeBoth s = .ok x ∧
      (dualUpdate s r y mem x).haltCheck = .ok t := by
  unfold cycleDual at h
  split at h
  · cases h
  · rename_i r hr
    split at h
    · cases h
    · rename_i y mem hm
      split at h
      · cases h
      · rename_i x hx; exact ⟨r, y, mem, x, hr, hm, hx, h⟩

theorem cycleDual_of_ok {s : State} {r : Retired} {y : Lanes MemWb} {mem : Memory} {x : ExecutedBoth}
    (hr : writebackBoth s = .ok r) (hm : memoryBoth s = .ok (y, mem)) (hx : executeBoth s = .ok x) :
    cycleDual s = (dualUpdate s r y mem x).haltCheck := by
  unfold cycleDual; simp only [hr, hm, hx]

/-- Inversion of Writeback of both lanes (R302). -/
theorem writebackBoth_ok {s : State} {r : Retired} (h : writebackBoth s = .ok r) :
    ∃ r1, writebackLane s.cfg ⟨s.regs, s.committed⟩ s.memwb.lane1 = .ok r1 ∧
      writebackLane s.cfg r1 s.memwb.lane2 = .ok r := by
  unfold writebackBoth at h
  split at h
  · cases h
  · rename_i r1 h1; exact ⟨r1, h1, h⟩

/-- Inversion of Memory of both lanes (R303). -/
theorem memoryBoth_ok {s : State} {y : Lanes MemWb} {mem : Memory} (h : memoryBoth s = .ok (y, mem)) :
    ∃ mem1, memoryLane s.cfg s.mem s.exmem.lane1 = .ok (y.lane1, mem1) ∧
      memoryLane s.cfg mem1 s.exmem.lane2 = .ok (y.lane2, mem) := by
  unfold memoryBoth at h
  split at h
  · cases h
  · rename_i y1 mem1 h1
    split at h
    · cases h
    · rename_i y2 mem2 h2
      obtain ⟨rfl, rfl⟩ := Prod.mk.inj (Except.ok.inj h)
      exact ⟨mem1, h1, h2⟩

/-- Inversion of Execute of both lanes: lane 1 redirects and squashes lane 2, or lane 2 executes behind it (R304). -/
theorem executeBoth_ok {s : State} {x : ExecutedBoth} (h : executeBoth s = .ok x) :
    ∃ x1, s.executeOn s.predictor s.idex.lane1 = .ok x1 ∧
      ((∃ target, x1.redirect = some target ∧
          x = { latches := ⟨x1.latch, ExMem.bubble⟩, redirect := some target, predictor := x1.predictor }) ∨
        (x1.redirect = none ∧ ∃ x2, s.executeOn x1.predictor s.idex.lane2 = .ok x2 ∧
          x = { latches := ⟨x1.latch, x2.latch⟩, redirect := x2.redirect, predictor := x2.predictor })) := by
  unfold executeBoth at h
  split at h
  · cases h
  · rename_i x1 h1
    refine ⟨x1, h1, ?_⟩
    split at h
    · rename_i target ht; exact .inl ⟨target, ht, (Except.ok.inj h).symm⟩
    · rename_i hn
      split at h
      · cases h
      · rename_i x2 h2; exact .inr ⟨hn, x2, h2, (Except.ok.inj h).symm⟩

/-- No cycle changes the parameters of the run, and each counts itself. -/
theorem cycle_frame {s t : State} (h : cycle s = .ok t) : t.cfg = s.cfg ∧ t.cycles = s.cycles + 1 := by
  unfold cycle at h
  split at h
  · obtain ⟨r, y, mem, x, -, -, -, hh⟩ := cycleScalar_ok h
    have := haltCheck_frame hh
    exact ⟨by rw [this]; rfl, by rw [this]; rfl⟩
  · obtain ⟨r, y, mem, x, -, -, -, hh⟩ := cycleDual_ok h
    have := haltCheck_frame hh
    exact ⟨by rw [this]; rfl, by rw [this]; rfl⟩

/-! ### One step -/

/-- Inversion of `SeqStep`: the run is over, or the decoded instruction completes (R210). -/
theorem seqStep_next {s t : State} (h : seqStep s = .next t) :
    (s.pc = s.cfg.endPC ∧ t = s.halt) ∨
      (s.pc ≠ s.cfg.endPC ∧ wordIndex s.pc < s.cfg.memWords ∧
        ∃ i u, decodeWord (fetchWord s.cfg s.mem s.pc) = .ok i ∧ exec i s = .next u ∧ t = u.countStep) := by
  unfold seqStep at h
  split at h
  · rename_i he; exact .inl ⟨he, (Host.Outcome.next.inj h).symm⟩
  · rename_i he
    split at h
    · cases h
    · rename_i hr
      split at h
      · cases h
      · rename_i i hi
        refine .inr ⟨he, by omega, i, ?_⟩
        cases hx : exec i s with
        | next u =>
          rw [hx] at h
          exact ⟨u, hi, rfl, (Host.Outcome.next.inj h).symm⟩
        | fault f => rw [hx] at h; cases h
        | refused r => rw [hx] at h; cases h

/-- Inversion of a step: halted and unchanged, an instruction of the single-cycle engine, or a cycle of the pipeline. -/
theorem step_next {s t : State} (h : step s = .next t) :
    (s.run = .halted ∧ t = s) ∨
      (s.run = .running ∧ s.cfg.engine = .singleCycle ∧ seqStep s = .next t) ∨
      (s.run = .running ∧ s.cfg.engine = .pipelined ∧ cycle s = .ok t) := by
  unfold step at h
  split at h
  · rename_i hr; exact .inl ⟨hr, (Host.Outcome.next.inj h).symm⟩
  · cases h
  · rename_i hr
    split at h
    · rename_i he; exact .inr (.inl ⟨hr, he, h⟩)
    · rename_i he
      refine .inr (.inr ⟨hr, he, ?_⟩)
      unfold outcomeOf at h
      split at h
      · rename_i u hu; rw [hu, Host.Outcome.next.inj h]
      · cases h

theorem step_pipelined {s : State} (hr : s.run = .running) (he : s.cfg.engine = .pipelined) :
    step s = outcomeOf (cycle s) := by simp [step, hr, he]

theorem step_singleCycle {s : State} (hr : s.run = .running) (he : s.cfg.engine = .singleCycle) :
    step s = seqStep s := by simp [step, hr, he]

/-- Inversion of a step of the running pipeline: what each stage produced, by lane count, before the halt check. -/
theorem pipelined_next {s t : State} (hr : s.run = .running) (he : s.cfg.engine = .pipelined) (h : step s = .next t) :
    (s.cfg.lanes = .one ∧ ∃ r y mem x, writebackLane s.cfg ⟨s.regs, s.committed⟩ s.memwb.lane1 = .ok r ∧
        memoryLane s.cfg s.mem s.exmem.lane1 = .ok (y, mem) ∧ s.executeOn s.predictor s.idex.lane1 = .ok x ∧
        (scalarUpdate s r y mem x).haltCheck = .ok t) ∨
      (s.cfg.lanes = .two ∧ ∃ r y mem x, writebackBoth s = .ok r ∧ memoryBoth s = .ok (y, mem) ∧
        executeBoth s = .ok x ∧ (dualUpdate s r y mem x).haltCheck = .ok t) := by
  rcases step_next h with ⟨hh, -⟩ | ⟨-, hh, -⟩ | ⟨-, -, hc⟩
  · rw [hr] at hh; cases hh
  · rw [he] at hh; cases hh
  · unfold cycle at hc
    split at hc
    · rename_i hl; exact .inl ⟨hl, cycleScalar_ok hc⟩
    · rename_i hl; exact .inr ⟨hl, cycleDual_ok hc⟩

/-- The latches, the PC, memory, the predictor and the cycle counter after the halt check are those before it. -/
theorem haltCheck_keeps {s t : State} (h : s.haltCheck = .ok t) :
    t.pc = s.pc ∧ t.mem = s.mem ∧ t.ifid = s.ifid ∧ t.idex = s.idex ∧ t.exmem = s.exmem ∧ t.memwb = s.memwb ∧
      t.predictor = s.predictor ∧ t.cycles = s.cycles ∧ t.cfg = s.cfg := by
  have := haltCheck_frame h
  refine ⟨?_, ?_, ?_, ?_, ?_, ?_, ?_, ?_, ?_⟩ <;> rw [this]

/-- A machine that still runs after the halt check is unchanged by it. -/
theorem haltCheck_running {s t : State} (h : s.haltCheck = .ok t) (hr : t.run = .running) : t = s := by
  rcases haltCheck_ok h with ⟨-, rfl⟩ | ⟨-, -, rfl⟩ | ⟨-, -, -, r, -, rfl⟩
  · cases hr
  · rfl
  · cases hr

end Sys2Proof.Machine
end

