-- ==== Sys2Proof/Laws/Front.lean ====
section
/-! SUPPORT. Everything a cycle of the pipeline can do to the latches, over both engines at once, so that an invariant
of the latches is a case analysis (spec/44_pipeline_engine.md R234; spec/48_dual_issue.md R311). -/

namespace Sys2Proof.Machine

/-- What becomes of `IFID` and `IDEX`, Decode having read `regs`: flushed; stalled; lane 2 held back; advanced. -/
inductive FrontCase (s : State) (regs : RegFile) (t : State) : Prop where
  | flush (idex : t.idex = ⟨IdEx.bubble, IdEx.bubble⟩) (ifid : t.ifid = ⟨IfId.bubble, IfId.bubble⟩)
  | stall (idex : t.idex = ⟨IdEx.bubble, IdEx.bubble⟩) (ifid : t.ifid = s.ifid)
  | split (lanes : s.cfg.lanes = .two) (idex : t.idex = ⟨decodeLane regs s.ifid.lane1, IdEx.bubble⟩)
      (ifid : t.ifid = ⟨IfId.bubble, s.ifid.lane2⟩)
      (go1 : stallLane1 ⟨decodeLane regs s.ifid.lane1, decodeLane regs s.ifid.lane2⟩ s.idex = false)
  | goOne (lanes : s.cfg.lanes = .one) (mem : Memory) (p : Predictor)
      (idex : t.idex = ⟨decodeLane regs s.ifid.lane1, IdEx.bubble⟩)
      (ifid : t.ifid = ⟨fetchLatch s.cfg mem p s.pc, IfId.bubble⟩)
      (go1 : loadUse (decodeLane regs s.ifid.lane1) s.idex.lane1 = false)
  | goTwo (lanes : s.cfg.lanes = .two) (mem : Memory) (p : Predictor)
      (idex : t.idex = ⟨decodeLane regs s.ifid.lane1, decodeLane regs s.ifid.lane2⟩)
      (ifid : t.ifid = ⟨fetchLatch s.cfg mem p s.pc, IfId.bubble⟩ ∨
        t.ifid = ⟨fetchLatch s.cfg mem p s.pc, fetchLatch s.cfg mem p (nextPc s.pc)⟩)
      (go1 : stallLane1 ⟨decodeLane regs s.ifid.lane1, decodeLane regs s.ifid.lane2⟩ s.idex = false)
      (go2 : stallLane2 ⟨decodeLane regs s.ifid.lane1, decodeLane regs s.ifid.lane2⟩ s.idex = false)

/-- `EXMEM` holds nothing, or what Execute made of `e`. -/
def ExMoved (e : IdEx) (m : ExMem) : Prop := m = ExMem.bubble ∨ (e.empty = false ∧ ∃ a b, m = e.toExMem a b)

/-- `MEMWB` holds what Memory made of `m`. -/
def MemMoved (m : ExMem) (w : MemWb) : Prop :=
  (m.empty = true ∧ w = MemWb.bubble) ∨
    (m.empty = false ∧ ∃ d, (m.ctrl.memRead = false → d = 0#32) ∧ w = m.toMemWb d)

/-- Everything a cycle from `s` to `t` does to the latches; Decode read `regs`. -/
structure Moved (s t : State) (regs : RegFile) : Prop where
  cfg        : t.cfg = s.cfg
  exmem1     : ExMoved s.idex.lane1 t.exmem.lane1
  exmem2     : ExMoved s.idex.lane2 t.exmem.lane2
  exmem2one  : s.cfg.lanes = .one → t.exmem.lane2 = ExMem.bubble
  memwb1     : MemMoved s.exmem.lane1 t.memwb.lane1
  memwb2     : (s.cfg.lanes = .one ∧ t.memwb.lane2 = MemWb.bubble) ∨ MemMoved s.exmem.lane2 t.memwb.lane2
  front      : FrontCase s regs t
  jump       : t.exmem.Both (fun m => m.empty = true ∨ m.ctrl.jump = false) ∨
    (t.idex = ⟨IdEx.bubble, IdEx.bubble⟩ ∧ t.ifid = ⟨IfId.bubble, IfId.bubble⟩)
  regs       : t.run = .running → t.regs = regs

theorem exMoved_of_ok {s : State} {p : Predictor} {e : IdEx} {x : Executed} (h : s.executeOn p e = .ok x) :
    ExMoved e x.latch := by
  rcases executeLane_ok h with ⟨-, rfl⟩ | ⟨he, -, hl, -⟩
  · exact .inl rfl
  · exact .inr ⟨he, _, _, hl⟩

theorem memMoved_of_ok {cfg : RunConfig} {mem mem' : Memory} {m : ExMem} {y : MemWb}
    (h : memoryLane cfg mem m = .ok (y, mem')) : MemMoved m y := by
  rcases memoryLane_ok h with ⟨he, rfl, -⟩ | ⟨he, -, d, hd, -, rfl⟩
  · exact .inl ⟨he, rfl⟩
  · refine .inr ⟨he, d, fun hm => ?_, rfl⟩
    simp [loadStage, hm] at hd; exact hd.symm

/-- A jump that leaves Execute redirects. -/
theorem redirect_of_jump {s : State} {p : Predictor} {e : IdEx} {x : Executed} (h : s.executeOn p e = .ok x)
    (hc : e.ctrl.jump = true → e.ctrl.branch = false) :
    (x.latch.empty = true ∨ x.latch.ctrl.jump = false) ∨ ∃ target, x.redirect = some target := by
  rcases executeLane_ok h with ⟨-, rfl⟩ | ⟨-, hr, hl, -⟩
  · exact .inl (.inl rfl)
  · cases hj : e.ctrl.jump
    · exact .inl (.inr (by rw [hl]; exact hj))
    · simp [executeRedirect, hc hj, hj] at hr
      exact .inr ⟨_, hr.symm⟩

/-- The front end of a scalar cycle. -/
theorem scalarFront_cases {s : State} {regs : RegFile} {mem : Memory} {x : Executed} {t : State}
    (hl : s.cfg.lanes = .one) (hd : t.idex = (scalarFront s regs mem x).idex)
    (hf : t.ifid = (scalarFront s regs mem x).ifid) :
    FrontCase s regs t ∧ ((∃ target, x.redirect = some target) →
      t.idex = ⟨IdEx.bubble, IdEx.bubble⟩ ∧ t.ifid = ⟨IfId.bubble, IfId.bubble⟩) := by
  unfold scalarFront at hd hf
  cases hx : x.redirect with
  | some target => simp only [hx] at hd hf; exact ⟨.flush hd hf, fun _ => ⟨hd, hf⟩⟩
  | none =>
    refine ⟨?_, fun ⟨_, h⟩ => by cases h⟩
    simp only [hx] at hd hf
    cases hu : loadUse (decodeLane regs s.ifid.lane1) s.idex.lane1
    · rw [hu, if_neg (by decide)] at hd hf; exact .goOne hl _ _ hd hf hu
    · rw [hu, if_pos rfl] at hd hf; exact .stall hd hf

/-- The front end of a dual-issue cycle. -/
theorem dualFront_cases {s : State} {regs : RegFile} {mem : Memory} {redirect : Option Word} {p : Predictor}
    {t : State} (hl : s.cfg.lanes = .two) (hd : t.idex = (dualFront s regs mem redirect p).idex)
    (hf : t.ifid = (dualFront s regs mem redirect p).ifid) :
    FrontCase s regs t ∧ ((∃ target, redirect = some target) →
      t.idex = ⟨IdEx.bubble, IdEx.bubble⟩ ∧ t.ifid = ⟨IfId.bubble, IfId.bubble⟩) := by
  unfold dualFront at hd hf
  cases redirect with
  | some target => exact ⟨.flush hd hf, fun _ => ⟨hd, hf⟩⟩
  | none =>
    refine ⟨?_, fun ⟨_, h⟩ => by cases h⟩
    simp only at hd hf
    split at hd
    · rename_i h1; rw [if_pos h1] at hf; exact .stall hd hf
    · rename_i h1
      rw [if_neg h1] at hf
      split at hd
      · rename_i h2; rw [if_pos h2] at hf; exact .split hl hd hf (by simpa using h1)
      · rename_i h2
        rw [if_neg h2] at hf
        refine .goTwo hl mem p hd ?_ (by simpa using h1) (by simpa using h2)
        unfold fetchBoth at hf
        cases hp : (fetchLatch s.cfg mem p s.pc).pred
        · right; simpa [hp] using hf
        · left; simpa [hp] using hf

/-- Inversion of a cycle, for the latches. -/
theorem pipelined_moved {s t : State} (hr : s.run = .running) (he : s.cfg.engine = .pipelined)
    (hc : s.idex.Both (fun e => e.ctrl.jump = true → e.ctrl.branch = false)) (h : step s = .next t) :
    ∃ regs, Moved s t regs := by
  rcases pipelined_next hr he h with ⟨hl, r, y, mem, x, -, h2, h3, hh⟩ | ⟨hl, r, y, mem, x, -, h2, h3, hh⟩
  · obtain ⟨-, -, kf, kd, kx, kw, -, -, kc⟩ := haltCheck_keeps hh
    have kx : t.exmem = ⟨x.latch, ExMem.bubble⟩ := kx
    have kw : t.memwb = ⟨y, MemWb.bubble⟩ := kw
    have F := scalarFront_cases (x := x) (mem := mem) (regs := r.regs) hl kd kf
    refine ⟨r.regs, kc, by rw [kx]; exact exMoved_of_ok h3, by rw [kx]; exact .inl rfl, fun _ => by rw [kx],
      by rw [kw]; exact memMoved_of_ok h2, .inl ⟨hl, by rw [kw]⟩, F.1, ?_, fun hrun => ?_⟩
    · rcases redirect_of_jump h3 hc.1 with hj | hj
      · exact .inl (by rw [kx]; exact ⟨hj, .inl rfl⟩)
      · exact .inr (F.2 hj)
    · rw [haltCheck_running hh hrun]; rfl
  · obtain ⟨-, -, kf, kd, kx, kw, -, -, kc⟩ := haltCheck_keeps hh
    have kx : t.exmem = x.latches := kx
    have kw : t.memwb = y := kw
    have F := dualFront_cases (mem := mem) (regs := r.regs) hl kd kf
    obtain ⟨mem1, a, b⟩ := memoryBoth_ok h2
    obtain ⟨x1, e1, e2⟩ := executeBoth_ok h3
    have X : ExMoved s.idex.lane1 x.latches.lane1 ∧ ExMoved s.idex.lane2 x.latches.lane2 := by
      rcases e2 with ⟨_, -, rfl⟩ | ⟨-, x2, e2, rfl⟩
      · exact ⟨exMoved_of_ok e1, .inl rfl⟩
      · exact ⟨exMoved_of_ok e1, exMoved_of_ok e2⟩
    refine ⟨r.regs, kc, by rw [kx]; exact X.1, by rw [kx]; exact X.2, fun h => absurd (hl.symm.trans h) (by decide),
      by rw [kw]; exact memMoved_of_ok a, .inr (by rw [kw]; exact memMoved_of_ok b), F.1, ?_, fun hrun => ?_⟩
    · rw [kx]
      rcases e2 with ⟨target, -, rfl⟩ | ⟨hn, x2, e2, rfl⟩
      · exact .inr (F.2 ⟨target, rfl⟩)
      · rcases redirect_of_jump e2 hc.2 with j2 | j2
        · rcases redirect_of_jump e1 hc.1 with j1 | ⟨target, j1⟩
          · exact .inl ⟨j1, j2⟩
          · rw [hn] at j1; cases j1
        · exact .inr (F.2 j2)
    · rw [haltCheck_running hh hrun]; rfl

end Sys2Proof.Machine
end

