-- ==== Sys2Proof/Laws/PerInstr.lean ====
section
/-! SUPPORT. One lemma per constructor of `Instr`: the word the encoder writes has the opcode and the function code of
the instruction's row, and every operand in its field (R81 to R84, R86, R87, R91). -/

namespace Sys2Proof.Laws.EncodedFields

/-- The encoding of `i` holds its opcode, its function code and each operand where R81 places it. -/
def Statement (i : Instr) : Prop := i.FieldsIn (encode i)

theorem sll (rd : Reg) (rt : Reg) (shamt : BitVec 5) : Statement (.sll rd rt shamt) :=
  ⟨opcodeOf_encodeR _ _ _ _ _, functOf_encodeR _ _ _ _ _, (rdOf_encodeR _ _ _ _ _).symm, (rtOf_encodeR _ _ _ _ _).symm, (shamtOf_encodeR _ _ _ _ _).symm⟩
theorem srl (rd : Reg) (rt : Reg) (shamt : BitVec 5) : Statement (.srl rd rt shamt) :=
  ⟨opcodeOf_encodeR _ _ _ _ _, functOf_encodeR _ _ _ _ _, (rdOf_encodeR _ _ _ _ _).symm, (rtOf_encodeR _ _ _ _ _).symm, (shamtOf_encodeR _ _ _ _ _).symm⟩
theorem sra (rd : Reg) (rt : Reg) (shamt : BitVec 5) : Statement (.sra rd rt shamt) :=
  ⟨opcodeOf_encodeR _ _ _ _ _, functOf_encodeR _ _ _ _ _, (rdOf_encodeR _ _ _ _ _).symm, (rtOf_encodeR _ _ _ _ _).symm, (shamtOf_encodeR _ _ _ _ _).symm⟩
theorem jr (rs : Reg) : Statement (.jr rs) :=
  ⟨opcodeOf_encodeR _ _ _ _ _, functOf_encodeR _ _ _ _ _, (rsOf_encodeR _ _ _ _ _).symm⟩
theorem add (rd : Reg) (rs : Reg) (rt : Reg) : Statement (.add rd rs rt) :=
  ⟨opcodeOf_encodeR _ _ _ _ _, functOf_encodeR _ _ _ _ _, (rdOf_encodeR _ _ _ _ _).symm, (rsOf_encodeR _ _ _ _ _).symm, (rtOf_encodeR _ _ _ _ _).symm⟩
theorem addu (rd : Reg) (rs : Reg) (rt : Reg) : Statement (.addu rd rs rt) :=
  ⟨opcodeOf_encodeR _ _ _ _ _, functOf_encodeR _ _ _ _ _, (rdOf_encodeR _ _ _ _ _).symm, (rsOf_encodeR _ _ _ _ _).symm, (rtOf_encodeR _ _ _ _ _).symm⟩
theorem sub (rd : Reg) (rs : Reg) (rt : Reg) : Statement (.sub rd rs rt) :=
  ⟨opcodeOf_encodeR _ _ _ _ _, functOf_encodeR _ _ _ _ _, (rdOf_encodeR _ _ _ _ _).symm, (rsOf_encodeR _ _ _ _ _).symm, (rtOf_encodeR _ _ _ _ _).symm⟩
theorem subu (rd : Reg) (rs : Reg) (rt : Reg) : Statement (.subu rd rs rt) :=
  ⟨opcodeOf_encodeR _ _ _ _ _, functOf_encodeR _ _ _ _ _, (rdOf_encodeR _ _ _ _ _).symm, (rsOf_encodeR _ _ _ _ _).symm, (rtOf_encodeR _ _ _ _ _).symm⟩
theorem and (rd : Reg) (rs : Reg) (rt : Reg) : Statement (.and rd rs rt) :=
  ⟨opcodeOf_encodeR _ _ _ _ _, functOf_encodeR _ _ _ _ _, (rdOf_encodeR _ _ _ _ _).symm, (rsOf_encodeR _ _ _ _ _).symm, (rtOf_encodeR _ _ _ _ _).symm⟩
theorem or (rd : Reg) (rs : Reg) (rt : Reg) : Statement (.or rd rs rt) :=
  ⟨opcodeOf_encodeR _ _ _ _ _, functOf_encodeR _ _ _ _ _, (rdOf_encodeR _ _ _ _ _).symm, (rsOf_encodeR _ _ _ _ _).symm, (rtOf_encodeR _ _ _ _ _).symm⟩
theorem xor (rd : Reg) (rs : Reg) (rt : Reg) : Statement (.xor rd rs rt) :=
  ⟨opcodeOf_encodeR _ _ _ _ _, functOf_encodeR _ _ _ _ _, (rdOf_encodeR _ _ _ _ _).symm, (rsOf_encodeR _ _ _ _ _).symm, (rtOf_encodeR _ _ _ _ _).symm⟩
theorem nor (rd : Reg) (rs : Reg) (rt : Reg) : Statement (.nor rd rs rt) :=
  ⟨opcodeOf_encodeR _ _ _ _ _, functOf_encodeR _ _ _ _ _, (rdOf_encodeR _ _ _ _ _).symm, (rsOf_encodeR _ _ _ _ _).symm, (rtOf_encodeR _ _ _ _ _).symm⟩
theorem slt (rd : Reg) (rs : Reg) (rt : Reg) : Statement (.slt rd rs rt) :=
  ⟨opcodeOf_encodeR _ _ _ _ _, functOf_encodeR _ _ _ _ _, (rdOf_encodeR _ _ _ _ _).symm, (rsOf_encodeR _ _ _ _ _).symm, (rtOf_encodeR _ _ _ _ _).symm⟩
theorem sltu (rd : Reg) (rs : Reg) (rt : Reg) : Statement (.sltu rd rs rt) :=
  ⟨opcodeOf_encodeR _ _ _ _ _, functOf_encodeR _ _ _ _ _, (rdOf_encodeR _ _ _ _ _).symm, (rsOf_encodeR _ _ _ _ _).symm, (rtOf_encodeR _ _ _ _ _).symm⟩
theorem j (index : BitVec 26) : Statement (.j index) :=
  ⟨opcodeOf_encodeJ _ _, (indexOf_encodeJ _ _).symm⟩
theorem jal (index : BitVec 26) : Statement (.jal index) :=
  ⟨opcodeOf_encodeJ _ _, (indexOf_encodeJ _ _).symm⟩
theorem beq (rs : Reg) (rt : Reg) (imm : BitVec 16) : Statement (.beq rs rt imm) :=
  ⟨opcodeOf_encodeI _ _ _ _, (rsOf_encodeI _ _ _ _).symm, (rtOf_encodeI _ _ _ _).symm, (immOf_encodeI _ _ _ _).symm⟩
theorem bne (rs : Reg) (rt : Reg) (imm : BitVec 16) : Statement (.bne rs rt imm) :=
  ⟨opcodeOf_encodeI _ _ _ _, (rsOf_encodeI _ _ _ _).symm, (rtOf_encodeI _ _ _ _).symm, (immOf_encodeI _ _ _ _).symm⟩
theorem addi (rt : Reg) (rs : Reg) (imm : BitVec 16) : Statement (.addi rt rs imm) :=
  ⟨opcodeOf_encodeI _ _ _ _, (rtOf_encodeI _ _ _ _).symm, (rsOf_encodeI _ _ _ _).symm, (immOf_encodeI _ _ _ _).symm⟩
theorem addiu (rt : Reg) (rs : Reg) (imm : BitVec 16) : Statement (.addiu rt rs imm) :=
  ⟨opcodeOf_encodeI _ _ _ _, (rtOf_encodeI _ _ _ _).symm, (rsOf_encodeI _ _ _ _).symm, (immOf_encodeI _ _ _ _).symm⟩
theorem slti (rt : Reg) (rs : Reg) (imm : BitVec 16) : Statement (.slti rt rs imm) :=
  ⟨opcodeOf_encodeI _ _ _ _, (rtOf_encodeI _ _ _ _).symm, (rsOf_encodeI _ _ _ _).symm, (immOf_encodeI _ _ _ _).symm⟩
theorem sltiu (rt : Reg) (rs : Reg) (imm : BitVec 16) : Statement (.sltiu rt rs imm) :=
  ⟨opcodeOf_encodeI _ _ _ _, (rtOf_encodeI _ _ _ _).symm, (rsOf_encodeI _ _ _ _).symm, (immOf_encodeI _ _ _ _).symm⟩
theorem andi (rt : Reg) (rs : Reg) (imm : BitVec 16) : Statement (.andi rt rs imm) :=
  ⟨opcodeOf_encodeI _ _ _ _, (rtOf_encodeI _ _ _ _).symm, (rsOf_encodeI _ _ _ _).symm, (immOf_encodeI _ _ _ _).symm⟩
theorem ori (rt : Reg) (rs : Reg) (imm : BitVec 16) : Statement (.ori rt rs imm) :=
  ⟨opcodeOf_encodeI _ _ _ _, (rtOf_encodeI _ _ _ _).symm, (rsOf_encodeI _ _ _ _).symm, (immOf_encodeI _ _ _ _).symm⟩
theorem lui (rt : Reg) (imm : BitVec 16) : Statement (.lui rt imm) :=
  ⟨opcodeOf_encodeI _ _ _ _, (rtOf_encodeI _ _ _ _).symm, (immOf_encodeI _ _ _ _).symm⟩
theorem lb (rt : Reg) (imm : BitVec 16) (rs : Reg) : Statement (.lb rt imm rs) :=
  ⟨opcodeOf_encodeI _ _ _ _, (rtOf_encodeI _ _ _ _).symm, (immOf_encodeI _ _ _ _).symm, (rsOf_encodeI _ _ _ _).symm⟩
theorem lh (rt : Reg) (imm : BitVec 16) (rs : Reg) : Statement (.lh rt imm rs) :=
  ⟨opcodeOf_encodeI _ _ _ _, (rtOf_encodeI _ _ _ _).symm, (immOf_encodeI _ _ _ _).symm, (rsOf_encodeI _ _ _ _).symm⟩
theorem lw (rt : Reg) (imm : BitVec 16) (rs : Reg) : Statement (.lw rt imm rs) :=
  ⟨opcodeOf_encodeI _ _ _ _, (rtOf_encodeI _ _ _ _).symm, (immOf_encodeI _ _ _ _).symm, (rsOf_encodeI _ _ _ _).symm⟩
theorem lbu (rt : Reg) (imm : BitVec 16) (rs : Reg) : Statement (.lbu rt imm rs) :=
  ⟨opcodeOf_encodeI _ _ _ _, (rtOf_encodeI _ _ _ _).symm, (immOf_encodeI _ _ _ _).symm, (rsOf_encodeI _ _ _ _).symm⟩
theorem lhu (rt : Reg) (imm : BitVec 16) (rs : Reg) : Statement (.lhu rt imm rs) :=
  ⟨opcodeOf_encodeI _ _ _ _, (rtOf_encodeI _ _ _ _).symm, (immOf_encodeI _ _ _ _).symm, (rsOf_encodeI _ _ _ _).symm⟩
theorem sb (rt : Reg) (imm : BitVec 16) (rs : Reg) : Statement (.sb rt imm rs) :=
  ⟨opcodeOf_encodeI _ _ _ _, (rtOf_encodeI _ _ _ _).symm, (immOf_encodeI _ _ _ _).symm, (rsOf_encodeI _ _ _ _).symm⟩
theorem sh (rt : Reg) (imm : BitVec 16) (rs : Reg) : Statement (.sh rt imm rs) :=
  ⟨opcodeOf_encodeI _ _ _ _, (rtOf_encodeI _ _ _ _).symm, (immOf_encodeI _ _ _ _).symm, (rsOf_encodeI _ _ _ _).symm⟩
theorem sw (rt : Reg) (imm : BitVec 16) (rs : Reg) : Statement (.sw rt imm rs) :=
  ⟨opcodeOf_encodeI _ _ _ _, (rtOf_encodeI _ _ _ _).symm, (immOf_encodeI _ _ _ _).symm, (rsOf_encodeI _ _ _ _).symm⟩

end Sys2Proof.Laws.EncodedFields

namespace Sys2Proof

/-- Every instruction's encoding holds its fields. -/
theorem Instr.fieldsIn_encode : ∀ i : Instr, i.FieldsIn (encode i)
  | .sll rd rt shamt => Laws.EncodedFields.sll rd rt shamt
  | .srl rd rt shamt => Laws.EncodedFields.srl rd rt shamt
  | .sra rd rt shamt => Laws.EncodedFields.sra rd rt shamt
  | .jr rs => Laws.EncodedFields.jr rs
  | .add rd rs rt => Laws.EncodedFields.add rd rs rt
  | .addu rd rs rt => Laws.EncodedFields.addu rd rs rt
  | .sub rd rs rt => Laws.EncodedFields.sub rd rs rt
  | .subu rd rs rt => Laws.EncodedFields.subu rd rs rt
  | .and rd rs rt => Laws.EncodedFields.and rd rs rt
  | .or rd rs rt => Laws.EncodedFields.or rd rs rt
  | .xor rd rs rt => Laws.EncodedFields.xor rd rs rt
  | .nor rd rs rt => Laws.EncodedFields.nor rd rs rt
  | .slt rd rs rt => Laws.EncodedFields.slt rd rs rt
  | .sltu rd rs rt => Laws.EncodedFields.sltu rd rs rt
  | .j index => Laws.EncodedFields.j index
  | .jal index => Laws.EncodedFields.jal index
  | .beq rs rt imm => Laws.EncodedFields.beq rs rt imm
  | .bne rs rt imm => Laws.EncodedFields.bne rs rt imm
  | .addi rt rs imm => Laws.EncodedFields.addi rt rs imm
  | .addiu rt rs imm => Laws.EncodedFields.addiu rt rs imm
  | .slti rt rs imm => Laws.EncodedFields.slti rt rs imm
  | .sltiu rt rs imm => Laws.EncodedFields.sltiu rt rs imm
  | .andi rt rs imm => Laws.EncodedFields.andi rt rs imm
  | .ori rt rs imm => Laws.EncodedFields.ori rt rs imm
  | .lui rt imm => Laws.EncodedFields.lui rt imm
  | .lb rt imm rs => Laws.EncodedFields.lb rt imm rs
  | .lh rt imm rs => Laws.EncodedFields.lh rt imm rs
  | .lw rt imm rs => Laws.EncodedFields.lw rt imm rs
  | .lbu rt imm rs => Laws.EncodedFields.lbu rt imm rs
  | .lhu rt imm rs => Laws.EncodedFields.lhu rt imm rs
  | .sb rt imm rs => Laws.EncodedFields.sb rt imm rs
  | .sh rt imm rs => Laws.EncodedFields.sh rt imm rs
  | .sw rt imm rs => Laws.EncodedFields.sw rt imm rs

end Sys2Proof
end

