-- ==== Sys2Proof/Tests/Slice0.lean ====
section
/-! SUPPORT. Tests of the definitions on small inputs. Expected values come from the spec: the encoding lines and worked
examples of files 40 to 43, R54, R297 and the rules cited. The `witness_` theorems meet the hypotheses of an
obligation. -/

namespace Sys2Proof.Tests
open Sys2Proof Sys2Proof.Machine

set_option Elab.async false

/-! ### Helpers -/

/-- The state a step answers, if it answers one. -/
def nextOf : Host.Outcome State Fault Refusal → Option State
  | .next t    => some t
  | .fault _   => none
  | .refused _ => none

/-- The fault a step answers, if it answers one. -/
def faultOf : Host.Outcome State Fault Refusal → Option Fault
  | .next _    => none
  | .fault f   => some f
  | .refused _ => none

theorem next_of_some {o : Host.Outcome State Fault Refusal} {t : State} (h : nextOf o = some t) : o = .next t := by
  cases o <;> simp_all [nextOf]

theorem steps {s : State} (h : (nextOf (step s)).isSome = true) : step s = .next (tick s) := by
  unfold tick
  cases hs : step s <;> simp_all [nextOf]

theorem fault_of_some {o : Host.Outcome State Fault Refusal} {f : Fault} (h : faultOf o = some f) : o = .fault f := by
  cases o <;> simp_all [faultOf]

/-- A state at `pc` with `x[1]`, `x[2]`, memory of 256 words holding the listed words, under a byte order. -/
def at_ (bo : ByteOrder) (pc x1 x2 : Word) (words : List (Nat × Word)) : State :=
  { State.reset with
    pc   := pc
    regs := (State.reset.regs.write 1#5 x1).write 2#5 x2
    mem  := words.foldl (fun m p => m.setWord bo p.1 p.2) []
    cfg  := { RunConfig.atReset with byteOrder := bo, memWords := 256 } }

/-- `x[r]` after one step that runs the word `w`. -/
def regAfter (s : State) (w : Nat) (r : Reg) : Option Word := (nextOf (step (s.withFetchWord 32 w))).map (·.reg r)

/-- The pc after one step that runs the word `w`. -/
def pcAfter (s : State) (w : Nat) : Option Word := (nextOf (step (s.withFetchWord 32 w))).map (·.pc)

/-- `MemWord[k]` after one step that runs the word `w`. -/
def wordAfter (s : State) (w k : Nat) : Option Word :=
  (nextOf (step (s.withFetchWord 32 w))).map (fun t => t.mem.word t.cfg.byteOrder k)

/-- The fault of one step that runs the word `w`. -/
def faultAfter (s : State) (w : Nat) : Option Fault := faultOf (step (s.withFetchWord 32 w))

/-! ### WellFormed: an ill-formed line for each check is refused (R91) -/

theorem test_wf_register : (Asm.regs .add 32 1 2).wellFormed 0#32 = false := by decide
theorem test_wf_register_jr : (Asm.jr 32).wellFormed 0#32 = false := by decide
theorem test_wf_shamt : (Asm.shift .sll 2 1 32).wellFormed 0#32 = false := by decide
theorem test_wf_signed_high : (Asm.signedImm .addi 1 0 32768).wellFormed 0#32 = false := by decide
theorem test_wf_signed_low : (Asm.signedImm .sltiu 1 0 (-32769)).wellFormed 0#32 = false := by decide
theorem test_wf_unsigned : (Asm.unsignedImm .ori 1 0 65536).wellFormed 0#32 = false := by decide
theorem test_wf_lui : (Asm.lui 1 65536).wellFormed 0#32 = false := by decide
theorem test_wf_offset : (Asm.mem .lw 1 32768 0).wellFormed 0#32 = false := by decide
theorem test_wf_target_alignment : (Asm.branch .beq 1 2 6).wellFormed 0#32 = false := by decide
theorem test_wf_target_range : (Asm.jump .j (2 ^ 32)).wellFormed 0#32 = false := by decide
theorem test_wf_branch_reach : (Asm.branch .bne 1 2 0x20004).wellFormed 0#32 = false := by decide
theorem test_wf_jump_region : (Asm.jump .jal 0x10000000).wellFormed 0#32 = false := by decide
theorem test_wf_accepts : (Asm.branch .bne 1 2 0x20000).wellFormed 0#32 = true ∧
    (Asm.mem .sw 31 (-32768) 31).wellFormed 0#32 = true ∧ (Asm.jump .j 0x0FFFFFFC).wellFormed 0#32 = true ∧
    (Asm.unsignedImm .andi 0 0 65535).wellFormed 0#32 = true ∧ Asm.nop.wellFormed 0#32 = true := by decide

/-! ### Decoding: each instruction's word, written out field by field from its encoding line -/

theorem test_decode_sll : decodeWord (0b000000#6 ++ 0b00000#5 ++ 0b00001#5 ++ 0b00010#5 ++ 0b00100#5 ++ 0b000000#6) = .ok (.sll 2#5 1#5 4#5) := by decide
theorem test_decode_srl : decodeWord (0b000000#6 ++ 0b11111#5 ++ 0b00001#5 ++ 0b00010#5 ++ 0b00100#5 ++ 0b000010#6) = .ok (.srl 2#5 1#5 4#5) := by decide
theorem test_decode_sra : decodeWord (0b000000#6 ++ 0b00000#5 ++ 0b00001#5 ++ 0b00010#5 ++ 0b11111#5 ++ 0b000011#6) = .ok (.sra 2#5 1#5 31#5) := by decide
theorem test_decode_add : decodeWord (0b000000#6 ++ 0b00001#5 ++ 0b00010#5 ++ 0b00011#5 ++ 0b00000#5 ++ 0b100000#6) = .ok (.add 3#5 1#5 2#5) := by decide
theorem test_decode_addu : decodeWord (0b000000#6 ++ 0b00001#5 ++ 0b00010#5 ++ 0b00011#5 ++ 0b00000#5 ++ 0b100001#6) = .ok (.addu 3#5 1#5 2#5) := by decide
theorem test_decode_sub : decodeWord (0b000000#6 ++ 0b00001#5 ++ 0b00010#5 ++ 0b00011#5 ++ 0b00000#5 ++ 0b100010#6) = .ok (.sub 3#5 1#5 2#5) := by decide
theorem test_decode_subu : decodeWord (0b000000#6 ++ 0b00001#5 ++ 0b00010#5 ++ 0b00011#5 ++ 0b00000#5 ++ 0b100011#6) = .ok (.subu 3#5 1#5 2#5) := by decide
theorem test_decode_and : decodeWord (0b000000#6 ++ 0b00001#5 ++ 0b00010#5 ++ 0b00011#5 ++ 0b00000#5 ++ 0b100100#6) = .ok (.and 3#5 1#5 2#5) := by decide
theorem test_decode_or : decodeWord (0b000000#6 ++ 0b00001#5 ++ 0b00010#5 ++ 0b00011#5 ++ 0b00000#5 ++ 0b100101#6) = .ok (.or 3#5 1#5 2#5) := by decide
theorem test_decode_xor : decodeWord (0b000000#6 ++ 0b00001#5 ++ 0b00010#5 ++ 0b00011#5 ++ 0b00000#5 ++ 0b100110#6) = .ok (.xor 3#5 1#5 2#5) := by decide
theorem test_decode_nor : decodeWord (0b000000#6 ++ 0b00001#5 ++ 0b00010#5 ++ 0b00011#5 ++ 0b00000#5 ++ 0b100111#6) = .ok (.nor 3#5 1#5 2#5) := by decide
theorem test_decode_slt : decodeWord (0b000000#6 ++ 0b00001#5 ++ 0b00010#5 ++ 0b00011#5 ++ 0b00000#5 ++ 0b101010#6) = .ok (.slt 3#5 1#5 2#5) := by decide
theorem test_decode_sltu : decodeWord (0b000000#6 ++ 0b00001#5 ++ 0b00010#5 ++ 0b00011#5 ++ 0b00000#5 ++ 0b101011#6) = .ok (.sltu 3#5 1#5 2#5) := by decide
theorem test_decode_jr : decodeWord (0b000000#6 ++ 0b11111#5 ++ 0b00111#5 ++ 0b00000#5 ++ 0b00001#5 ++ 0b001000#6) = .ok (.jr 31#5) := by decide
theorem test_decode_j : decodeWord (0b000010#6 ++ 0b00000000000000000000010000#26) = .ok (.j 16#26) := by decide
theorem test_decode_jal : decodeWord (0b000011#6 ++ 0b10000000000000000000000001#26) = .ok (.jal 0x2000001#26) := by decide
theorem test_decode_beq : decodeWord (0b000100#6 ++ 0b00001#5 ++ 0b00010#5 ++ 0b1111111111111101#16) = .ok (.beq 1#5 2#5 0xFFFD#16) := by decide
theorem test_decode_bne : decodeWord (0b000101#6 ++ 0b00001#5 ++ 0b00010#5 ++ 0b1111111111111101#16) = .ok (.bne 1#5 2#5 0xFFFD#16) := by decide
theorem test_decode_addi : decodeWord (0b001000#6 ++ 0b00010#5 ++ 0b00001#5 ++ 0b1000000000000001#16) = .ok (.addi 1#5 2#5 0x8001#16) := by decide
theorem test_decode_addiu : decodeWord (0b001001#6 ++ 0b00010#5 ++ 0b00001#5 ++ 0b1000000000000001#16) = .ok (.addiu 1#5 2#5 0x8001#16) := by decide
theorem test_decode_slti : decodeWord (0b001010#6 ++ 0b00010#5 ++ 0b00001#5 ++ 0b1000000000000001#16) = .ok (.slti 1#5 2#5 0x8001#16) := by decide
theorem test_decode_sltiu : decodeWord (0b001011#6 ++ 0b00010#5 ++ 0b00001#5 ++ 0b1000000000000001#16) = .ok (.sltiu 1#5 2#5 0x8001#16) := by decide
theorem test_decode_andi : decodeWord (0b001100#6 ++ 0b00010#5 ++ 0b00001#5 ++ 0b1000000000000001#16) = .ok (.andi 1#5 2#5 0x8001#16) := by decide
theorem test_decode_ori : decodeWord (0b001101#6 ++ 0b00010#5 ++ 0b00001#5 ++ 0b1000000000000001#16) = .ok (.ori 1#5 2#5 0x8001#16) := by decide
theorem test_decode_lui : decodeWord (0b001111#6 ++ 0b01001#5 ++ 0b00001#5 ++ 0b0001001000110100#16) = .ok (.lui 1#5 0x1234#16) := by decide
theorem test_decode_lb : decodeWord (0b100000#6 ++ 0b00010#5 ++ 0b00001#5 ++ 0b1111111111111110#16) = .ok (.lb 1#5 0xFFFE#16 2#5) := by decide
theorem test_decode_lh : decodeWord (0b100001#6 ++ 0b00010#5 ++ 0b00001#5 ++ 0b1111111111111110#16) = .ok (.lh 1#5 0xFFFE#16 2#5) := by decide
theorem test_decode_lw : decodeWord (0b100011#6 ++ 0b00010#5 ++ 0b00001#5 ++ 0b1111111111111110#16) = .ok (.lw 1#5 0xFFFE#16 2#5) := by decide
theorem test_decode_lbu : decodeWord (0b100100#6 ++ 0b00010#5 ++ 0b00001#5 ++ 0b1111111111111110#16) = .ok (.lbu 1#5 0xFFFE#16 2#5) := by decide
theorem test_decode_lhu : decodeWord (0b100101#6 ++ 0b00010#5 ++ 0b00001#5 ++ 0b1111111111111110#16) = .ok (.lhu 1#5 0xFFFE#16 2#5) := by decide
theorem test_decode_sb : decodeWord (0b101000#6 ++ 0b00010#5 ++ 0b00001#5 ++ 0b1111111111111110#16) = .ok (.sb 1#5 0xFFFE#16 2#5) := by decide
theorem test_decode_sh : decodeWord (0b101001#6 ++ 0b00010#5 ++ 0b00001#5 ++ 0b1111111111111110#16) = .ok (.sh 1#5 0xFFFE#16 2#5) := by decide
theorem test_decode_sw : decodeWord (0b101011#6 ++ 0b00010#5 ++ 0b00001#5 ++ 0b1111111111111110#16) = .ok (.sw 1#5 0xFFFE#16 2#5) := by decide

/-- R86, R87: unsupported numbers are rejected by name. -/
theorem test_decode_rejects : decodeWord 0x38000000#32 = .error (.unsupportedOpcode 0x0E#6) ∧
    decodeWord 0x00000009#32 = .error (.unsupportedFunct 0x09#6) := by decide

/-- The table's numbering and both byte orders reach the same decoder. -/
theorem test_decode_table_word : decodeTableWord 32 0x00221820 = some (.add 3#5 1#5 2#5) ∧
    decodeBytes .little [0x20#8, 0x18#8, 0x22#8, 0x00#8] = .ok (.add 3#5 1#5 2#5, []) ∧
    decodeBytes .big [0x00#8, 0x22#8, 0x18#8, 0x20#8] = .ok (.add 3#5 1#5 2#5, []) := by decide

/-! ### Register arithmetic: the spec's examples (files 40, 41) -/

/-- `x[1]` and `x[2]` set, pc 0, little-endian. -/
def two (x1 x2 : Word) : State := at_ .little 0#32 x1 x2 []

theorem test_sll : regAfter (two 0x80000001#32 0x0#32) 0x00011100 2#5 = some 0x10#32 := by decide +kernel
theorem test_srl : regAfter (two 0x80000001#32 0x0#32) 0x00011102 2#5 = some 0x8000000#32 := by decide +kernel
theorem test_sra : regAfter (two 0x80000001#32 0x0#32) 0x00011103 2#5 = some 0xF8000000#32 := by decide +kernel
theorem test_add : regAfter (two 0x5#32 0xA#32) 0x00221820 3#5 = some 0xF#32 := by decide +kernel
theorem test_add_wraps : regAfter (two 0x7FFFFFFF#32 0x1#32) 0x00221820 3#5 = some 0x80000000#32 := by decide +kernel
theorem test_addu : regAfter (two 0xFFFFFFFF#32 0x1#32) 0x00221821 3#5 = some 0x0#32 := by decide +kernel
theorem test_sub : regAfter (two 0x5#32 0xA#32) 0x00221822 3#5 = some 0xFFFFFFFB#32 := by decide +kernel
theorem test_subu : regAfter (two 0x0#32 0x1#32) 0x00221823 3#5 = some 0xFFFFFFFF#32 := by decide +kernel
theorem test_and : regAfter (two 0xFF00FF00#32 0xFF00FF0#32) 0x00221824 3#5 = some 0xF000F00#32 := by decide +kernel
theorem test_or : regAfter (two 0xFF00FF00#32 0xFF00FF0#32) 0x00221825 3#5 = some 0xFFF0FFF0#32 := by decide +kernel
theorem test_xor : regAfter (two 0xFF00FF00#32 0xFF00FF0#32) 0x00221826 3#5 = some 0xF0F0F0F0#32 := by decide +kernel
theorem test_nor : regAfter (two 0xFF00FF00#32 0xFF00FF0#32) 0x00221827 3#5 = some 0xF000F#32 := by decide +kernel
theorem test_slt : regAfter (two 0xFFFFFFFF#32 0x1#32) 0x0022182A 3#5 = some 0x1#32 := by decide +kernel
theorem test_slt_exact : regAfter (two 0x80000000#32 0x7FFFFFFF#32) 0x0022182A 3#5 = some 0x1#32 := by decide +kernel
theorem test_sltu : regAfter (two 0xFFFFFFFF#32 0x1#32) 0x0022182B 3#5 = some 0x0#32 := by decide +kernel
theorem test_addi : regAfter (two 0x0#32 0x0#32) 0x20010005 1#5 = some 0x5#32 := by decide +kernel
theorem test_addiu : regAfter (two 0x0#32 0x8000#32) 0x24418000 1#5 = some 0x0#32 := by decide +kernel
theorem test_slti : regAfter (two 0x0#32 0xFFFFFFFE#32) 0x2841FFFF 1#5 = some 0x1#32 := by decide +kernel
theorem test_sltiu : regAfter (two 0x0#32 0x5#32) 0x2C41FFFF 1#5 = some 0x1#32 := by decide +kernel
theorem test_sltiu_top : regAfter (two 0x0#32 0xFFFFFFFF#32) 0x2C41FFFF 1#5 = some 0x0#32 := by decide +kernel
theorem test_andi : regAfter (two 0x0#32 0x12345678#32) 0x3041FF00 1#5 = some 0x5600#32 := by decide +kernel
theorem test_ori : regAfter (two 0x0#32 0x12340000#32) 0x34418001 1#5 = some 0x12348001#32 := by decide +kernel
theorem test_lui : regAfter (two 0x0#32 0x0#32) 0x3C011234 1#5 = some 0x12340000#32 := by decide +kernel

/-- R21: a write to register 0 is discarded; R120: the destination may be a source. -/
theorem test_register_zero : regAfter (two 5#32 10#32) 0x00220020 0#5 = some 0#32 ∧
    regAfter (two 5#32 10#32) 0x00210820 1#5 = some 10#32 := by decide +kernel

/-! ### Loads and stores: the spec's examples, under both byte orders (file 42) -/

theorem test_lb : regAfter (at_ .little 0#32 0#32 0x100#32 [(64, 0x1122F344#32)]) 0x80410001 1#5 = some 0xFFFFFFF3#32 ∧
    regAfter (at_ .big 0#32 0#32 0x100#32 [(64, 0x1122F344#32)]) 0x80410001 1#5 = some 0x22#32 := by decide +kernel
theorem test_lh : regAfter (at_ .little 0#32 0#32 0x100#32 [(64, 0x8122F344#32)]) 0x84410002 1#5 = some 0xFFFF8122#32 ∧
    regAfter (at_ .big 0#32 0#32 0x100#32 [(64, 0x8122F344#32)]) 0x84410002 1#5 = some 0xFFFFF344#32 := by decide +kernel
theorem test_lw : regAfter (at_ .little 0#32 0#32 0x0#32 [(16, 0x7#32)]) 0x8C010040 1#5 = some 0x7#32 ∧
    regAfter (at_ .big 0#32 0#32 0x0#32 [(16, 0x7#32)]) 0x8C010040 1#5 = some 0x7#32 := by decide +kernel
theorem test_lbu : regAfter (at_ .little 0#32 0#32 0x100#32 [(64, 0x9122F344#32)]) 0x90410003 1#5 = some 0x91#32 ∧
    regAfter (at_ .big 0#32 0#32 0x100#32 [(64, 0x9122F344#32)]) 0x90410003 1#5 = some 0x44#32 := by decide +kernel
theorem test_lhu : regAfter (at_ .little 0#32 0#32 0x102#32 [(64, 0x8122F344#32)]) 0x9441FFFE 1#5 = some 0xF344#32 ∧
    regAfter (at_ .big 0#32 0#32 0x102#32 [(64, 0x8122F344#32)]) 0x9441FFFE 1#5 = some 0x8122#32 := by decide +kernel
theorem test_sb : wordAfter (at_ .little 0#32 0xABCDEF99#32 0x100#32 [(0x40, 0x11223344#32)]) 0xA0410001 0x40 = some 0x11229944#32 ∧
    wordAfter (at_ .big 0#32 0xABCDEF99#32 0x100#32 [(0x40, 0x11223344#32)]) 0xA0410001 0x40 = some 0x11993344#32 := by decide +kernel
theorem test_sh : wordAfter (at_ .little 0#32 0xABCDEF99#32 0x100#32 [(0x40, 0x11223344#32)]) 0xA4410002 0x40 = some 0xEF993344#32 ∧
    wordAfter (at_ .big 0#32 0xABCDEF99#32 0x100#32 [(0x40, 0x11223344#32)]) 0xA4410002 0x40 = some 0x1122EF99#32 := by decide +kernel
theorem test_sw : wordAfter (at_ .little 0#32 0xABCDEF99#32 0x100#32 [(0x40, 0x11223344#32)]) 0xAC410004 0x41 = some 0xABCDEF99#32 ∧
    wordAfter (at_ .big 0#32 0xABCDEF99#32 0x100#32 [(0x40, 0x11223344#32)]) 0xAC410004 0x41 = some 0xABCDEF99#32 := by decide +kernel

/-- R179, R333: misalignment is tested before range. -/
theorem test_data_faults : faultAfter (two 0#32 0x401#32) 0x84410000 = some (.misalignedData 0x401#32 2) ∧
    faultAfter (two 0#32 0x102#32) 0x8C410000 = some (.misalignedData 0x102#32 4) ∧
    faultAfter (two 0#32 0x400#32) 0xA0410000 = some (.outOfRange 0x400#32) := by decide +kernel

/-! ### Control transfer: the spec's examples (file 43) -/

theorem test_beq : pcAfter (at_ .little 0x20#32 7#32 7#32 []) 0x10220003 = some 0x30#32 ∧
    pcAfter (at_ .little 0x20#32 7#32 8#32 []) 0x10220003 = some 0x24#32 := by decide +kernel
theorem test_bne : pcAfter (at_ .little 0x10#32 7#32 0#32 []) 0x1420FFFD = some 0x08#32 ∧
    pcAfter (at_ .little 0x10#32 0#32 0#32 []) 0x1420FFFD = some 0x14#32 := by decide +kernel
theorem test_j : pcAfter (at_ .little 0x20#32 0#32 0#32 []) 0x08000010 = some 0x40#32 := by decide +kernel
theorem test_jal : pcAfter (at_ .little 0x08#32 0#32 0#32 []) 0x0C000040 = some 0x100#32 ∧
    regAfter (at_ .little 0x08#32 0#32 0#32 []) 0x0C000040 31#5 = some 0x0C#32 := by decide +kernel
theorem test_jr : pcAfter (at_ .little 0#32 0x0C#32 0#32 []) 0x00200008 = some 0x0C#32 ∧
    faultAfter (at_ .little 0#32 0x0E#32 0#32 []) 0x00200008 = some (.misalignedTarget 0#32 0x0E#32) := by
  decide +kernel
theorem test_unsupported : faultAfter (two 0#32 0#32) 0x38000000 = some (.unsupportedInstruction 0#32 0x38000000#32) := by
  decide +kernel

/-! ### Reset and runs -/

theorem test_reset : State.reset.pc = 0#32 ∧ State.reset.mem = [] ∧ State.reset.reg 31#5 = 0#32 ∧
    State.reset.run = .running ∧ State.reset.cycles = 0 ∧ State.reset.predictor.bht.length = 16 := by decide +kernel

/-- A run of the pipeline with these lanes: `x[1]` = 5, `x[2]` = 0x40, memory of 64 words, `END_PC` behind the words. -/
def boot (lanes : LaneCount) (predict : Bool) (ws : List Word) : State :=
  pipeline { RunConfig.atReset with
      lanes    := lanes
      predict  := predict
      h        := 2
      memWords := 64
      endPC    := BitVec.ofNat 32 (4 * ws.length) }
    ((State.reset.regs.write 1#5 5#32).write 2#5 0x40#32) (Memory.ofWords .little ws)

/-- The machine after `n` steps. -/
def runTo : Nat → State → State
  | 0, s     => s
  | n + 1, s => runTo n (tick s)

/-- The state after `n` steps, if none of them faults. -/
def runOpt : Nat → State → Option State
  | 0, s     => some s
  | n + 1, s =>
    match nextOf (step s) with
    | some t => runOpt n t
    | none   => none

theorem run_succ (M : Host.Core) (n : Nat) {s u : M.State} (h : M.step s = .next u) : M.run (n + 1) s = M.run n u := by
  rw [Host.Core.run, h]

theorem reaches_of_runOpt : ∀ {n : Nat} {s t : State}, runOpt n s = some t → Reaches s n t
  | 0, s, t, h => by
    cases Option.some.inj h
    rfl
  | n + 1, s, t, h => by
    unfold runOpt at h
    cases hs : nextOf (step s) with
    | none => simp [hs] at h
    | some u =>
      simp only [hs] at h
      have ih := reaches_of_runOpt h
      have hu : step s = .next u := next_of_some hs
      exact (run_succ Sys2Proof.core n hu).trans ih

theorem test_boot : (runOpt 6 (boot .one true [0x20410001#32, 0x00211820#32])).map
      (fun t => (t.run, t.reg 1#5, t.reg 3#5, t.committed, t.cycles)) =
    some (.halted, 0x41#32, 0x82#32, 2, 6) := by decide +kernel

/-! ### Programs for the witnesses -/

/-- LW R1,0(R2); ADD R3,R1,R1: a load-use stall. -/
def loadUseProgram : List Word := [0x8C410000#32, 0x00211820#32]

/-- BEQ R0,R0,#+8 over two instructions. -/
def branchProgram : List Word := [0x10000002#32, 0x20030001#32, 0x20030002#32, 0x20040003#32]

/-- ADDI R3,R1,#1; ADDI R4,R1,#2; ADD R5,R1,R2; SW R1,0(R2). -/
def plainProgram : List Word := [0x20230001#32, 0x20240002#32, 0x00222820#32, 0xAC410000#32]

/-- ADDI R3,R1,#1; ADD R4,R3,R1: lane 2 depends on lane 1. -/
def pairProgram : List Word := [0x20230001#32, 0x00612020#32]

/-- SW R1,0(R2); LW R3,0(R2), side by side. -/
def storeLoadProgram : List Word := [0xAC410000#32, 0x8C430000#32]

/-- SB R1,0(R2); LBU R3,0(R2), side by side. -/
def byteStoreLoadProgram : List Word := [0xA0410000#32, 0x90430000#32]

/-- LW R3,0(R2); ADD R4,R1,R1; ADD R5,R3,R1; ADDI R6,R1,#1. -/
def loadPairProgram : List Word := [0x8C430000#32, 0x00212020#32, 0x00612820#32, 0x20260001#32]

/-- The scalar machine two cycles into a program: its first instruction is in `IDEX`, the second in `IFID`. -/
def one2 (ws : List Word) : State := runTo 2 (boot .one true ws)

/-- The dual-issue machine two cycles into a program. -/
def dual2 (ws : List Word) : State := runTo 2 (boot .two true ws)

/-- One instruction before `END_PC`: the scalar machine about to latch it, and about to latch `END_PC`, into `MEMWB`;
the dual-issue machine about to latch both. -/
def last3 : State := runTo 3 (boot .one true [0x20230001#32])
def last4 : State := runTo 4 (boot .one true [0x20230001#32])
def last3Dual : State := runTo 3 (boot .two true [0x20230001#32])

/-- A store beside a load in `EXMEM`; a store in `EXMEM` of the scalar machine; byte accesses beside each other. -/
def stores3 : State := runTo 3 (boot .two true storeLoadProgram)
def store3 : State := runTo 3 (boot .one true storeLoadProgram)
def byteStores3 : State := runTo 3 (boot .two true byteStoreLoadProgram)

/-- Instructions in `MEMWB`, away from `END_PC`. -/
def plain4 : State := runTo 4 (boot .one true plainProgram)
def plain4Dual : State := runTo 4 (boot .two true plainProgram)

/-! ### Witnesses: encoding -/

theorem witness_OpcodeMap : opcodeOf 0x20010005#32 = 0x08#6 ∧
    (opcodeOf 0x00221820#32 = 0x00#6 ∧ functOf 0x00221820#32 = 0x20#6) ∧
    ((opcodeOf 0x04000000#32).toNat = 0x01 ∧ (opcodeOf 0x7C000000#32).toNat = 0x1F ∧
      (opcodeOf 0xB0000000#32).toNat = 0x2C ∧ (opcodeOf 0xFC000000#32).toNat = 0x3F) ∧
    (opcodeOf 0x00000001#32 = 0x00#6 ∧ (functOf 0x00000007#32).toNat = 0x07 ∧ (functOf 0x0000001F#32).toNat = 0x1F ∧
      (functOf 0x0000003F#32).toNat = 0x3F) := by decide

theorem witness_UnusedFieldsIgnored : decodeWord 0x00221FE0#32 = .ok (.add 3#5 1#5 2#5) := by decide

theorem witness_UnsupportedWordCarried : decodeWord 0xFFFFFFFF#32 = .error (.unsupportedOpcode 0x3F#6) ∧
    decodeWord 0x0000003F#32 = .error (.unsupportedFunct 0x3F#6) ∧
    decodeWord 0x03E00008#32 = .ok (.jr 31#5) := by decide

theorem witness_DecodedRegisterRoles : decodeWord 0x0C000040#32 = .ok (.jal 0x40#26) ∧
    decodeWord 0x03E70008#32 = .ok (.jr 31#5) ∧ decodeWord 0x00220020#32 = .ok (.add 0#5 1#5 2#5) := by decide

/-- Each clause at the ends of its reach: a branch 32767 words ahead and 32768 back, a jump to either end of its
region. -/
theorem witness_AssembledTargetReached :
    ((two 7#32 7#32).pc.toNat % 4 = 0 ∧ (Asm.branch .beq 1 2 0x20000).wellFormed (two 7#32 7#32).pc = true ∧
      (two 7#32 7#32).reg (regOfNat 1) = (two 7#32 7#32).reg (regOfNat 2)) ∧
    ((two 7#32 8#32).pc.toNat % 4 = 0 ∧ (Asm.branch .bne 1 2 0xFFFE0004).wellFormed (two 7#32 8#32).pc = true ∧
      (two 7#32 8#32).reg (regOfNat 1) ≠ (two 7#32 8#32).reg (regOfNat 2)) ∧
    (Asm.jump .j 0).wellFormed (two 0#32 0#32).pc = true ∧
    (Asm.jump .jal 0x0FFFFFFC).wellFormed (two 0#32 0#32).pc = true := by decide +kernel

/-! ### Witnesses: registers, memory, control transfer -/

theorem witness_AddSubtractResult : opcodeOf 0x00221820#32 = 0x00#6 ∧ functOf 0x00221820#32 = 0x20#6 ∧
    functOf 0x00221821#32 = 0x21#6 ∧ functOf 0x00221822#32 = 0x22#6 ∧ functOf 0x00221823#32 = 0x23#6 := by decide
theorem witness_LogicResult : opcodeOf 0x00221824#32 = 0x00#6 ∧ functOf 0x00221824#32 = 0x24#6 ∧
    functOf 0x00221825#32 = 0x25#6 ∧ functOf 0x00221826#32 = 0x26#6 ∧ functOf 0x00221827#32 = 0x27#6 := by decide
theorem witness_SetLessResult : opcodeOf 0x0022182A#32 = 0x00#6 ∧ functOf 0x0022182A#32 = 0x2A#6 ∧
    functOf 0x0022182B#32 = 0x2B#6 := by decide
theorem witness_AddImmediateResult : opcodeOf 0x20010005#32 = 0x08#6 ∧ opcodeOf 0x24418000#32 = 0x09#6 := by decide
theorem witness_SetLessImmediateResult : opcodeOf 0x2841FFFF#32 = 0x0A#6 ∧ opcodeOf 0x2C41FFFF#32 = 0x0B#6 := by decide
theorem witness_LogicImmediateResult : opcodeOf 0x3041FF00#32 = 0x0C#6 ∧ opcodeOf 0x34418001#32 = 0x0D#6 := by decide

theorem witness_RegisterFileAccess : (31#5 : Reg) ≠ 0#5 ∧
    ((State.reset.regs.access 1#5 2#5 31#5 true 7#32).2.2).read 31#5 = 7#32 := by decide +kernel

/-- The first and the last address of the memory, at the alignment each width needs. -/
theorem witness_LoadResult :
    (let s := two 0#32 0#32
     let a := effAddr (s.reg 2#5) 0#16
     a.toNat / 4 < s.cfg.memWords ∧ a.toNat % 2 = 0 ∧ a.toNat % 4 = 0) ∧
    (let s := two 0#32 0x3FC#32
     (effAddr (s.reg 2#5) 3#16).toNat / 4 < s.cfg.memWords ∧ (effAddr (s.reg 2#5) 2#16).toNat % 2 = 0 ∧
      (effAddr (s.reg 2#5) 0#16).toNat % 4 = 0) := by decide +kernel

theorem witness_StoreResult :
    let s := at_ .big 0#32 0xABCDEF99#32 0x3FC#32 [(0x40, 0x11223344#32)]
    let a := effAddr (s.reg 2#5) 0#16
    s.mem.wf = true ∧ a.toNat / 4 < s.cfg.memWords ∧ a.toNat % 2 = 0 ∧ a.toNat % 4 = 0 := by decide +kernel

theorem witness_DataAccessFaults :
    (effAddr ((two 0#32 0xFFFFFFFF#32).reg 2#5) 0#16).toNat % 2 = 1 ∧
    (effAddr ((two 0#32 2#32).reg 2#5) 0#16).toNat % 4 ≠ 0 ∧
    (let s := two 0#32 0x400#32
     let a := effAddr (s.reg 2#5) 0#16
     s.cfg.memWords ≤ a.toNat / 4 ∧ a.toNat % 2 = 0 ∧ a.toNat % 4 = 0) := by decide +kernel

theorem witness_MixedWidthView :
    let s := at_ .big 0#32 0#32 0#32 [(0x40, 0x11223344#32)]
    s.mem.wf = true ∧ (0x3FC#32 : Word).toNat % 4 = 0 ∧ (0x3FC#32 : Word).toNat / 4 < s.cfg.memWords ∧
      s.cfg.byteOrder = .big ∧ (two 0#32 0#32).cfg.byteOrder = .little := by decide +kernel

/-- A halfword in the last word; the byte before it and the byte behind it are disjoint from it. -/
theorem witness_ReadAfterWrite :
    let s := at_ .little 0#32 0#32 0#32 [(0x40, 0x11223344#32)]
    s.mem.wf = true ∧ alignedFor 0x3FC#32 .half = true ∧ (0x3FC#32 : Word).toNat / 4 < s.cfg.memWords ∧
      (0x3FB#32 : Word).toNat + Width.byte.bytes ≤ (0x3FC#32 : Word).toNat ∧
      (0x3FC#32 : Word).toNat + Width.half.bytes ≤ (0x3FE#32 : Word).toNat := by decide +kernel

theorem witness_FetchBeyondMemory :
    let cfg := (two 0#32 0#32).cfg
    cfg.memWords ≤ (0x400#32 : Word).toNat / 4 ∧ (0x3FC#32 : Word).toNat / 4 < cfg.memWords ∧
      (0x3FC#32 : Word).toNat % 4 = 0 ∧
      (let w := { MemWb.bubble with empty := false, pc := 0x400#32 }
       w.empty = false ∧ cfg.memWords ≤ w.pc.toNat / 4) := by decide +kernel

theorem witness_JumpResult : ((two 0xFFFFFFFC#32 0#32).reg 1#5).toNat % 4 = 0 ∧
    ((two 0xFFFFFFFD#32 0#32).reg 1#5).toNat % 4 ≠ 0 := by decide +kernel

/-! ### Witnesses: the run -/

theorem witness_ResetState : RunConfig.atReset.predict = true ∧ 15 < 2 ^ RunConfig.atReset.h ∧ (31#5 : Reg) ≠ 0#5 := by
  decide

/-- A state of the single-cycle engine in the last word of memory. -/
def sequential (w : Word) : State :=
  { at_ .big 0x3FC#32 0#32 0x101#32 [(0xFF, w)] with
    cfg := { RunConfig.atReset with engine := .singleCycle, byteOrder := .big, memWords := 256 } }

/-- An ADD that completes and an LW that faults. -/
theorem witness_StepRunsDecodedInstruction :
    (let s := sequential 0x00221820#32
     (s.run = .running ∧ s.cfg.engine = .singleCycle ∧ s.pc ≠ s.cfg.endPC ∧ s.pc.toNat % 4 = 0 ∧
       s.pc.toNat / 4 < s.cfg.memWords) ∧
     decodeBytes s.cfg.byteOrder [s.mem.read s.pc.toNat, s.mem.read (s.pc.toNat + 1), s.mem.read (s.pc.toNat + 2),
       s.mem.read (s.pc.toNat + 3)] = .ok (.add 3#5 1#5 2#5, []) ∧
     (nextOf (exec (.add 3#5 1#5 2#5) s)).isSome = true) ∧
    (let s := sequential 0x8C410000#32
     decodeBytes s.cfg.byteOrder [s.mem.read s.pc.toNat, s.mem.read (s.pc.toNat + 1), s.mem.read (s.pc.toNat + 2),
       s.mem.read (s.pc.toNat + 3)] = .ok (.lw 1#5 0#16 2#5, []) ∧
     faultOf (exec (.lw 1#5 0#16 2#5) s) = some (.misalignedData 0x101#32 4)) := by decide +kernel

theorem witness_SequentialStops :
    (let s := { sequential 0#32 with pc := 0xFFFFFFFC#32 }
     s.run = .running ∧ s.cfg.engine = .singleCycle ∧ s.pc = s.cfg.endPC) ∧
    (let s := { sequential 0#32 with pc := 0x400#32 }
     s.pc ≠ s.cfg.endPC ∧ s.cfg.memWords ≤ s.pc.toNat / 4) ∧
    (let s := sequential 0x38000000#32
     s.pc ≠ s.cfg.endPC ∧ s.pc.toNat / 4 < s.cfg.memWords ∧
      decodeWord (fetchWord s.cfg s.mem s.pc) = .error (.unsupportedOpcode 0x0E#6)) := by decide +kernel

theorem witness_StoppedMachine : State.reset.halt.run = .halted ∧
    (State.reset.raise (.outOfRange 0#32)).run = .faulted (.outOfRange 0#32) ∧
    faultOf (step (sequential 0x8C410000#32)) = some (.misalignedData 0x101#32 4) := by decide +kernel

theorem witness_OutOfRangeImpossible : State.reset.run = .running ∧ 2 ^ 30 ≤ State.reset.cfg.memWords := by
  decide +kernel

theorem witness_ParametersFixed : ∃ t, step State.reset = .next t ∧ State.reset.run = .running ∧
    State.reset.cfg.engine = .pipelined :=
  ⟨tick State.reset, steps (by decide +kernel), by decide +kernel⟩

/-- A cycle that halts on lane 1, one that halts on lane 2, and one that does neither. -/
theorem witness_HaltCheck :
    (∃ t, step last4 = .next t ∧ t.memwb.lane1.empty = false ∧ t.memwb.lane1.pc = last4.cfg.endPC) ∧
    (∃ t, step last3Dual = .next t ∧ t.memwb.lane2.empty = false ∧ t.memwb.lane2.pc = last3Dual.cfg.endPC) ∧
    (∃ t, step last3 = .next t ∧ t.memwb.lane1.empty = false ∧ t.memwb.lane1.pc ≠ last3.cfg.endPC ∧
      last3.cfg.lanes = .one) :=
  ⟨⟨tick last4, steps (by decide +kernel), by decide +kernel⟩,
    ⟨tick last3Dual, steps (by decide +kernel), by decide +kernel⟩,
    ⟨tick last3, steps (by decide +kernel), by decide +kernel⟩⟩

/-! ### Witnesses: one cycle -/

/-- What the three stages of a scalar cycle produce, with the redirect and the stall it meets. -/
def scalarCase (s : State) : Option (Bool × Bool) :=
  match writebackLane s.cfg ⟨s.regs, s.committed⟩ s.memwb.lane1, memoryLane s.cfg s.mem s.exmem.lane1,
      executeLane s.cfg s.predictor s.idex.lane1 (forward .one s.exmem s.memwb s.idex.lane1.rs s.idex.lane1.rsVal)
        (forward .one s.exmem s.memwb s.idex.lane1.rt s.idex.lane1.rtVal) with
  | .ok r, .ok _, .ok x => some (x.redirect.isSome, loadUse (decodeLane r.regs s.ifid.lane1) s.idex.lane1)
  | _, _, _             => none

/-- The same for both lanes: a redirect, `stall1`, `stall2`. -/
def dualCase (s : State) : Option (Bool × Bool × Bool) :=
  match writebackBoth s, memoryBoth s, executeBoth s with
  | .ok r, .ok _, .ok x =>
    let d : Lanes IdEx := ⟨decodeLane r.regs s.ifid.lane1, decodeLane r.regs s.ifid.lane2⟩
    some (x.redirect.isSome, stallLane1 d s.idex, stallLane2 d s.idex)
  | _, _, _ => none

/-- A running machine of the pipelined engine with these lanes. -/
def Runs (lanes : LaneCount) (s : State) : Prop := s.run = .running ∧ s.cfg.engine = .pipelined ∧ s.cfg.lanes = lanes

theorem witness_ScalarLatchUpdate :
    (Runs .one (one2 branchProgram) ∧ scalarCase (one2 branchProgram) = some (true, false)) ∧
    (Runs .one (one2 loadUseProgram) ∧ scalarCase (one2 loadUseProgram) = some (false, true)) ∧
    (Runs .one (one2 plainProgram) ∧ scalarCase (one2 plainProgram) = some (false, false)) := by
  unfold Runs; decide +kernel

theorem witness_DualLatchUpdate :
    (Runs .two (dual2 branchProgram) ∧ (dualCase (dual2 branchProgram)).map (·.1) = some true) ∧
    (Runs .two (dual2 loadPairProgram) ∧ (dualCase (dual2 loadPairProgram)).map (·.2.1) = some true) ∧
    (Runs .two (runTo 1 (boot .two true pairProgram)) ∧
      dualCase (runTo 1 (boot .two true pairProgram)) = some (false, false, true)) ∧
    (Runs .two (dual2 plainProgram) ∧ dualCase (dual2 plainProgram) = some (false, false, false)) := by
  unfold Runs; decide +kernel

/-- Lane 1 stores and lane 2 loads; with one lane, lane 2 is empty. -/
theorem witness_MemoryAfterCycle :
    (Runs .two stores3 ∧ stores3.mem.wf = true ∧ stores3.exmem.lane1.storesAt 0x43 = true ∧
      ∃ t, step stores3 = .next t) ∧
    (Runs .one store3 ∧ store3.mem.wf = true ∧ store3.exmem.lane2.empty = true ∧
      store3.exmem.lane1.storesAt 0x40 = true ∧ ∃ t, step store3 = .next t) :=
  ⟨⟨by unfold Runs; decide +kernel, by decide +kernel, by decide +kernel, _, steps (by decide +kernel)⟩,
    ⟨by unfold Runs; decide +kernel, by decide +kernel, by decide +kernel, by decide +kernel, _,
      steps (by decide +kernel)⟩⟩

/-- A store in lane 1 and a load of the given widths in lane 2, which overlap. -/
def Overlap (s : State) (store load : Width) (loadUnsigned : Bool) : Prop :=
  s.mem.wf = true ∧ (memoryBoth s).toOption.isSome = true ∧ s.exmem.lane1.ctrl.memWrite = true ∧
    s.exmem.lane2.empty = false ∧ s.exmem.lane2.ctrl.memRead = true ∧
    s.exmem.lane1.storesAt s.exmem.lane2.aluResult.toNat = true ∧ Ctrl.width s.exmem.lane1.ctrl = store ∧
    Ctrl.width s.exmem.lane2.ctrl = load ∧ s.exmem.lane2.ctrl.loadUnsigned = loadUnsigned

/-- Each clause: a word behind a word, an unsigned byte behind a byte, a signed byte behind a halfword, a signed halfword
behind a word, at the last byte or halfword of the store. -/
theorem witness_LoadSeesOlderLaneStore :
    Overlap stores3 .word .word false ∧ Overlap byteStores3 .byte .byte true ∧
      Overlap (runTo 3 (boot .two true [0xA4410002#32, 0x80430003#32])) .half .byte false ∧
      Overlap (runTo 3 (boot .two true [0xAC410000#32, 0x84430002#32])) .word .half false := by
  unfold Overlap; decide +kernel

/-- SH R1,2(R2) with `x[1]` = 5, little-endian, beside LB R3,3(R2) and LB R3,2(R2): the upper and the lower byte of
0x0005 (R53, R303). -/
theorem test_load_sees_half_store :
    (memoryBoth (runTo 3 (boot .two true [0xA4410002#32, 0x80430003#32]))).toOption.map (·.1.lane2.memData) =
      some 0#32 ∧
    (memoryBoth (runTo 3 (boot .two true [0xA4410002#32, 0x80430002#32]))).toOption.map (·.1.lane2.memData) =
      some 5#32 := by decide +kernel

/-- A cycle with a drain (the instruction before `END_PC` retires beside it), one of two lanes without, and a scalar
one. -/
theorem witness_RegistersAfterCycle :
    (Runs .two last3Dual ∧ ∃ t, step last3Dual = .next t ∧
      (t.run = .halted ∧ ¬ (t.memwb.lane1.empty = false ∧ t.memwb.lane1.pc = last3Dual.cfg.endPC)) ∧
      t.reg 3#5 = 6#32) ∧
    (Runs .two plain4Dual ∧ ∃ t, step plain4Dual = .next t ∧ t.run = .running ∧ t.committed = 2) ∧
    (Runs .one plain4 ∧ plain4.memwb.lane2 = MemWb.bubble ∧ ∃ t, step plain4 = .next t ∧ t.run = .running ∧
      t.committed = 1) :=
  ⟨⟨by unfold Runs; decide +kernel, tick last3Dual, steps (by decide +kernel), by decide +kernel⟩,
    ⟨by unfold Runs; decide +kernel, tick plain4Dual, steps (by decide +kernel), by decide +kernel⟩,
    ⟨by unfold Runs; decide +kernel, by decide +kernel, tick plain4, steps (by decide +kernel), by decide +kernel⟩⟩

theorem consistent_one2 : (one2 loadUseProgram).LatchesConsistent := by
  unfold State.LatchesConsistent Lanes.Both IfId.Consistent IdEx.Consistent ExMem.Consistent MemWb.Consistent PredLegal
  refine ⟨⟨?_, ?_⟩, ⟨?_, ?_⟩, ⟨?_, ?_⟩, ?_, ?_⟩ <;> decide +kernel

theorem witness_LoadUseStallOnce :
    ∃ t u r, Runs .one (one2 loadUseProgram) ∧ (one2 loadUseProgram).LatchesConsistent ∧
      writebackLane (one2 loadUseProgram).cfg ⟨(one2 loadUseProgram).regs, (one2 loadUseProgram).committed⟩
        (one2 loadUseProgram).memwb.lane1 = .ok r ∧
      loadUse (decodeLane r.regs (one2 loadUseProgram).ifid.lane1) (one2 loadUseProgram).idex.lane1 = true ∧
      step (one2 loadUseProgram) = .next t ∧ t.run = .running ∧ step t = .next u :=
  ⟨tick (one2 loadUseProgram), tick (tick (one2 loadUseProgram)),
    ⟨(one2 loadUseProgram).regs, (one2 loadUseProgram).committed⟩, by unfold Runs; decide +kernel, consistent_one2,
    by decide +kernel, by decide +kernel, steps (by decide +kernel), by decide +kernel,
    steps (by decide +kernel)⟩

theorem consistent_branch : (one2 branchProgram).LatchesConsistent := by
  unfold State.LatchesConsistent Lanes.Both IfId.Consistent IdEx.Consistent ExMem.Consistent MemWb.Consistent PredLegal
  refine ⟨⟨?_, ?_⟩, ⟨?_, ?_⟩, ⟨?_, ?_⟩, ?_, ?_⟩ <;> decide +kernel

theorem witness_RedirectExcludesStall : (one2 branchProgram).LatchesConsistent ∧
    ∃ x, (one2 branchProgram).executeOn (one2 branchProgram).predictor (one2 branchProgram).idex.lane1 = .ok x ∧
      x.redirect = some 0x0C#32 :=
  ⟨consistent_branch,
    ⟨⟨(tick (one2 branchProgram)).exmem.lane1, some 0x0C#32, (tick (one2 branchProgram)).predictor⟩, by decide +kernel,
      rfl⟩⟩

/-- Both engines. -/
theorem witness_RedirectLosesTwoCycles :
    (∃ t u v, Runs .one (one2 branchProgram) ∧ scalarCase (one2 branchProgram) = some (true, false) ∧
      step (one2 branchProgram) = .next t ∧ t.run = .running ∧ step t = .next u ∧ u.run = .running ∧
      step u = .next v) ∧
    (∃ t u v, Runs .two (dual2 branchProgram) ∧ (dualCase (dual2 branchProgram)).map (·.1) = some true ∧
      step (dual2 branchProgram) = .next t ∧ t.run = .running ∧ step t = .next u ∧ u.run = .running ∧
      step u = .next v) :=
  ⟨⟨tick (one2 branchProgram), tick (tick (one2 branchProgram)), tick (tick (tick (one2 branchProgram))),
      by unfold Runs; decide +kernel, by decide +kernel, steps (by decide +kernel), by decide +kernel,
      steps (by decide +kernel), by decide +kernel, steps (by decide +kernel)⟩,
    ⟨tick (dual2 branchProgram), tick (tick (dual2 branchProgram)), tick (tick (tick (dual2 branchProgram))),
      by unfold Runs; decide +kernel, by decide +kernel, steps (by decide +kernel), by decide +kernel,
      steps (by decide +kernel), by decide +kernel, steps (by decide +kernel)⟩⟩

/-- The word `w` decoded into `IDEX` at the last word of the address space. -/
def decoded (w : Word) : IdEx := decodeLane State.reset.regs { empty := false, instr := w, pc := 0xFFFFFFFC#32, pred := false }

/-- One instruction of each class of the table: BEQ, BNE, J, JAL, JR, ADD, an unsupported word. -/
theorem witness_RedirectTable :
    (decodeWord 0x10220003#32 = .ok (.beq 1#5 2#5 3#16) ∧ decodeWord 0x1420FFFD#32 = .ok (.bne 1#5 0#5 0xFFFD#16) ∧
      decodeWord 0x08000010#32 = .ok (.j 0x10#26) ∧ decodeWord 0x0C000040#32 = .ok (.jal 0x40#26) ∧
      decodeWord 0x03E00008#32 = .ok (.jr 31#5) ∧ decodeWord 0x00221820#32 = .ok (.add 3#5 1#5 2#5) ∧
      isTransfer (.add 3#5 1#5 2#5) = false ∧ decodeWord 0x38000000#32 = .error (.unsupportedOpcode 0x0E#6)) ∧
    ∀ w, (decoded w).instr = w ∧ (decoded w).empty = false ∧ (decoded w).Consistent RunConfig.atReset := by
  refine ⟨by decide, fun w => ?_⟩
  unfold decoded
  rw [decodeLane_of_full rfl]
  exact ⟨rfl, rfl, by simp, fun _ => ⟨rfl, rfl, rfl, rfl, rfl, rfl⟩, by simp [PredLegal]⟩

/-- A redirect by lane 1, and none. -/
theorem witness_LaneOneRedirectSquashesLaneTwo :
    (Runs .two (dual2 branchProgram) ∧ (executeBoth (dual2 branchProgram)).toOption.map (·.redirect) = some (some 0x0C#32) ∧
      ((dual2 branchProgram).executeOn (dual2 branchProgram).predictor (dual2 branchProgram).idex.lane1).toOption.map
        (·.redirect) = some (some 0x0C#32)) ∧
    (Runs .two (dual2 plainProgram) ∧
      ((dual2 plainProgram).executeOn (dual2 plainProgram).predictor (dual2 plainProgram).idex.lane1).toOption.map
        (·.redirect) = some none ∧
      ((dual2 plainProgram).executeOn (dual2 plainProgram).predictor (dual2 plainProgram).idex.lane2).toOption.isSome =
        true) := by
  unfold Runs; decide +kernel

/-! ### Witnesses: invariants -/

theorem inv_plain : (dual2 plainProgram).PipelineInv where
  consistent := by
    unfold State.LatchesConsistent Lanes.Both IfId.Consistent IdEx.Consistent ExMem.Consistent MemWb.Consistent
      PredLegal
    refine ⟨⟨?_, ?_⟩, ⟨?_, ?_⟩, ⟨?_, ?_⟩, ?_, ?_⟩ <;> decide +kernel
  drained := by unfold State.JumpsDrained Lanes.Both; decide +kernel
  spaced := by unfold State.HazardsSpaced Lanes.Both; decide +kernel
  current := by unfold State.OperandsCurrent Lanes.Both; decide +kernel

theorem ordered_plain : (dual2 plainProgram).LanesOrdered := by unfold State.LanesOrdered; decide +kernel

theorem step_plain : step (dual2 plainProgram) = .next (tick (dual2 plainProgram)) := steps (by decide +kernel)

/-- ADDI R5,R1,#1; ADDI R6,R1,#2; ADDI R3,R1,#3; ADDI R4,R1,#4; ADD R7,R3,R5; ADD R8,R4,R6; NOP; NOP. -/
def forwardProgram : List Word :=
  [0x20250001#32, 0x20260002#32, 0x20230003#32, 0x20240004#32, 0x00653820#32, 0x00864020#32, 0#32, 0#32]

/-- Four cycles in: the first pair is in `MEMWB`, the second in `EXMEM`, the two ADDs in `IDEX`. -/
def forward4 : State := runTo 4 (boot .two true forwardProgram)

theorem inv_forward : forward4.PipelineInv where
  consistent := by
    unfold State.LatchesConsistent Lanes.Both IfId.Consistent IdEx.Consistent ExMem.Consistent MemWb.Consistent
      PredLegal
    refine ⟨⟨?_, ?_⟩, ⟨?_, ?_⟩, ⟨?_, ?_⟩, ?_, ?_⟩ <;> decide +kernel
  drained := by unfold State.JumpsDrained Lanes.Both; decide +kernel
  spaced := by unfold State.HazardsSpaced Lanes.Both; decide +kernel
  current := by unfold State.OperandsCurrent Lanes.Both; decide +kernel

/-- Each producer is exercised: `EXMEM` lane 1 and lane 2, `MEMWB` lane 1 and lane 2, each for a register one of the
instructions in `IDEX` consumes and the register file does not yet hold; the registers' latched value is `inv_plain`'s
case. -/
theorem witness_ForwardedOperandsAreCurrent :
    (Runs .two forward4 ∧ forward4.LanesOrdered ∧ forward4.PipelineInv ∧
      (writebackBoth forward4).toOption.isSome = true ∧ (memoryBoth forward4).toOption.isSome = true) ∧
    (forward4.idex.lane1.readsReg 3#5 = true ∧ forward4.idex.lane1.rs = 3#5 ∧
      forward4.exmem.lane1.forwards 3#5 = true ∧ forward4.idex.lane1.rsVal = 0#32 ∧
      forward .two forward4.exmem forward4.memwb 3#5 0#32 = 8#32) ∧
    (forward4.idex.lane1.readsReg 5#5 = true ∧ forward4.idex.lane1.rt = 5#5 ∧
      forward4.memwb.lane1.forwards 5#5 = true ∧ forward .two forward4.exmem forward4.memwb 5#5 0#32 = 6#32) ∧
    (forward4.idex.lane2.readsReg 4#5 = true ∧ forward4.idex.lane2.rs = 4#5 ∧
      forward4.exmem.lane2.forwards 4#5 = true ∧ forward .two forward4.exmem forward4.memwb 4#5 0#32 = 9#32) ∧
    (forward4.idex.lane2.readsReg 6#5 = true ∧ forward4.idex.lane2.rt = 6#5 ∧
      forward4.memwb.lane2.forwards 6#5 = true ∧ forward .two forward4.exmem forward4.memwb 6#5 0#32 = 7#32) ∧
    (Runs .two (dual2 plainProgram) ∧ (dual2 plainProgram).LanesOrdered ∧ (dual2 plainProgram).PipelineInv ∧
      (dual2 plainProgram).idex.lane1.readsReg 1#5 = true ∧ (dual2 plainProgram).idex.lane1.rs = 1#5) :=
  ⟨⟨by unfold Runs; decide +kernel, by unfold State.LanesOrdered; decide +kernel, inv_forward, by decide +kernel,
      by decide +kernel⟩, by decide +kernel, by decide +kernel, by decide +kernel, by decide +kernel,
    by unfold Runs; decide +kernel, ordered_plain, inv_plain, by decide +kernel, by decide +kernel⟩

theorem witness_JumpExclusionHarmless :
    (dual2 plainProgram).JumpsDrained ∧ (dual2 plainProgram).idex.lane1.empty = false :=
  ⟨inv_plain.drained, by decide +kernel⟩

theorem witness_CounterUpdate :
    (Predictor.atReset RunConfig.atReset).bht.length = 2 ^ RunConfig.atReset.h ∧
      (1 : Nat) ≠ (0 ^^^ (0#32 : Word).toNat / 4 % 2 ^ 4) % 2 ^ 4 := by decide +kernel

/-- R297's worked count, `H` = 4: six mispredictions, then none. -/
theorem test_predictor_converges : (List.range 8).map (fun k => (trained 4 0x40#32 k).predictTaken 4 0x40#32) =
    [false, false, false, false, false, false, true, true] := by decide +kernel

/-- The same machine with another history and other counters. -/
def otherPredictor (s : State) : State :=
  { s with predictor := { ghr := 3, bht := List.replicate 4 3#2 } }

theorem witness_PredictorNoninterference :
    SameButPredictor (dual2 branchProgram) (otherPredictor (dual2 branchProgram)) ∧ Runs .two (dual2 branchProgram) ∧
      (dual2 branchProgram).predictor ≠ (otherPredictor (dual2 branchProgram)).predictor ∧
      ∃ t, step (dual2 branchProgram) = .next t :=
  ⟨rfl, by unfold Runs; decide +kernel, by decide +kernel, _, steps (by decide +kernel)⟩

theorem witness_MemoryCanonicalKept : ∃ t, step (dual2 plainProgram) = .next t ∧ (dual2 plainProgram).MemoryCanonical :=
  ⟨_, step_plain, by unfold State.MemoryCanonical; decide +kernel⟩
theorem witness_PcAlignedKept : ∃ t, step (dual2 plainProgram) = .next t ∧ (dual2 plainProgram).PcAligned :=
  ⟨_, step_plain, by unfold State.PcAligned Lanes.Both; decide +kernel⟩
theorem witness_LatchesConsistentKept : ∃ t, step (dual2 plainProgram) = .next t ∧
    (dual2 plainProgram).LatchesConsistent := ⟨_, step_plain, inv_plain.consistent⟩
theorem witness_LanesOrderedKept : ∃ t, step (dual2 plainProgram) = .next t ∧ (dual2 plainProgram).LanesOrdered :=
  ⟨_, step_plain, ordered_plain⟩
theorem witness_PredictorShapedKept : ∃ t, step (dual2 plainProgram) = .next t ∧
    (dual2 plainProgram).PredictorShaped := ⟨_, step_plain, by unfold State.PredictorShaped; decide +kernel⟩
theorem witness_PipelineInvKept : ∃ t, step (dual2 plainProgram) = .next t ∧ (dual2 plainProgram).PipelineInv :=
  ⟨_, step_plain, inv_plain⟩
theorem witness_ThroughputBoundKept : ∃ t, step (dual2 plainProgram) = .next t ∧
    (dual2 plainProgram).ThroughputBounded := ⟨_, step_plain, by unfold State.ThroughputBounded; decide +kernel⟩

/-- A start with an entry and a memory that use the last word. -/
theorem witness_InvariantsAtStart :
    let cfg := { RunConfig.atReset with memWords := 256, entryPC := 0x3FC#32 }
    let mem := Memory.ofWordsFrom .little 255 [0x00221820#32]
    cfg.entryPC.toNat % 4 = 0 ∧ mem.wf = true ∧ ∀ c ∈ mem, c.1 < 4 * cfg.memWords := by decide +kernel

/-! ### Witnesses: the pipeline against the baseline -/

/-- An ADD that completes, a JR and an LW that fault. -/
theorem witness_DatapathAgreesWithRules :
    (let s := two 0x0E#32 0x101#32
     s.pc.toNat / 4 < s.cfg.memWords ∧
      (decodeWord 0x00221820#32 = .ok (.add 3#5 1#5 2#5) ∧ (nextOf (exec (.add 3#5 1#5 2#5) s)).isSome = true) ∧
      (decodeWord 0x00200008#32 = .ok (.jr 1#5) ∧ (faultOf (exec (.jr 1#5) s)).isSome = true) ∧
      (decodeWord 0x8C410000#32 = .ok (.lw 1#5 0#16 2#5) ∧ (faultOf (exec (.lw 1#5 0#16 2#5) s)).isSome = true)) := by
  decide +kernel

/-- What `PipelineRunsInstruction` assumes, of a program whose first instruction is `i`. -/
def RunsFirst (ws : List Word) (i : Instr) : Prop :=
  let s := boot .one true ws
  (Runs .one s ∧ s.ifid.lane1 = IfId.bubble ∧ s.idex.lane1 = IdEx.bubble ∧ s.exmem.lane1 = ExMem.bubble ∧
    s.memwb.lane1 = MemWb.bubble ∧ s.pc.toNat / 4 < s.cfg.memWords ∧ s.pc ≠ s.cfg.endPC ∧
    decodeWord (fetchWord s.cfg s.mem s.pc) = .ok i ∧ (nextOf (exec i s)).isSome = true) ∧
  ∃ u v, Reaches s 4 u ∧ Reaches u 1 v

/-- The next instruction behind a store is in `EXMEM`, behind a load-use in `IDEX`, behind a taken branch in `IFID`. -/
theorem witness_PipelineRunsInstruction :
    (RunsFirst storeLoadProgram (.sw 1#5 0#16 2#5) ∧
      (runTo 4 (boot .one true storeLoadProgram)).exmem.lane1.empty = false) ∧
    (RunsFirst loadUseProgram (.lw 1#5 0#16 2#5) ∧
      (runTo 4 (boot .one true loadUseProgram)).exmem.lane1.empty = true ∧
      (runTo 4 (boot .one true loadUseProgram)).idex.lane1.empty = false) ∧
    (RunsFirst branchProgram (.beq 0#5 0#5 2#16) ∧
      (runTo 4 (boot .one true branchProgram)).exmem.lane1.empty = true ∧
      (runTo 4 (boot .one true branchProgram)).idex.lane1.empty = true) := by
  refine ⟨⟨⟨?_, runTo 4 (boot .one true storeLoadProgram), runTo 5 (boot .one true storeLoadProgram), ?_, ?_⟩, ?_⟩,
    ⟨⟨?_, runTo 4 (boot .one true loadUseProgram), runTo 5 (boot .one true loadUseProgram), ?_, ?_⟩, ?_⟩,
    ⟨⟨?_, runTo 4 (boot .one true branchProgram), runTo 5 (boot .one true branchProgram), ?_, ?_⟩, ?_⟩⟩
  case refine_1 | refine_5 | refine_9 => unfold Runs; decide +kernel
  case refine_4 | refine_8 | refine_12 => decide +kernel
  all_goals exact reaches_of_runOpt (by decide +kernel)

theorem witness_StraightLineCycles :
    let cfg := { RunConfig.atReset with endPC := 12#32, memWords := 3 }
    4 * 3 < 2 ^ 32 ∧ 3 ≤ cfg.memWords ∧ cfg.entryPC = 0#32 ∧ cfg.endPC = BitVec.ofNat 32 (4 * 3) := by decide

/-- The parameters of the witness of `PipelineEqualsBaseline`. -/
def witnessConfig : RunConfig := { RunConfig.atReset with lanes := .two, h := 2, memWords := 64, endPC := 8#32 }

/-- SW R1,0(R2); ADDI R3,R1,#1 under the baseline, with `x[2]` = 0x40. -/
def witnessMemory : Memory := Memory.ofWords .little [0xAC410000#32, 0x20230001#32]

/-- The registers of that run. -/
def witnessRegs : RegFile := (State.reset.regs.write 1#5 5#32).write 2#5 0x40#32

/-- The baseline after `n` steps of that run. -/
def witnessAt (n : Nat) : State := runTo n (baseline witnessConfig witnessRegs witnessMemory)

theorem witness_reaches {i : Nat} (hi : i ≤ 2) {u : State}
    (h : Reaches (baseline witnessConfig witnessRegs witnessMemory) i u) : u = witnessAt i := by
  have h' : Reaches (baseline witnessConfig witnessRegs witnessMemory) i (witnessAt i) := by
    obtain rfl | rfl | rfl : i = 0 ∨ i = 1 ∨ i = 2 := by omega
    all_goals exact reaches_of_runOpt (by decide +kernel)
  exact Host.Outcome.next.inj (h.symm.trans h')

theorem witness_PipelineEqualsBaseline :
    BootRequirements witnessConfig witnessRegs witnessMemory 2 (witnessAt 2) where
  canonical := by decide +kernel
  entryAligned := by decide +kernel
  endAligned := by decide +kernel
  reaches := reaches_of_runOpt (by decide +kernel)
  running := by decide +kernel
  atEnd := by decide +kernel
  endIsNop := by
    intro i u hi h
    rw [witness_reaches hi h]
    unfold EndIsNop
    obtain rfl | rfl | rfl : i = 0 ∨ i = 1 ∨ i = 2 := by omega
    all_goals decide +kernel
  noNearStore := by
    intro i j u u' v hij hj _ h1 h2 h3
    rw [witness_reaches (by omega) h1, witness_reaches (by omega) h2, witness_reaches (by omega) h3]
    obtain ⟨rfl, rfl⟩ : i = 0 ∧ j = 1 := by omega
    decide +kernel

end Sys2Proof.Tests
end

/-! What the implementer's scope claims of a step (spec/00_scope.md): the parameters of a run are fixed (R3), and the
pipeline's own path through the stages gives every instruction the meaning of its rule (R5). -/

namespace Sys2Proof.Machine

/-! ### The parameters of a run -/

/-- No instruction's rule changes the parameters of the run (R3). -/
theorem Effect.cfg_eq {s t : State} (h : Effect s t) : t.cfg = s.cfg := by
  cases h <;> rfl

/-- No instruction of the single-cycle engine changes the parameters, nor does its stop at `END_PC` (R3, R210). -/
theorem seqStep_cfg {s t : State} (h : seqStep s = .next t) : t.cfg = s.cfg := by
  rcases seqStep_next h with ⟨-, rfl⟩ | ⟨-, -, i, u, -, hu, rfl⟩
  · rfl
  · exact (exec_effect hu).cfg_eq

/-- Settles O31, by the three kinds of step: a stopped machine, an instruction of the baseline, a cycle. -/
theorem parametersFixed : Obligations.ParametersFixed := by
  intro s t h
  rcases step_next h with ⟨hr, rfl⟩ | ⟨-, he, hs⟩ | ⟨-, -, hc⟩
  · exact ⟨rfl, fun hr' => by rw [hr] at hr'; cases hr'⟩
  · exact ⟨seqStep_cfg hs, fun _ he' => by rw [he] at he'; cases he'⟩
  · obtain ⟨hcfg, hcycles⟩ := cycle_frame hc
    exact ⟨hcfg, fun _ _ => hcycles⟩

/-! ### The control words of an instruction, from its opcode and function code (R101, R103) -/

section ControlWords
variable {w : Word} {i : Instr} {o f : BitVec 6}

theorem wordCtrl_of_opcode (hi : decodeWord w = .ok i) (ho : opcodeOf w = o) : wordCtrl w = decodeUnit o := by
  rw [wordCtrl_of_ok hi, ho]

/-- The rule on unsupported opcodes leaves the row of an instruction's word as the table has it. -/
theorem wordActl_of_codes (hi : decodeWord w = .ok i) (ho : opcodeOf w = o) (hf : functOf w = f) :
    wordActl w = aluControlRow (decodeUnit o).aluOp f o := by
  subst ho hf
  have hu := wordActl_of_ok hi
  simp only [wordActl, computeControl] at hu ⊢
  rw [hu, ← (Bool.or_eq_false_iff.1 hu).1]

end ControlWords

/-! ### The stages as equations -/

/-- The only fault of Execute is the redirect's (R229, R290). -/
theorem executeLane_eq (cfg : RunConfig) (p : Predictor) {e : IdEx} (he : e.empty = false) (a b : Word) :
    executeLane cfg p e a b = (executeRedirect e a b).map fun r =>
      { latch := e.toExMem a b, redirect := r, predictor := executePredictor cfg p e a b } := by
  unfold executeLane
  rw [he]
  cases executeRedirect e a b <;> rfl

/-- Memory loads, then stores; each half can fault (R232). -/
theorem memoryLane_eq (cfg : RunConfig) (mem : Memory) {m : ExMem} (he : m.empty = false)
    (hu : m.actl.unsupported = false) :
    memoryLane cfg mem m = (do
      let d ← loadStage cfg mem m
      let mem' ← storeStage cfg mem m
      pure (m.toMemWb d, mem')) := by
  unfold memoryLane
  rw [he, hu]
  cases loadStage cfg mem m with
  | error f => rfl
  | ok d => cases storeStage cfg mem m <;> rfl

theorem loadStage_of_not_load (cfg : RunConfig) (mem : Memory) {m : ExMem} (h : m.ctrl.memRead = false) :
    loadStage cfg mem m = .ok 0#32 := by
  simp [loadStage, h]

theorem loadStage_of_load (cfg : RunConfig) (mem : Memory) {m : ExMem} (h : m.ctrl.memRead = true) :
    loadStage cfg mem m = (memRead cfg mem m.aluResult (Ctrl.width m.ctrl)).map
      (extendData (Ctrl.width m.ctrl) m.ctrl.loadUnsigned) := by
  rw [loadStage, if_pos h]
  cases memRead cfg mem m.aluResult (Ctrl.width m.ctrl) <;> rfl

theorem storeStage_of_store (cfg : RunConfig) (mem : Memory) {m : ExMem} (h : m.ctrl.memWrite = true) :
    storeStage cfg mem m = memWrite cfg mem m.aluResult (Ctrl.width m.ctrl) m.storeData := if_pos h

theorem storeStage_of_not_store (cfg : RunConfig) (mem : Memory) {m : ExMem} (h : m.ctrl.memWrite = false) :
    storeStage cfg mem m = .ok mem := by
  simp [storeStage, h]

/-- A latch that would write register 0 writes nothing, as the register file itself does (R21, R213). -/
theorem MemWb.regs_of_writes {y : MemWb} (he : y.empty = false) (hw : y.ctrl.regWrite = true)
    (hj : y.actl.jumpReg = false) (regs : RegFile) :
    (if y.writesReg then regs.write y.dest y.wbValue else regs) = regs.write y.dest y.wbValue := by
  by_cases hd : y.dest = 0#5
  · simp [MemWb.writesReg, writesRegFields, hd]
  · simp [MemWb.writesReg, writesRegFields, he, hw, hj, hd]

theorem MemWb.writesReg_of_not_regWrite {y : MemWb} (h : y.ctrl.regWrite = false) : y.writesReg = false := by
  simp [MemWb.writesReg, writesRegFields, h]

theorem MemWb.writesReg_of_jumpReg {y : MemWb} (h : y.actl.jumpReg = true) : y.writesReg = false := by
  simp [MemWb.writesReg, writesRegFields, h]

/-! ### The ALU's operands and flag -/

/-- The ALU takes back from its first operand the shift amount Decode put there (R121, R228). -/
theorem setWidth_shamtOperand (shamt : BitVec 5) : (shamtOperand shamt).setWidth 5 = shamt := by
  simp [shamtOperand]

/-- The zero output of a subtraction says that the operands are equal (R104, R286). -/
theorem zeroFlag_sub (a b : Word) : zeroFlag (a - b) = (a == b) := by
  rw [zeroFlag, Bool.eq_iff_iff, beq_iff_eq, beq_iff_eq, BitVec.sub_eq_iff_eq_add, BitVec.zero_add]

/-! ### One word alone in the pipeline -/

section Alone
variable {s : State} {w : Word} {i : Instr}

/-- The `IDEX` latch of the word `w` at `s.pc` with no other instruction in flight (R225). -/
def State.alone (s : State) (w : Word) : IdEx :=
  decodeLane s.regs { empty := false, instr := w, pc := s.pc, pred := false }

@[simp] theorem State.alone_empty : (s.alone w).empty = false := rfl
@[simp] theorem State.alone_instr : (s.alone w).instr = w := rfl
@[simp] theorem State.alone_pc : (s.alone w).pc = s.pc := rfl
@[simp] theorem State.alone_pred : (s.alone w).pred = false := rfl
@[simp] theorem State.alone_ctrl : (s.alone w).ctrl = wordCtrl w := rfl
@[simp] theorem State.alone_actl : (s.alone w).actl = wordActl w := rfl
@[simp] theorem State.alone_rsVal : (s.alone w).rsVal = s.reg (rsOf w) := rfl
@[simp] theorem State.alone_rtVal : (s.alone w).rtVal = s.reg (rtOf w) := rfl
@[simp] theorem State.alone_imm : (s.alone w).imm = sextImm (immOf w) := rfl
@[simp] theorem State.alone_dest : (s.alone w).dest = destOf w (wordCtrl w) := rfl

/-- The redirect Execute answers for the word alone (R290). -/
def State.aloneRedirect (s : State) (w : Word) : Except Fault (Option Word) :=
  executeRedirect (s.alone w) (s.reg (rsOf w)) (s.reg (rtOf w))

/-- The result Execute gives the word alone (R228). -/
def State.aloneResult (s : State) (w : Word) : Word :=
  executeResult (s.alone w) (s.reg (rsOf w)) (s.reg (rtOf w))

/-- The `EXMEM` latch of the word alone (R229). -/
def State.aloneExMem (s : State) (w : Word) : ExMem := (s.alone w).toExMem (s.reg (rsOf w)) (s.reg (rtOf w))

@[simp] theorem State.aloneExMem_ctrl : (s.aloneExMem w).ctrl = wordCtrl w := rfl
@[simp] theorem State.aloneExMem_aluResult : (s.aloneExMem w).aluResult = s.aloneResult w := rfl
@[simp] theorem State.aloneExMem_storeData : (s.aloneExMem w).storeData = s.reg (rtOf w) := rfl

/-- The registers after the word alone retires with the loaded data `d` (R230). -/
def State.aloneRegs (s : State) (w : Word) (d : Word) : RegFile :=
  if ((s.aloneExMem w).toMemWb d).writesReg then
    s.regs.write (destOf w (wordCtrl w)) ((s.aloneExMem w).toMemWb d).wbValue
  else s.regs

/-- The datapath in one equation: for an instruction fetched from inside the memory only Execute's redirect and the
two halves of the Memory stage can fault, in that order (R230, R232, R235, R290). -/
theorem datapathStep_eq (hi : decodeWord w = .ok i) (hpc : wordIndex s.pc < s.cfg.memWords) :
    datapathStep s w = (do
      let redirect ← s.aloneRedirect w
      let d ← loadStage s.cfg s.mem (s.aloneExMem w)
      let mem ← storeStage s.cfg s.mem (s.aloneExMem w)
      pure { s with
        regs      := s.aloneRegs w d
        committed := s.committed + 1
        mem       := mem
        pc        := redirect.getD (nextPc s.pc) }) := by
  have hx : executeLane s.cfg s.predictor (s.alone w) (s.reg (rsOf w)) (s.reg (rtOf w)) =
      (s.aloneRedirect w).map fun r =>
        ⟨s.aloneExMem w, r, executePredictor s.cfg s.predictor (s.alone w) (s.reg (rsOf w)) (s.reg (rtOf w))⟩ :=
    executeLane_eq s.cfg s.predictor rfl _ _
  have hm := memoryLane_eq s.cfg s.mem (m := s.aloneExMem w) rfl (wordActl_of_ok hi)
  have hw (d : Word) := writebackLane_of_inRange (cfg := s.cfg) ⟨s.regs, s.committed⟩
    (w := (s.aloneExMem w).toMemWb d) (.inr hpc)
  unfold datapathStep
  rw [← State.alone]
  simp only [State.alone_rsVal, State.alone_rtVal, hx]
  cases s.aloneRedirect w with
  | error f => rfl
  | ok r =>
    simp only [Except.map, hm]
    cases loadStage s.cfg s.mem (s.aloneExMem w) with
    | error f => rfl
    | ok d =>
      cases storeStage s.cfg s.mem (s.aloneExMem w) with
      | error f => rfl
      | ok mem => simp only [bind, Except.bind, pure, Except.pure, hw]; rfl

/-- The state the word alone leaves when no stage faults. -/
theorem datapathStep_of_ok (hi : decodeWord w = .ok i) (hpc : wordIndex s.pc < s.cfg.memWords) {r : Option Word}
    {d : Word} {mem : Memory} (hr : s.aloneRedirect w = .ok r)
    (hd : loadStage s.cfg s.mem (s.aloneExMem w) = .ok d)
    (hs : storeStage s.cfg s.mem (s.aloneExMem w) = .ok mem) :
    datapathStep s w = .ok { s with
      regs      := s.aloneRegs w d
      committed := s.committed + 1
      mem       := mem
      pc        := r.getD (nextPc s.pc) } := by
  rw [datapathStep_eq hi hpc, hr, hd, hs]; rfl

/-- An instruction that touches no memory: its redirect and its register write remain. -/
theorem datapathStep_of_redirect (hi : decodeWord w = .ok i) (hpc : wordIndex s.pc < s.cfg.memWords)
    (hm : (wordCtrl w).memRead = false) (hs : (wordCtrl w).memWrite = false) {r : Option Word}
    (hr : s.aloneRedirect w = .ok r) :
    datapathStep s w = .ok { s with
      regs      := s.aloneRegs w 0#32
      committed := s.committed + 1
      pc        := r.getD (nextPc s.pc) } :=
  datapathStep_of_ok hi hpc hr (loadStage_of_not_load s.cfg s.mem hm) (storeStage_of_not_store s.cfg s.mem hs)

/-! ### What the word alone produces, by its control words -/

/-- An instruction that transfers no control does not redirect (R290). -/
theorem aloneRedirect_none (hb : (wordCtrl w).branch = false) (hj : (wordCtrl w).jump = false)
    (hr : (wordActl w).jumpReg = false) : s.aloneRedirect w = .ok none := by
  simp [State.aloneRedirect, executeRedirect, hb, hj, hr]

/-- A jump redirects to its target (R193, R194, R290). -/
theorem aloneRedirect_jump (hb : (wordCtrl w).branch = false) (hj : (wordCtrl w).jump = true) :
    s.aloneRedirect w = .ok (some (jumpTarget s.pc (indexOf w))) := by
  simp [State.aloneRedirect, executeRedirect, hb, hj]

theorem aloneRegs_of_writes (hw : (wordCtrl w).regWrite = true) (hj : (wordActl w).jumpReg = false) (d : Word) :
    s.aloneRegs w d = s.regs.write (destOf w (wordCtrl w)) (if (wordCtrl w).memToReg then d else s.aloneResult w) :=
  MemWb.regs_of_writes (y := (s.aloneExMem w).toMemWb d) rfl hw hj s.regs

theorem aloneRegs_of_not_regWrite (hw : (wordCtrl w).regWrite = false) (d : Word) : s.aloneRegs w d = s.regs :=
  if_neg (by rw [MemWb.writesReg_of_not_regWrite (y := (s.aloneExMem w).toMemWb d) hw]; decide)

theorem aloneRegs_of_jumpReg (hj : (wordActl w).jumpReg = true) (d : Word) : s.aloneRegs w d = s.regs :=
  if_neg (by rw [MemWb.writesReg_of_jumpReg (y := (s.aloneExMem w).toMemWb d) hj]; decide)

/-- Where Execute passes the ALU's output on, it is the result of the operation the ALU control names (R228). -/
theorem aloneResult_alu (hi : decodeWord w = .ok i) (hj : (wordCtrl w).jump = false) (hr : (wordActl w).jumpReg = false)
    (hl : (wordCtrl w).lui = false) :
    s.aloneResult w = aluResult (wordActl w).op (aluOperand1 (s.alone w) (s.reg (rsOf w)))
      (aluOperand2 (s.alone w) (s.reg (rtOf w))) := by
  simp [State.aloneResult, executeResult, aluOutput, aluExecute, hj, hr, hl, wordActl_of_ok hi]

/-- Execute's result for an instruction that adds its immediate is the effective address (R170, R228). -/
theorem aloneResult_effAddr (hi : decodeWord w = .ok i) {c : Ctrl} (hc : wordCtrl w = c)
    (ha : wordActl w = { AluControl.zero with op := .add }) (hj : c.jump = false) (hl : c.lui = false)
    (hs : c.aluSrc = true) : s.aloneResult w = effAddr (s.reg (rsOf w)) (immOf w) := by
  subst hc
  rw [aloneResult_alu hi hj (by rw [ha]; rfl) hl]
  simp [aluOperand1, aluOperand2, hs, ha, AluControl.zero, aluResult, effAddr]

/-- The word alone does what the outcome of a rule says: it leaves the rule's next state, counted once, or it raises
the rule's fault. -/
def Agrees (s : State) (w : Word) : Host.Outcome State Fault Refusal → Prop
  | .next t    => datapathStep s w = .ok { t with committed := s.committed + 1 }
  | .fault f   => datapathStep s w = .error f
  | .refused _ => False

variable (hi : decodeWord w = .ok i) (hpc : wordIndex s.pc < s.cfg.memWords)
include hi hpc

/-! ### Register-register, shift and immediate instructions (files 40 and 41) -/

/-- An instruction that only computes: it transfers no control, leaves the memory alone and writes Execute's result. -/
structure ComputesOnly (c : Ctrl) (a : AluControl) : Prop where
  branch   : c.branch = false
  jump     : c.jump = false
  jumpReg  : a.jumpReg = false
  memRead  : c.memRead = false
  memWrite : c.memWrite = false
  memToReg : c.memToReg = false
  regWrite : c.regWrite = true

theorem agrees_finishReg (h : ComputesOnly (wordCtrl w) (wordActl w)) :
    Agrees s w (s.finishReg (destOf w (wordCtrl w)) (s.aloneResult w)) := by
  have hstep := datapathStep_of_redirect hi hpc h.memRead h.memWrite (aloneRedirect_none h.branch h.jump h.jumpReg)
  rwa [aloneRegs_of_writes h.regWrite h.jumpReg, h.memToReg] at hstep

/-- The R-type instructions that compute: the row of the function code selects the ALU's operation, and the shift
amount as its first operand (R103, R228). -/
theorem agrees_rType (op : AluOp) (shift : Bool) {f : BitVec 6} {v : Word} (ho : opcodeOf w = 0x00#6)
    (hf : functOf w = f) (hop : functControl f = { AluControl.zero with op := op, shift := shift })
    (hv : aluResult op (if shift then shamtOperand (shamtOf w) else s.reg (rsOf w)) (s.reg (rtOf w)) = v) :
    Agrees s w (s.finishReg (rdOf w) v) := by
  have hc : wordCtrl w = Ctrl.rType := wordCtrl_of_opcode hi ho
  have ha : wordActl w = _ := (wordActl_of_codes hi ho hf).trans hop
  have h := agrees_finishReg hi hpc (by rw [hc, ha]; constructor <;> rfl)
  rw [aloneResult_alu hi (by rw [hc]; rfl) (by rw [ha]; rfl) (by rw [hc]; rfl)] at h
  simpa [aluOperand1, aluOperand2, destOf, hc, ha, Ctrl.rType, Ctrl.zero, hv] using h

/-- The immediate instructions: the row of the opcode selects the ALU's operation and the extension (R103, R228). -/
theorem agrees_immediate (op : AluOp) (zext : Bool) {o : BitVec 6} (ho : opcodeOf w = o)
    (hd : decodeUnit o = Ctrl.immediate) (hop : opcodeControl o = { AluControl.zero with op := op, zextImm := zext }) :
    Agrees s w (s.finishReg (rtOf w)
      (aluResult op (s.reg (rsOf w)) (if zext then zextImm (immOf w) else sextImm (immOf w)))) := by
  have hc : wordCtrl w = Ctrl.immediate := (wordCtrl_of_opcode hi ho).trans hd
  have ha : wordActl w = { AluControl.zero with op := op, zextImm := zext } := by
    rw [wordActl_of_codes hi ho rfl, hd]; exact hop
  have h := agrees_finishReg hi hpc (by rw [hc, ha]; constructor <;> rfl)
  rw [aloneResult_alu hi (by rw [hc]; rfl) (by rw [ha]; rfl) (by rw [hc]; rfl)] at h
  simpa [aluOperand1, aluOperand2, destOf, hc, ha, Ctrl.immediate, Ctrl.zero, AluControl.zero] using h

/-- LUI: Execute passes the upper immediate on (R157, R228). -/
theorem agrees_lui (ho : opcodeOf w = 0x0F#6) : Agrees s w (s.finishReg (rtOf w) (upperImm (immOf w))) := by
  have hc := wordCtrl_of_opcode hi ho
  have ha := wordActl_of_codes hi ho rfl
  have h := agrees_finishReg hi hpc (by rw [hc, ha]; constructor <;> rfl)
  simpa [State.aloneResult, executeResult, destOf, hc, ha, decodeUnit, Ctrl.zero, aluControlRow,
    AluControl.zero] using h

/-! ### Loads and stores (file 42) -/

/-- A load writes what the Memory stage read at the effective address, or faults there (R171 to R175, R232). -/
theorem agrees_load {byte half unsigned : Bool} {o : BitVec 6} {n : Width} (ho : opcodeOf w = o)
    (hd : decodeUnit o = { Ctrl.load with byte := byte, half := half, loadUnsigned := unsigned })
    (hn : Ctrl.width (decodeUnit o) = n) : Agrees s w (s.load (rtOf w) (rsOf w) (immOf w) n unsigned) := by
  have hc := (wordCtrl_of_opcode hi ho).trans hd
  have ha : wordActl w = { AluControl.zero with op := .add } := by rw [wordActl_of_codes hi ho rfl, hd]; rfl
  have hr : s.aloneRedirect w = .ok none :=
    aloneRedirect_none (by rw [hc]; rfl) (by rw [hc]; rfl) (by rw [ha]; rfl)
  have hs := storeStage_of_not_store (m := s.aloneExMem w) s.cfg s.mem (by simp [hc, Ctrl.load, Ctrl.zero])
  have hl := loadStage_of_load (m := s.aloneExMem w) s.cfg s.mem (by simp [hc, Ctrl.load])
  rw [State.aloneExMem_aluResult, aloneResult_effAddr hi hc ha rfl rfl rfl, State.aloneExMem_ctrl,
    wordCtrl_of_opcode hi ho, hn, hd] at hl
  cases hm : memRead s.cfg s.mem (effAddr (s.reg (rsOf w)) (immOf w)) n with
  | error f =>
    rw [load_of_error unsigned hm]
    show datapathStep s w = .error f
    rw [datapathStep_eq hi hpc, hr, hl, hm]; rfl
  | ok v =>
    rw [load_of_ok unsigned hm]
    rw [hm] at hl
    have h := datapathStep_of_ok hi hpc hr hl hs
    rwa [aloneRegs_of_writes (by rw [hc]; rfl) (by rw [ha]; rfl), hc] at h

/-- A store replaces the memory in the Memory stage, or faults there, and writes no register (R176 to R178, R232). -/
theorem agrees_store {byte half : Bool} {o : BitVec 6} {n : Width} (ho : opcodeOf w = o)
    (hd : decodeUnit o = { Ctrl.store with byte := byte, half := half }) (hn : Ctrl.width (decodeUnit o) = n) :
    Agrees s w (s.store (rtOf w) (rsOf w) (immOf w) n) := by
  have hc := (wordCtrl_of_opcode hi ho).trans hd
  have ha : wordActl w = { AluControl.zero with op := .add } := by rw [wordActl_of_codes hi ho rfl, hd]; rfl
  have hr : s.aloneRedirect w = .ok none :=
    aloneRedirect_none (by rw [hc]; rfl) (by rw [hc]; rfl) (by rw [ha]; rfl)
  have hl := loadStage_of_not_load (m := s.aloneExMem w) s.cfg s.mem (by simp [hc, Ctrl.store, Ctrl.zero])
  have hs := storeStage_of_store (m := s.aloneExMem w) s.cfg s.mem (by simp [hc, Ctrl.store])
  rw [State.aloneExMem_aluResult, aloneResult_effAddr hi hc ha rfl rfl rfl, State.aloneExMem_ctrl,
    wordCtrl_of_opcode hi ho, hn, State.aloneExMem_storeData] at hs
  cases hm : memWrite s.cfg s.mem (effAddr (s.reg (rsOf w)) (immOf w)) n (s.reg (rtOf w)) with
  | error f =>
    rw [store_of_error hm]
    show datapathStep s w = .error f
    rw [datapathStep_eq hi hpc, hr, hl, hs, hm]; rfl
  | ok m =>
    rw [store_of_ok hm]
    rw [hm] at hs
    have h := datapathStep_of_ok hi hpc hr hl hs
    rwa [aloneRegs_of_not_regWrite (by rw [hc]; rfl)] at h

/-! ### Branches and jumps (file 43) -/

/-- The redirect of a branch predicted not taken makes the next pc the rule's (R191, R192, R290). -/
theorem agrees_branch (ne : Bool) {o : BitVec 6} (ho : opcodeOf w = o)
    (hd : decodeUnit o = { Ctrl.zero with branch := true, branchNE := ne, aluOp := 0b01#2 }) {taken : Bool}
    (ht : branchTaken ne (s.reg (rsOf w) == s.reg (rtOf w)) = taken) : Agrees s w (s.branch taken (immOf w)) := by
  have hc := (wordCtrl_of_opcode hi ho).trans hd
  have ha : wordActl w = { AluControl.zero with op := .sub } := by rw [wordActl_of_codes hi ho rfl, hd]; rfl
  have hres : resolvedTaken (s.alone w) (s.reg (rsOf w)) (s.reg (rtOf w)) = taken := by
    simpa [resolvedTaken, aluOutput, aluExecute, aluOperand1, aluOperand2, aluResult, hc, ha, Ctrl.zero,
      AluControl.zero, zeroFlag_sub] using ht
  have hr : s.aloneRedirect w = .ok (if taken then some (branchTarget s.pc (immOf w)) else none) := by
    rw [State.aloneRedirect, executeRedirect, hres]
    cases taken <;> simp [hc, branchTarget]
  have h := datapathStep_of_redirect hi hpc (by rw [hc]; rfl) (by rw [hc]; rfl) hr
  rw [aloneRegs_of_not_regWrite (by rw [hc]; rfl)] at h
  cases taken <;> exact h

theorem agrees_j (ho : opcodeOf w = 0x02#6) : Agrees s w (execJ (indexOf w) s) := by
  have hc : wordCtrl w = { Ctrl.zero with jump := true } := wordCtrl_of_opcode hi ho
  have h := datapathStep_of_redirect hi hpc (by rw [hc]; rfl) (by rw [hc]; rfl)
    (aloneRedirect_jump (by rw [hc]; rfl) (by rw [hc]))
  rwa [aloneRegs_of_not_regWrite (by rw [hc]; rfl)] at h

theorem agrees_jal (ho : opcodeOf w = 0x03#6) : Agrees s w (execJal (indexOf w) s) := by
  have hc : wordCtrl w = { Ctrl.zero with jump := true, link := true, regWrite := true } := wordCtrl_of_opcode hi ho
  have ha := wordActl_of_codes hi ho rfl
  have h := datapathStep_of_redirect hi hpc (by rw [hc]; rfl) (by rw [hc]; rfl)
    (aloneRedirect_jump (by rw [hc]; rfl) (by rw [hc]))
  have hv : s.aloneResult w = nextPc s.pc := by simp [State.aloneResult, executeResult, hc]
  rwa [aloneRegs_of_writes (by rw [hc]) (by rw [ha]; rfl), hv, hc] at h

/-- JR redirects to its register's value, or faults in Execute when that is no multiple of 4 (R195, R290). -/
theorem agrees_jr (ho : opcodeOf w = 0x00#6) (hf : functOf w = 0x08#6) : Agrees s w (execJr (rsOf w) s) := by
  have hc : wordCtrl w = Ctrl.rType := wordCtrl_of_opcode hi ho
  have ha : wordActl w = { AluControl.zero with op := .add, jumpReg := true } := wordActl_of_codes hi ho hf
  have hr : s.aloneRedirect w = if aligned4 (s.reg (rsOf w)) then .ok (some (s.reg (rsOf w)))
      else .error (.misalignedTarget s.pc (s.reg (rsOf w))) := by
    simp [State.aloneRedirect, executeRedirect, hc, ha, Ctrl.rType, Ctrl.zero]
  unfold execJr
  cases hal : aligned4 (s.reg (rsOf w)) with
  | true =>
    rw [hal] at hr
    have h := datapathStep_of_redirect hi hpc (by rw [hc]; rfl) (by rw [hc]; rfl) hr
    rwa [aloneRegs_of_jumpReg (by rw [ha])] at h
  | false =>
    rw [hal] at hr
    show datapathStep s w = .error _
    rw [datapathStep_eq hi hpc, hr]; rfl

/-! ### Every instruction -/

/-- The datapath gives every word that decodes the meaning of its instruction, row by row of the opcode map. -/
theorem agrees_exec : Agrees s w (exec i s) := by
  have h := decodeWord_ok hi
  cases i with
  | sll rd rt shamt =>
    obtain ⟨ho, hf, rfl, rfl, rfl⟩ := h
    exact agrees_rType hi hpc .sll true ho hf rfl (by simp [aluResult, setWidth_shamtOperand])
  | srl rd rt shamt =>
    obtain ⟨ho, hf, rfl, rfl, rfl⟩ := h
    exact agrees_rType hi hpc .srl true ho hf rfl (by simp [aluResult, setWidth_shamtOperand])
  | sra rd rt shamt =>
    obtain ⟨ho, hf, rfl, rfl, rfl⟩ := h
    exact agrees_rType hi hpc .sra true ho hf rfl (by simp [aluResult, setWidth_shamtOperand])
  | jr rs => obtain ⟨ho, hf, rfl⟩ := h; exact agrees_jr hi hpc ho hf
  | add rd rs rt => obtain ⟨ho, hf, rfl, rfl, rfl⟩ := h; exact agrees_rType hi hpc .add false ho hf rfl rfl
  | addu rd rs rt => obtain ⟨ho, hf, rfl, rfl, rfl⟩ := h; exact agrees_rType hi hpc .add false ho hf rfl rfl
  | sub rd rs rt => obtain ⟨ho, hf, rfl, rfl, rfl⟩ := h; exact agrees_rType hi hpc .sub false ho hf rfl rfl
  | subu rd rs rt => obtain ⟨ho, hf, rfl, rfl, rfl⟩ := h; exact agrees_rType hi hpc .sub false ho hf rfl rfl
  | and rd rs rt => obtain ⟨ho, hf, rfl, rfl, rfl⟩ := h; exact agrees_rType hi hpc .and false ho hf rfl rfl
  | or rd rs rt => obtain ⟨ho, hf, rfl, rfl, rfl⟩ := h; exact agrees_rType hi hpc .or false ho hf rfl rfl
  | xor rd rs rt => obtain ⟨ho, hf, rfl, rfl, rfl⟩ := h; exact agrees_rType hi hpc .xor false ho hf rfl rfl
  | nor rd rs rt => obtain ⟨ho, hf, rfl, rfl, rfl⟩ := h; exact agrees_rType hi hpc .nor false ho hf rfl rfl
  | slt rd rs rt => obtain ⟨ho, hf, rfl, rfl, rfl⟩ := h; exact agrees_rType hi hpc .slt false ho hf rfl rfl
  | sltu rd rs rt => obtain ⟨ho, hf, rfl, rfl, rfl⟩ := h; exact agrees_rType hi hpc .sltu false ho hf rfl rfl
  | j index => obtain ⟨ho, rfl⟩ := h; exact agrees_j hi hpc ho
  | jal index => obtain ⟨ho, rfl⟩ := h; exact agrees_jal hi hpc ho
  | beq rs rt imm => obtain ⟨ho, rfl, rfl, rfl⟩ := h; exact agrees_branch hi hpc false ho rfl rfl
  | bne rs rt imm => obtain ⟨ho, rfl, rfl, rfl⟩ := h; exact agrees_branch hi hpc true ho rfl rfl
  | addi rt rs imm => obtain ⟨ho, rfl, rfl, rfl⟩ := h; exact agrees_immediate hi hpc .add false ho rfl rfl
  | addiu rt rs imm => obtain ⟨ho, rfl, rfl, rfl⟩ := h; exact agrees_immediate hi hpc .add false ho rfl rfl
  | slti rt rs imm => obtain ⟨ho, rfl, rfl, rfl⟩ := h; exact agrees_immediate hi hpc .slt false ho rfl rfl
  | sltiu rt rs imm => obtain ⟨ho, rfl, rfl, rfl⟩ := h; exact agrees_immediate hi hpc .sltu false ho rfl rfl
  | andi rt rs imm => obtain ⟨ho, rfl, rfl, rfl⟩ := h; exact agrees_immediate hi hpc .and true ho rfl rfl
  | ori rt rs imm => obtain ⟨ho, rfl, rfl, rfl⟩ := h; exact agrees_immediate hi hpc .or true ho rfl rfl
  | lui rt imm => obtain ⟨ho, rfl, rfl⟩ := h; exact agrees_lui hi hpc ho
  | lb rt imm rs => obtain ⟨ho, rfl, rfl, rfl⟩ := h; exact agrees_load hi hpc ho rfl rfl
  | lh rt imm rs => obtain ⟨ho, rfl, rfl, rfl⟩ := h; exact agrees_load hi hpc ho rfl rfl
  | lw rt imm rs => obtain ⟨ho, rfl, rfl, rfl⟩ := h; exact agrees_load hi hpc ho rfl rfl
  | lbu rt imm rs => obtain ⟨ho, rfl, rfl, rfl⟩ := h; exact agrees_load hi hpc ho rfl rfl
  | lhu rt imm rs => obtain ⟨ho, rfl, rfl, rfl⟩ := h; exact agrees_load hi hpc ho rfl rfl
  | sb rt imm rs => obtain ⟨ho, rfl, rfl, rfl⟩ := h; exact agrees_store hi hpc ho rfl rfl
  | sh rt imm rs => obtain ⟨ho, rfl, rfl, rfl⟩ := h; exact agrees_store hi hpc ho rfl rfl
  | sw rt imm rs => obtain ⟨ho, rfl, rfl, rfl⟩ := h; exact agrees_store hi hpc ho rfl rfl

end Alone

/-- Settles O56: the datapath agrees with the rule of every instruction (`agrees_exec`), whether the rule answers a next
state or a fault. -/
theorem datapathAgreesWithRules : Obligations.DatapathAgreesWithRules := by
  intro s w i hi hpc
  have h := agrees_exec hi hpc
  exact ⟨fun t ht => by rwa [ht] at h, fun f hf => by rwa [hf] at h⟩

end Sys2Proof.Machine

/-! What every step keeps of the state (spec/10_state.md): the memory's form, aligned addresses, the predictor's shape,
self-consistent latches, and what stalls, forwarding and flushes rest on. -/

namespace Sys2Proof.Machine

/-! ### Settled by the register file and the run state -/

/-- Settles O17: the reads of one call are those before its write, and a read after it is `RegFile.read_write`. -/
theorem registerFileAccess : Obligations.RegisterFileAccess := by
  intro regs i j w doWrite v
  refine ⟨rfl, rfl, rfl, fun q hq => ?_⟩
  cases doWrite with
  | false => simp
  | true => simp [RegFile.read_write, hq]

theorem countOutcome_not_refused {o : Host.Outcome State Fault Refusal} {r : Refusal} (h : o ≠ .refused r) :
    countOutcome o ≠ .refused r := by
  cases o with
  | next t => nofun
  | fault f => nofun
  | refused r' => exact h

theorem seqStep_not_refused (s : State) (r : Refusal) : seqStep s ≠ .refused r := by
  unfold seqStep
  split
  · nofun
  · split
    · nofun
    · split
      · nofun
      · exact countOutcome_not_refused (exec_not_refused _ s r)

theorem outcomeOf_not_refused (o : Except Fault State) (r : Refusal) : outcomeOf o ≠ .refused r := by
  cases o <;> nofun

/-- No step is refused: neither engine has a rule that refuses (R15). -/
theorem step_not_refused (s : State) (r : Refusal) : step s ≠ .refused r := by
  unfold step
  split
  · nofun
  · nofun
  · split
    · exact seqStep_not_refused s r
    · exact outcomeOf_not_refused _ r

/-- Settles O29: a stopped machine answers by its run state alone, and no rule of either engine refuses. -/
theorem stoppedMachine : Obligations.StoppedMachine := by
  refine ⟨fun s h => ?_, fun s f h => ?_, fun s f h => ?_, step_not_refused⟩
  · simp [step, h]
  · simp [step, h]
  · simp [tick, h, State.raise]

/-! ### How an invariant is kept by every step -/

/-- An instruction's rule changes registers, PC and memory only. -/
theorem Effect.frame {s t : State} (h : Effect s t) : t = { s with regs := t.regs, pc := t.pc, mem := t.mem } := by
  cases h <;> rfl

section Keeps
variable {P : State → Prop}

/-- A property that both engines keep is kept by every step: a stopped machine stays as it is (R41). -/
theorem step_keeps (hseq : ∀ s t : State, s.cfg.engine = .singleCycle → seqStep s = .next t → P s → P t)
    (hcycle : ∀ s t : State, s.run = .running → s.cfg.engine = .pipelined → step s = .next t → P s → P t) :
    ∀ s t : State, step s = .next t → P s → P t := by
  intro s t h hs
  rcases step_next h with ⟨-, rfl⟩ | ⟨-, he, hq⟩ | ⟨hr, he, -⟩
  · exact hs
  · exact hseq s t he hq hs
  · exact hcycle s t hr he h hs

/-- A property that rests on no register, counter or run state is kept by every step when the instructions' rules and
the latch updates of both engines keep it: the halt check and the counting change nothing else. -/
theorem step_keeps_of_updates
    (hframe : ∀ (s : State) (regs : RegFile) (cycles committed : Nat) (run : RunState), P s →
      P { s with regs := regs, cycles := cycles, committed := committed, run := run })
    (hexec : ∀ (i : Instr) (s t : State), exec i s = .next t → P s → P t)
    (hscalar : ∀ (s : State) (r : Retired) (y : MemWb) (mem : Memory) (x : Executed),
      memoryLane s.cfg s.mem s.exmem.lane1 = .ok (y, mem) → s.executeOn s.predictor s.idex.lane1 = .ok x →
      P s → P (scalarUpdate s r y mem x))
    (hdual : ∀ (s : State) (r : Retired) (y : Lanes MemWb) (mem : Memory) (x : ExecutedBoth),
      memoryBoth s = .ok (y, mem) → executeBoth s = .ok x → P s → P (dualUpdate s r y mem x)) :
    ∀ s t : State, step s = .next t → P s → P t := by
  have hhalt : ∀ {u t : State}, u.haltCheck = .ok t → P u → P t := by
    intro u t h hu
    rw [haltCheck_frame h]
    exact hframe u t.regs u.cycles t.committed t.run hu
  refine step_keeps (fun s t _ h hs => ?_) (fun s t hr he h hs => ?_)
  · rcases seqStep_next h with ⟨-, rfl⟩ | ⟨-, -, i, u, -, hu, rfl⟩
    · exact hframe s s.regs s.cycles s.committed .halted hs
    · exact hframe u u.regs (u.cycles + 1) (u.committed + 1) u.run (hexec i s u hu hs)
  · rcases pipelined_next hr he h with ⟨-, r, y, mem, x, -, hm, hx, hh⟩ | ⟨-, r, y, mem, x, -, hm, hx, hh⟩
    · exact hhalt hh (hscalar s r y mem x hm hx hs)
    · exact hhalt hh (hdual s r y mem x hm hx hs)

end Keeps

/-! ### The memory's canonical form and size (R31, R50) -/

/-- `State.MemoryCanonical`, of a memory under the parameters of a run. -/
def Memory.Canonical (cfg : RunConfig) (m : Memory) : Prop := m.wf = true ∧ ∀ c ∈ m, c.1 < 4 * cfg.memWords

/-- A byte write lists no address but its own that was not listed before. -/
theorem Memory.mem_write {a : Nat} {v : Byte} {c : Host.Cell} :
    ∀ {m : Memory}, c ∈ m.write a v → c.1 = a ∨ c ∈ m
  | [], h => by
    unfold Memory.write at h
    split at h
    · exact .inr h
    · exact .inl (by rw [List.mem_singleton.1 h])
  | (b, w) :: m, h => by
    unfold Memory.write at h
    split at h
    · split at h
      · exact .inr h
      · rcases List.mem_cons.1 h with rfl | h
        · exact .inl rfl
        · exact .inr h
    · split at h
      · split at h
        · exact .inr (List.mem_cons_of_mem _ h)
        · rcases List.mem_cons.1 h with rfl | h
          · exact .inl rfl
          · exact .inr (List.mem_cons_of_mem _ h)
      · rcases List.mem_cons.1 h with rfl | h
        · exact .inr List.mem_cons_self
        · exact (Memory.mem_write h).imp_right (List.mem_cons_of_mem _)

/-- A word write lists no address outside its word that was not listed before. -/
theorem Memory.mem_setWord {bo : ByteOrder} {m : Memory} {k : Nat} {w : Word} {c : Host.Cell}
    (h : c ∈ m.setWord bo k w) : c.1 / 4 = k ∨ c ∈ m := by
  unfold Memory.setWord at h
  rcases Memory.mem_write h with h | h
  · omega
  rcases Memory.mem_write h with h | h
  · omega
  rcases Memory.mem_write h with h | h
  · omega
  rcases Memory.mem_write h with h | h
  · omega
  exact .inr h

/-- A store that passes its range check keeps the memory canonical and inside its size (R51, R57). -/
theorem memWrite_canonical {cfg : RunConfig} {m m' : Memory} {a : Word} {n : Width} {v : Word} (hm : m.Canonical cfg)
    (h : memWrite cfg m a n v = .ok m') : m'.Canonical cfg := by
  refine ⟨memWrite_wf hm.1 h, fun c hc => ?_⟩
  obtain ⟨-, hr, rfl⟩ := memWrite_ok h
  rcases Memory.mem_setWord hc with hk | hc
  · omega
  · exact hm.2 c hc

theorem memoryLane_canonical {cfg : RunConfig} {mem mem' : Memory} {m : ExMem} {y : MemWb} (hm : mem.Canonical cfg)
    (h : memoryLane cfg mem m = .ok (y, mem')) : mem'.Canonical cfg := by
  rcases memoryLane_ok h with ⟨-, -, rfl⟩ | ⟨-, -, d, -, hs, -⟩
  · exact hm
  · rcases storeStage_ok hs with ⟨-, rfl⟩ | ⟨-, hw⟩
    · exact hm
    · exact memWrite_canonical hm hw

theorem Effect.memoryCanonical {s t : State} (h : Effect s t) (hs : s.MemoryCanonical) : t.MemoryCanonical := by
  cases h with
  | store m a n v hw => exact memWrite_canonical hs hw
  | reg rd v => exact hs
  | jump target => exact hs
  | link target => exact hs

/-- Settles O48: memory changes only by stores that pass their range check (`memWrite_canonical`). -/
theorem memoryCanonicalKept : Obligations.MemoryCanonicalKept := by
  refine step_keeps_of_updates (fun _ _ _ _ _ hs => hs) (fun i s t h hs => ?_) (fun s r y mem x hm _ hs => ?_)
    (fun s r y mem x hm _ hs => ?_)
  · exact (exec_effect h).memoryCanonical hs
  · exact memoryLane_canonical hs hm
  · obtain ⟨mem1, h1, h2⟩ := memoryBoth_ok hm
    exact memoryLane_canonical (memoryLane_canonical hs h1) h2

/-! ### Aligned addresses (R27, R28) -/

/-- Where the instruction at `pc` can send the fetch: to the next word, to the next word displaced by a number of words,
to a jump's target, to the address in a register when it is aligned (R190 to R195). -/
inductive Successor (pc : Word) : Word → Prop where
  | next : Successor pc (nextPc pc)
  | branch (offset : Word) : Successor pc (nextPc pc + offset <<< 2)
  | jump (index : BitVec 26) : Successor pc (jumpTarget pc index)
  | register (a : Word) (h : aligned4 a = true) : Successor pc a

/-- The successors of an aligned address are aligned. -/
theorem Successor.aligned {pc a : Word} (h : Successor pc a) (hpc : pc.toNat % 4 = 0) : a.toNat % 4 = 0 := by
  have hnext : (nextPc pc).toNat % 4 = 0 := by simp only [nextPc, BitVec.toNat_add, BitVec.toNat_ofNat]; omega
  cases h with
  | next => exact hnext
  | branch offset => simp only [BitVec.toNat_add, BitVec.toNat_shiftLeft, Nat.shiftLeft_eq]; omega
  | jump index => simp only [jumpTarget_eq_jumpAddress, jumpAddress, BitVec.toNat_ofNat]; omega
  | register a h => exact (aligned4_iff a).1 h

/-- An instruction's rule sends the PC to one of the successors (R120, R150, R190 to R195). -/
theorem exec_successor {i : Instr} {s t : State} (h : exec i s = .next t) : Successor s.pc t.pc := by
  have hreg : ∀ {rd v}, s.finishReg rd v = .next t → Successor s.pc t.pc := by
    intro rd v h
    obtain rfl := Host.Outcome.next.inj h
    exact .next
  have hload : ∀ {rt rs imm n u}, s.load rt rs imm n u = .next t → Successor s.pc t.pc := by
    intro rt rs imm n u h
    obtain ⟨v, -, rfl⟩ := load_next h
    exact .next
  have hstore : ∀ {rt rs imm n}, s.store rt rs imm n = .next t → Successor s.pc t.pc := by
    intro rt rs imm n h
    obtain ⟨m, -, rfl⟩ := store_next h
    exact .next
  have hbranch : ∀ {tk imm}, s.branch tk imm = .next t → Successor s.pc t.pc := by
    intro tk imm h
    obtain rfl := Host.Outcome.next.inj h
    cases tk with
    | false => exact .next
    | true => exact .branch (sextImm imm)
  cases i with
  | jr rs =>
    simp only [exec, execJr] at h
    split at h
    · rename_i ha
      obtain rfl := Host.Outcome.next.inj h
      exact .register _ ha
    · cases h
  | j index => obtain rfl := Host.Outcome.next.inj h; exact .jump index
  | jal index => obtain rfl := Host.Outcome.next.inj h; exact .jump index
  | beq rs rt imm => exact hbranch h
  | bne rs rt imm => exact hbranch h
  | lb rt imm rs => exact hload h
  | lh rt imm rs => exact hload h
  | lw rt imm rs => exact hload h
  | lbu rt imm rs => exact hload h
  | lhu rt imm rs => exact hload h
  | sb rt imm rs => exact hstore h
  | sh rt imm rs => exact hstore h
  | sw rt imm rs => exact hstore h
  | _ => exact hreg h

/-- A redirect goes to a successor of the instruction that redirects (R290). -/
theorem executeOn_successor {s : State} {p : Predictor} {e : IdEx} {x : Executed} {target : Word}
    (h : s.executeOn p e = .ok x) (hx : x.redirect = some target) : Successor e.pc target := by
  rcases executeLane_ok h with ⟨-, rfl⟩ | ⟨-, hr, -, -⟩
  · cases hx
  · rw [hx] at hr
    rcases executeRedirect_some hr with ⟨-, -, rfl⟩ | ⟨-, -, rfl⟩ | ⟨-, -, -, ha, rfl⟩
    · split
      · exact .branch e.imm
      · exact .next
    · exact .jump _
    · exact .register _ ha

/-- The fetch goes on at a successor of the word fetched last (R222, R284). -/
theorem nextFetch_successor (l : IfId) : Successor l.pc (nextFetch l) := by
  unfold nextFetch
  split
  · exact .branch _
  · exact .next

/-- `State.PcAligned`, of the front end. -/
def FrontEnd.PcAligned (f : FrontEnd) : Prop :=
  f.pc.toNat % 4 = 0 ∧ f.ifid.Both (fun l => l.pc.toNat % 4 = 0) ∧ f.idex.Both (fun l => l.pc.toNat % 4 = 0)

theorem FrontEnd.flushed_pcAligned {target : Word} (h : target.toNat % 4 = 0) : (FrontEnd.flushed target).PcAligned :=
  ⟨h, ⟨rfl, rfl⟩, ⟨rfl, rfl⟩⟩

theorem decodeLane_pcAligned (regs : RegFile) {l : IfId} (h : l.pc.toNat % 4 = 0) :
    (decodeLane regs l).pc.toNat % 4 = 0 := by
  cases he : l.empty with
  | true => rw [decodeLane_of_empty he]; rfl
  | false => rw [decodeLane_of_full he]; exact h

theorem ExMoved.pcAligned {e : IdEx} {m : ExMem} (h : ExMoved e m) (he : e.pc.toNat % 4 = 0) : m.pc.toNat % 4 = 0 := by
  rcases h with rfl | ⟨-, a, b, rfl⟩
  · rfl
  · exact he

theorem MemMoved.pcAligned {m : ExMem} {w : MemWb} (h : MemMoved m w) (hm : m.pc.toNat % 4 = 0) :
    w.pc.toNat % 4 = 0 := by
  rcases h with ⟨-, rfl⟩ | ⟨-, d, -, rfl⟩
  · rfl
  · exact hm

/-- The words fetched in one cycle, and the address fetched next, are aligned when the PC is (R312). -/
theorem fetchBoth_pcAligned (cfg : RunConfig) (mem : Memory) (p : Predictor) {pc : Word} (h : pc.toNat % 4 = 0) :
    (fetchBoth cfg mem p pc).2.toNat % 4 = 0 ∧ (fetchBoth cfg mem p pc).1.Both (fun l => l.pc.toNat % 4 = 0) := by
  have h2 : (nextPc pc).toNat % 4 = 0 := Successor.next.aligned h
  unfold fetchBoth
  dsimp only
  split
  · exact ⟨(nextFetch_successor _).aligned h, h, rfl⟩
  · exact ⟨(nextFetch_successor _).aligned h2, h, h2⟩

theorem scalarFront_pcAligned {s : State} (hs : s.PcAligned) (regs : RegFile) (mem : Memory) {x : Executed}
    (hx : ∀ target, x.redirect = some target → target.toNat % 4 = 0) : (scalarFront s regs mem x).PcAligned := by
  obtain ⟨hpc, hf, -⟩ := hs
  unfold scalarFront
  dsimp only
  split
  · rename_i target ht; exact FrontEnd.flushed_pcAligned (hx target ht)
  · split
    · exact ⟨hpc, hf, rfl, rfl⟩
    · exact ⟨(nextFetch_successor _).aligned hpc, ⟨hpc, rfl⟩, decodeLane_pcAligned regs hf.1, rfl⟩

theorem dualFront_pcAligned {s : State} (hs : s.PcAligned) (regs : RegFile) (mem : Memory) {redirect : Option Word}
    (p : Predictor) (hx : ∀ target, redirect = some target → target.toNat % 4 = 0) :
    (dualFront s regs mem redirect p).PcAligned := by
  obtain ⟨hpc, hf, -⟩ := hs
  have hd1 := decodeLane_pcAligned regs hf.1
  have hd2 := decodeLane_pcAligned regs hf.2
  unfold dualFront
  dsimp only
  split
  · rename_i target; exact FrontEnd.flushed_pcAligned (hx target rfl)
  · split
    · exact ⟨hpc, hf, rfl, rfl⟩
    · split
      · exact ⟨hpc, ⟨rfl, hf.2⟩, hd1, rfl⟩
      · obtain ⟨hnext, hfetch⟩ := fetchBoth_pcAligned s.cfg mem p hpc
        exact ⟨hnext, hfetch, hd1, hd2⟩

theorem scalarUpdate_pcAligned {s : State} {r : Retired} {y : MemWb} {mem : Memory} {x : Executed}
    (hm : memoryLane s.cfg s.mem s.exmem.lane1 = .ok (y, mem)) (hx : s.executeOn s.predictor s.idex.lane1 = .ok x)
    (hs : s.PcAligned) : (scalarUpdate s r y mem x).PcAligned := by
  have ⟨_, _, hd, he, _⟩ := hs
  obtain ⟨hpc, hifid, hidex⟩ :=
    scalarFront_pcAligned hs r.regs mem fun target ht => (executeOn_successor hx ht).aligned hd.1
  exact ⟨hpc, hifid, hidex, ⟨(exMoved_of_ok hx).pcAligned hd.1, rfl⟩, (memMoved_of_ok hm).pcAligned he.1, rfl⟩

/-- The latches and the redirect that Execute of both lanes makes from an aligned `IDEX` are aligned (R304). -/
theorem executeBoth_pcAligned {s : State} {x : ExecutedBoth} (hx : executeBoth s = .ok x)
    (hd : s.idex.Both (fun l => l.pc.toNat % 4 = 0)) :
    x.latches.Both (fun l => l.pc.toNat % 4 = 0) ∧ ∀ target, x.redirect = some target → target.toNat % 4 = 0 := by
  obtain ⟨x1, h1, ⟨target, ht, rfl⟩ | ⟨-, x2, h2, rfl⟩⟩ := executeBoth_ok hx
  · refine ⟨⟨(exMoved_of_ok h1).pcAligned hd.1, rfl⟩, fun target' ht' => ?_⟩
    obtain rfl := Option.some.inj ht'
    exact (executeOn_successor h1 ht).aligned hd.1
  · exact ⟨⟨(exMoved_of_ok h1).pcAligned hd.1, (exMoved_of_ok h2).pcAligned hd.2⟩,
      fun target ht => (executeOn_successor h2 ht).aligned hd.2⟩

theorem dualUpdate_pcAligned {s : State} {r : Retired} {y : Lanes MemWb} {mem : Memory} {x : ExecutedBoth}
    (hm : memoryBoth s = .ok (y, mem)) (hx : executeBoth s = .ok x) (hs : s.PcAligned) :
    (dualUpdate s r y mem x).PcAligned := by
  have ⟨_, _, hd, he, _⟩ := hs
  obtain ⟨hlatches, hredirect⟩ := executeBoth_pcAligned hx hd
  obtain ⟨hpc, hifid, hidex⟩ := dualFront_pcAligned hs r.regs mem x.predictor hredirect
  obtain ⟨mem1, h1, h2⟩ := memoryBoth_ok hm
  exact ⟨hpc, hifid, hidex, hlatches, (memMoved_of_ok h1).pcAligned he.1, (memMoved_of_ok h2).pcAligned he.2⟩

/-- Settles O49: every new PC is a `Successor` of an aligned address, and a latch takes its pc from the one behind. -/
theorem pcAlignedKept : Obligations.PcAlignedKept := by
  refine step_keeps_of_updates (fun _ _ _ _ _ hs => hs) (fun i s t h hs => ?_)
    (fun _ _ _ _ _ => scalarUpdate_pcAligned) (fun _ _ _ _ _ => dualUpdate_pcAligned)
  obtain ⟨hpc, hlatches⟩ := hs
  rw [(exec_effect h).frame]
  exact ⟨(exec_successor h).aligned hpc, hlatches⟩

/-! ### The predictor's shape (R37) -/

/-- `State.PredictorShaped`, of a predictor under the parameters of a run. -/
def Predictor.Shaped (cfg : RunConfig) (p : Predictor) : Prop :=
  if cfg.predict then p.ghr < 2 ^ cfg.h ∧ p.bht.length = 2 ^ cfg.h else p = { ghr := 0, bht := [] }

/-- The resolution of a branch keeps the shape: it sets one counter of the table and cuts the history to `H` bits. -/
theorem Predictor.resolve_shaped {cfg : RunConfig} {p : Predictor} (hp : p.Shaped cfg) (pc : Word) (taken : Bool) :
    (p.resolve cfg pc taken).Shaped cfg := by
  unfold Predictor.Shaped Predictor.resolve at *
  cases hon : cfg.predict with
  | false => simpa [hon] using hp
  | true =>
    simp only [hon, if_true] at hp ⊢
    exact ⟨Nat.mod_lt _ (by positivity), by simp [Predictor.update, hp.2]⟩

theorem executeOn_shaped {s : State} {p : Predictor} {e : IdEx} {x : Executed} (h : s.executeOn p e = .ok x)
    (hp : p.Shaped s.cfg) : x.predictor.Shaped s.cfg := by
  rcases executeLane_ok h with ⟨-, rfl⟩ | ⟨-, -, -, hx⟩
  · exact hp
  · rw [hx, executePredictor]
    split
    · exact Predictor.resolve_shaped hp _ _
    · exact hp

/-- Settles O52: only a resolving branch changes the predictor (`Predictor.resolve_shaped`). -/
theorem predictorShapedKept : Obligations.PredictorShapedKept := by
  refine step_keeps_of_updates (fun _ _ _ _ _ hs => hs) (fun i s t h hs => ?_) (fun s r y mem x _ hx hs => ?_)
    (fun s r y mem x _ hx hs => ?_)
  · rw [(exec_effect h).frame]; exact hs
  · exact executeOn_shaped (s := s) hx hs
  · obtain ⟨x1, h1, ⟨target, -, rfl⟩ | ⟨-, x2, h2, rfl⟩⟩ := executeBoth_ok hx
    · exact executeOn_shaped (s := s) h1 hs
    · exact executeOn_shaped (s := s) h2 (executeOn_shaped h1 hs)

/-! ### What moves through the latches -/

/-- The single-cycle engine leaves the latches alone (R3, R210). -/
theorem seqStep_latches {s t : State} (h : seqStep s = .next t) :
    t.ifid = s.ifid ∧ t.idex = s.idex ∧ t.exmem = s.exmem ∧ t.memwb = s.memwb := by
  rcases seqStep_next h with ⟨-, rfl⟩ | ⟨-, -, i, u, -, hu, rfl⟩
  · exact ⟨rfl, rfl, rfl, rfl⟩
  · rw [(exec_effect hu).frame]; exact ⟨rfl, rfl, rfl, rfl⟩

/-- What holds of a bubble, of a fetched word and of `IFID` before a cycle holds of `IFID` after it. -/
theorem FrontCase.ifid_both {s t : State} {regs : RegFile} {p : IfId → Prop} (h : FrontCase s regs t)
    (hb : p IfId.bubble) (hf : ∀ mem q pc, p (fetchLatch s.cfg mem q pc)) (hs : s.ifid.Both p) : t.ifid.Both p := by
  cases h with
  | flush _ ifid => rw [ifid]; exact ⟨hb, hb⟩
  | stall _ ifid => rw [ifid]; exact hs
  | split _ _ ifid _ => rw [ifid]; exact ⟨hb, hs.2⟩
  | goOne _ mem q _ ifid _ => rw [ifid]; exact ⟨hf mem q _, hb⟩
  | goTwo _ mem q _ ifid _ _ =>
    rcases ifid with ifid | ifid
    · rw [ifid]; exact ⟨hf mem q _, hb⟩
    · rw [ifid]; exact ⟨hf mem q _, hf mem q _⟩

/-- What holds of a bubble and of what Decode makes of `IFID` holds of `IDEX` after a cycle. -/
theorem FrontCase.idex_both {s t : State} {regs : RegFile} {p : IdEx → Prop} (h : FrontCase s regs t)
    (hb : p IdEx.bubble) (hd : s.ifid.Both (fun l => p (decodeLane regs l))) : t.idex.Both p := by
  cases h with
  | flush idex _ => rw [idex]; exact ⟨hb, hb⟩
  | stall idex _ => rw [idex]; exact ⟨hb, hb⟩
  | split _ idex _ _ => rw [idex]; exact ⟨hd.1, hb⟩
  | goOne _ _ _ idex _ _ => rw [idex]; exact ⟨hd.1, hb⟩
  | goTwo _ _ _ idex _ _ _ => rw [idex]; exact hd

/-- What holds of a bubble and of all that Memory makes of `EXMEM` holds of `MEMWB` after a cycle. -/
theorem Moved.memwb_both {s t : State} {regs : RegFile} {p : MemWb → Prop} (h : Moved s t regs) (hb : p MemWb.bubble)
    (hm : s.exmem.Both (fun m => ∀ w, MemMoved m w → p w)) : t.memwb.Both p := by
  refine ⟨hm.1 _ h.memwb1, ?_⟩
  rcases h.memwb2 with ⟨-, hw⟩ | hw
  · rw [hw]; exact hb
  · exact hm.2 _ hw

/-! ### Self-consistent latches (R34, R283) -/

theorem predictedTaken_legal (cfg : RunConfig) (p : Predictor) (pc instr : Word) :
    PredLegal cfg (predictedTaken cfg p pc instr) instr := by
  intro h
  simp only [predictedTaken, Bool.and_eq_true] at h
  exact h.1

theorem IfId.bubble_consistent (cfg : RunConfig) : IfId.bubble.Consistent cfg := ⟨fun _ => rfl, nofun⟩

theorem IdEx.bubble_consistent (cfg : RunConfig) : IdEx.bubble.Consistent cfg := ⟨fun _ => rfl, nofun, nofun⟩

theorem ExMem.bubble_consistent : ExMem.bubble.Consistent := ⟨fun _ => rfl, nofun⟩

theorem MemWb.bubble_consistent : MemWb.bubble.Consistent := ⟨fun _ => rfl, nofun, fun _ => rfl⟩

theorem fetchLatch_consistent (cfg : RunConfig) (mem : Memory) (p : Predictor) (pc : Word) :
    (fetchLatch cfg mem p pc).Consistent cfg := ⟨nofun, predictedTaken_legal cfg p pc _⟩

/-- Decode computes the control words and the fields from the word, and passes the prediction on (R225). -/
theorem decodeLane_consistent {cfg : RunConfig} (regs : RegFile) {l : IfId} (h : l.Consistent cfg) :
    (decodeLane regs l).Consistent cfg := by
  cases he : l.empty with
  | true => rw [decodeLane_of_empty he]; exact IdEx.bubble_consistent cfg
  | false => rw [decodeLane_of_full he]; exact ⟨nofun, fun _ => ⟨rfl, rfl, rfl, rfl, rfl, rfl⟩, h.2⟩

theorem ExMoved.consistent {cfg : RunConfig} {e : IdEx} {m : ExMem} (h : ExMoved e m) (he : e.Consistent cfg) :
    m.Consistent := by
  rcases h with rfl | ⟨hfull, a, b, rfl⟩
  · exact ExMem.bubble_consistent
  · obtain ⟨hctrl, hactl, hdest, -⟩ := he.2.1 hfull
    exact ⟨nofun, fun _ => ⟨hctrl, hactl, hdest⟩⟩

theorem MemMoved.consistent {m : ExMem} {w : MemWb} (h : MemMoved m w) (hm : m.Consistent) : w.Consistent := by
  rcases h with ⟨-, rfl⟩ | ⟨hfull, d, hd, rfl⟩
  · exact MemWb.bubble_consistent
  · exact ⟨nofun, fun _ => hm.2 hfull, hd⟩

/-- A cycle keeps the latches self-consistent: each takes its fields from the one behind, or is `EMPTY`. -/
theorem Moved.latchesConsistent {s t : State} {regs : RegFile} (h : Moved s t regs) (hs : s.LatchesConsistent) :
    t.LatchesConsistent := by
  obtain ⟨hifid, hidex, hexmem, -⟩ := hs
  unfold State.LatchesConsistent
  rw [h.cfg]
  exact ⟨h.front.ifid_both (IfId.bubble_consistent _) (fetchLatch_consistent s.cfg) hifid,
    h.front.idex_both (IdEx.bubble_consistent _) ⟨decodeLane_consistent _ hifid.1, decodeLane_consistent _ hifid.2⟩,
    ⟨h.exmem1.consistent hidex.1, h.exmem2.consistent hidex.2⟩,
    h.memwb_both MemWb.bubble_consistent
      ⟨fun _ hw => hw.consistent hexmem.1, fun _ hw => hw.consistent hexmem.2⟩⟩

/-- Inversion of a cycle from self-consistent latches, for the latches. -/
theorem State.LatchesConsistent.moved {s t : State} (hs : s.LatchesConsistent) (hr : s.run = .running)
    (he : s.cfg.engine = .pipelined) (h : step s = .next t) : ∃ regs, Moved s t regs := by
  obtain ⟨-, hidex, -⟩ := hs
  exact pipelined_moved hr he ⟨hidex.1.branch_of_jump, hidex.2.branch_of_jump⟩ h

theorem seqStep_latchesConsistent {s t : State} (h : seqStep s = .next t) (hs : s.LatchesConsistent) :
    t.LatchesConsistent := by
  obtain ⟨hifid, hidex, hexmem, hmemwb⟩ := seqStep_latches h
  unfold State.LatchesConsistent
  rwa [hifid, hidex, hexmem, hmemwb, seqStep_cfg h]

/-- Settles O50, by what a cycle does to each latch (`Moved.latchesConsistent`). -/
theorem latchesConsistentKept : Obligations.LatchesConsistentKept := by
  refine step_keeps (fun s t _ h hs => seqStep_latchesConsistent h hs) (fun s t hr he h hs => ?_)
  obtain ⟨regs, hmoved⟩ := hs.moved hr he h
  exact hmoved.latchesConsistent hs

/-! ### Jumps drained, hazards spaced, operands current (R252, R271, R272, R309) -/

/-- A latch of `MEMWB` holds no jump. -/
def MemWb.NoJump (w : MemWb) : Prop := w.empty = true ∨ w.ctrl.jump = false

/-- A latch of `EXMEM` holds no jump. -/
def ExMem.NoJump (m : ExMem) : Prop := m.empty = true ∨ m.ctrl.jump = false

theorem MemMoved.noJump {m : ExMem} {w : MemWb} (h : MemMoved m w) (hm : m.NoJump) : w.NoJump := by
  rcases h with ⟨-, rfl⟩ | ⟨hfull, d, -, rfl⟩
  · exact .inl rfl
  · rcases hm with hempty | hjump
    · rw [hfull] at hempty; cases hempty
    · exact .inr hjump

/-- A jump that enters `EXMEM` flushes the front end, so that behind it in `MEMWB` Decode has found nothing (R272). -/
theorem Moved.jumpsDrained {s t : State} {regs : RegFile} (h : Moved s t regs) (hs : s.JumpsDrained) :
    t.JumpsDrained := by
  refine ⟨fun hjump => ?_, fun hjump => ?_⟩
  · rcases h.jump with hno | ⟨hidex, hifid⟩
    · exact absurd hno hjump
    · rw [hidex, hifid]; exact ⟨⟨rfl, rfl⟩, rfl, rfl⟩
  · have hexmem : ¬ s.exmem.Both ExMem.NoJump := fun hno =>
      hjump (h.memwb_both (p := MemWb.NoJump) (.inl rfl) ⟨fun _ hw => hw.noJump hno.1, fun _ hw => hw.noJump hno.2⟩)
    obtain ⟨hifid, -⟩ := hs.1 hexmem
    have hdecoded {l : IfId} (hl : l.empty = true) : (decodeLane regs l).empty = true := by
      rw [decodeLane_of_empty hl]; rfl
    exact h.front.idex_both (p := fun e => e.empty = true) rfl ⟨hdecoded hifid.1, hdecoded hifid.2⟩

/-- The instruction `d` does not read the destination of a load in `m` (R252, R266). -/
def Spaced (d : IdEx) (m : ExMem) : Prop :=
  m.empty = false → m.ctrl.memRead = true → m.ctrl.regWrite = true → d.readsReg m.dest = false

theorem spaced_bubble_left (m : ExMem) : Spaced IdEx.bubble m := fun _ _ _ => rfl

theorem spaced_bubble_right (d : IdEx) : Spaced d ExMem.bubble := nofun

/-- Without a load-use hazard the instruction does not read what the load ahead writes (R252). -/
theorem readsReg_of_not_loadUse {d e : IdEx} (h : loadUse d e = false) (he : e.empty = false)
    (hread : e.ctrl.memRead = true) (hwrite : e.ctrl.regWrite = true) : d.readsReg e.dest = false := by
  by_contra hr
  have hr : d.readsReg e.dest = true := by simpa using hr
  obtain ⟨hd, hdest, -⟩ := (readsReg_iff d e.dest).1 hr
  simp [loadUse, hd, he, hread, hwrite, hdest, hr] at h

/-- An instruction that Decode lets go is spaced from what Execute makes of the one ahead. -/
theorem ExMoved.spaced {d e : IdEx} {m : ExMem} (h : ExMoved e m) (go : loadUse d e = false) : Spaced d m := by
  rcases h with rfl | ⟨he, a, b, rfl⟩
  · exact spaced_bubble_right d
  · exact fun _ => readsReg_of_not_loadUse go he

theorem Moved.spaced_of_both {s t : State} {regs : RegFile} {d : IdEx} (h : Moved s t regs)
    (go : loadUseBoth d s.idex = false) : t.exmem.Both (Spaced d) := by
  obtain ⟨go1, go2⟩ := Bool.or_eq_false_iff.1 go
  exact ⟨h.exmem1.spaced go1, h.exmem2.spaced go2⟩

theorem interLane_spaced {d : Lanes IdEx} (h : interLane d = false) (hw : d.lane1.writesReg = true) :
    d.lane2.readsReg d.lane1.dest = false := by
  by_contra hr
  have hr : d.lane2.readsReg d.lane1.dest = true := by simpa using hr
  have h1 : d.lane1.empty = false := by
    cases he : d.lane1.empty with
    | false => rfl
    | true => simp [IdEx.writesReg, writesRegFields, he] at hw
  have h2 := ((readsReg_iff _ _).1 hr).1
  simp [interLane, h1, h2, hw, hr] at h

/-- What the hazard unit lets go into `IDEX` is spaced from the loads in `EXMEM` and between the lanes (R252, R309). -/
theorem Moved.hazardsSpaced {s t : State} {regs : RegFile} (h : Moved s t regs) : t.HazardsSpaced := by
  have hbubble : t.exmem.Both (Spaced IdEx.bubble) := ⟨spaced_bubble_left _, spaced_bubble_left _⟩
  unfold State.HazardsSpaced
  cases h.front with
  | flush idex _ => rw [idex]; exact ⟨⟨hbubble, hbubble⟩, fun _ => rfl⟩
  | stall idex _ => rw [idex]; exact ⟨⟨hbubble, hbubble⟩, fun _ => rfl⟩
  | split _ idex _ go1 => rw [idex]; exact ⟨⟨h.spaced_of_both go1, hbubble⟩, fun _ => rfl⟩
  | goOne hl _ _ idex _ go1 =>
    rw [idex]
    refine ⟨⟨⟨h.exmem1.spaced go1, ?_⟩, hbubble⟩, fun _ => rfl⟩
    rw [h.exmem2one hl]; exact spaced_bubble_right _
  | goTwo _ _ _ idex _ go1 go2 =>
    obtain ⟨go2, hinter⟩ := Bool.or_eq_false_iff.1 go2
    rw [idex]
    exact ⟨⟨h.spaced_of_both go1, h.spaced_of_both go2⟩, interLane_spaced hinter⟩

/-- Decode reads the register file as Writeback left it (R225). -/
theorem decodeLane_current (regs : RegFile) (l : IfId) (h : (decodeLane regs l).empty = false) :
    (decodeLane regs l).rsVal = regs.read (decodeLane regs l).rs ∧
      (decodeLane regs l).rtVal = regs.read (decodeLane regs l).rt := by
  cases he : l.empty with
  | true => rw [decodeLane_of_empty he] at h; cases h
  | false => rw [decodeLane_of_full he]; exact ⟨rfl, rfl⟩

theorem Moved.operandsCurrent {s t : State} {regs : RegFile} (h : Moved s t regs) : t.OperandsCurrent := by
  intro hr _
  unfold State.reg
  rw [h.regs hr]
  exact h.front.idex_both nofun ⟨decodeLane_current regs _, decodeLane_current regs _⟩

theorem seqStep_pipelineInv {s t : State} (he : s.cfg.engine = .singleCycle) (h : seqStep s = .next t)
    (hs : s.PipelineInv) : t.PipelineInv := by
  obtain ⟨hifid, hidex, hexmem, hmemwb⟩ := seqStep_latches h
  obtain ⟨hconsistent, hdrained, hspaced, -⟩ := hs
  refine ⟨seqStep_latchesConsistent h hconsistent, ?_, ?_, fun _ hpipe => ?_⟩
  · unfold State.JumpsDrained; rwa [hifid, hidex, hexmem, hmemwb]
  · unfold State.HazardsSpaced; rwa [hidex, hexmem]
  · rw [seqStep_cfg h, he] at hpipe; cases hpipe

/-- Settles O53: a cycle keeps the latches consistent and the jumps drained, and sets up the spacing of hazards and the
operands anew. -/
theorem pipelineInvKept : Obligations.PipelineInvKept := by
  refine step_keeps (fun s t he h hs => seqStep_pipelineInv he h hs) (fun s t hr he h hs => ?_)
  obtain ⟨regs, hmoved⟩ := hs.consistent.moved hr he h
  exact ⟨hmoved.latchesConsistent hs.consistent, hmoved.jumpsDrained hs.drained, hmoved.hazardsSpaced,
    hmoved.operandsCurrent⟩

end Sys2Proof.Machine

/-! The family of spec/20_memory.md: what mixed-width accesses see of each other (R54), the laws of reading and writing
(R57, R59, R62), fetches (R58), and the one place an `OutOfRange` can come from (R51, R331). -/

namespace Sys2Proof.Machine

/-! ### Bytes and halfwords of a stored word (R53, R54) -/

/-- An address `o` bytes above an aligned one stays in its word: the sum does not wrap. -/
theorem toNat_add_offset {a : Word} (ha : a.toNat % 4 = 0) {o : Nat} (ho : o < 4) :
    (a + BitVec.ofNat 32 o).toNat = a.toNat + o := by
  have := a.isLt
  rw [BitVec.toNat_add, BitVec.toNat_ofNat]
  omega

/-- The byte at offset `o` of a word just stored at the aligned address `a`. -/
theorem Memory.read_setWord_offset {m : Memory} (hm : m.wf = true) (bo : ByteOrder) {a : Word} (ha : a.toNat % 4 = 0)
    (w : Word) {o : Nat} (ho : o < 4) : (m.setWord bo (wordIndex a) w).read (a.toNat + o) = byteOfWord bo w o := by
  have haddr : a.toNat = 4 * wordIndex a := by unfold wordIndex; omega
  rw [haddr, Memory.read_setWord_inside hm bo _ w ho]

section StoredWord
variable {cfg : RunConfig} {m : Memory} {a : Word} (hm : m.wf = true) (ha : a.toNat % 4 = 0)
  (hr : wordIndex a < cfg.memWords)
include hm ha hr

/-- A byte read of a stored word answers the byte of R53. -/
theorem memRead_byte_setWord (w : Word) {o : Nat} (ho : o < 4) :
    memRead cfg (m.setWord cfg.byteOrder (wordIndex a) w) (a + BitVec.ofNat 32 o) .byte =
      .ok ((byteOfWord cfg.byteOrder w o).setWidth 32) := by
  have haddr := toNat_add_offset ha ho
  have hr' : wordIndex (a + BitVec.ofNat 32 o) < cfg.memWords := by unfold wordIndex at hr ⊢; omega
  rw [memRead_byte _ hr', haddr, Memory.read_setWord_offset hm _ ha w ho]

/-- A halfword read of a stored word answers the halfword of R53. -/
theorem memRead_half_setWord (w : Word) {o : Nat} (ho : o = 0 ∨ o = 2) :
    memRead cfg (m.setWord cfg.byteOrder (wordIndex a) w) (a + BitVec.ofNat 32 o) .half =
      .ok ((halfOfBytes cfg.byteOrder (byteOfWord cfg.byteOrder w o) (byteOfWord cfg.byteOrder w (o + 1))).setWidth
        32) := by
  have haddr := toNat_add_offset ha (o := o) (by omega)
  have hr' : wordIndex (a + BitVec.ofNat 32 o) < cfg.memWords := by unfold wordIndex at hr ⊢; omega
  have hal : aligned2 (a + BitVec.ofNat 32 o) = true := (aligned2_iff _).2 (by unfold byteOffset; omega)
  rw [memRead_half _ hal hr', haddr, Memory.read_setWord_offset hm _ ha w (by omega), Nat.add_assoc,
    Memory.read_setWord_offset hm _ ha w (by omega)]

end StoredWord

/-! ### Fetches (R58) -/

theorem fetchWord_inRange {cfg : RunConfig} (m : Memory) {a : Word} (h : wordIndex a < cfg.memWords) :
    fetchWord cfg m a = m.word cfg.byteOrder (wordIndex a) := if_pos h

theorem fetchWord_beyond {cfg : RunConfig} (m : Memory) {a : Word} (h : cfg.memWords ≤ wordIndex a) :
    fetchWord cfg m a = 0#32 := if_neg (by omega)

/-- `MemWord` of an aligned address is made of the four bytes from that address up (R53). -/
theorem Memory.word_of_aligned (bo : ByteOrder) (m : Memory) {a : Word} (ha : a.toNat % 4 = 0) :
    m.word bo (wordIndex a) =
      wordOfBytes bo (m.read a.toNat) (m.read (a.toNat + 1)) (m.read (a.toNat + 2)) (m.read (a.toNat + 3)) := by
  have haddr : 4 * wordIndex a = a.toNat := by unfold wordIndex; omega
  rw [Memory.word, haddr]

/-- Settles O21: the bytes and halfwords read are the stored word's (`memRead_byte_setWord`, `memRead_half_setWord`),
and the fetch reads the word itself. -/
theorem mixedWidthView : Obligations.MixedWidthView := by
  intro cfg m a hm ha hr
  have hwrite (v : Word) : memWrite cfg m a .word v = .ok (m.setWord cfg.byteOrder (wordIndex a) v) :=
    memWrite_of_ok m v ((aligned4_iff a).2 ha) hr
  have hbyte {o : Nat} (ho : o < 4) := memRead_byte_setWord hm ha hr 0x11223344#32 ho
  have hhalf {o : Nat} (ho : o = 0 ∨ o = 2) := memRead_half_setWord hm ha hr 0x11223344#32 ho
  have hreads := And.intro (hbyte (o := 0) (by decide)) <| And.intro (hbyte (o := 1) (by decide)) <|
    And.intro (hbyte (o := 2) (by decide)) <| And.intro (hbyte (o := 3) (by decide)) <|
    And.intro (hhalf (o := 0) (by decide)) (hhalf (o := 2) (by decide))
  rw [BitVec.add_zero] at hreads
  refine ⟨⟨_, hwrite _, fun hbo => ?_, fun hbo => ?_⟩, fun v => ⟨_, hwrite v, ?_⟩⟩
  · rw [hbo] at hreads ⊢; exact hreads
  · rw [hbo] at hreads ⊢; exact hreads
  · rw [fetchWord_inRange _ hr, Memory.word_setWord_same hm]

/-- Writeback of an instruction fetched from beyond the memory faults (R58, R230). -/
theorem writebackLane_beyond {cfg : RunConfig} (r : Retired) {w : MemWb} (he : w.empty = false)
    (h : cfg.memWords ≤ wordIndex w.pc) : writebackLane cfg r w = .error (.outOfRange w.pc) := by
  simp [writebackLane, he, h]

/-- What Fetch latches for an address beyond the memory: a NOP with that address, never predicted taken (R58, R283). -/
theorem fetchLatch_beyond {cfg : RunConfig} (m : Memory) (p : Predictor) {a : Word} (h : cfg.memWords ≤ wordIndex a) :
    fetchLatch cfg m p a = { empty := false, instr := 0#32, pc := a, pred := false } := by
  have hpred : predictedTaken cfg p a 0#32 = false := by
    have hnop : isBranch 0#32 = false := rfl
    simp [predictedTaken, hnop]
  rw [fetchLatch, fetchWord_beyond m h, hpred]

/-- The word 0 is SLL of register 0 (R90, R101). -/
theorem wordCtrl_nop : wordCtrl 0#32 = Ctrl.rType := rfl

theorem wordActl_nop : wordActl 0#32 = { AluControl.zero with op := .sll, shift := true } := rfl

/-- An instruction that is no branch, no jump and no JR does not redirect (R290). -/
theorem executeRedirect_none {e : IdEx} (hb : e.ctrl.branch = false) (hj : e.ctrl.jump = false)
    (hr : e.actl.jumpReg = false) (a b : Word) : executeRedirect e a b = .ok none := by
  simp [executeRedirect, hb, hj, hr]

/-- Settles O23: the NOP fetched from beyond the memory neither transfers control nor accesses memory, and Writeback
checks its address. -/
theorem fetchBeyondMemory : Obligations.FetchBeyondMemory := by
  refine ⟨fun cfg m a h => fetchWord_beyond m h, fun cfg m a hr ha => ?_,
    fun cfg r w he h => writebackLane_beyond r he h, fun cfg regs fetched later p q a v1 v2 r h => ?_⟩
  · rw [fetchWord_inRange m hr, Memory.word_of_aligned _ m ha]
  · rw [fetchLatch_beyond fetched p h, decodeLane_of_full rfl, wordCtrl_nop, wordActl_nop]
    exact ⟨_, _, executeLane_of_redirect q rfl (executeRedirect_none rfl rfl rfl v1 v2), rfl, rfl,
      memoryLane_of_ok rfl rfl (loadStage_of_not_load cfg later rfl) (storeStage_of_not_store cfg later rfl),
      writebackLane_beyond r rfl h⟩

/-! ### Reading back what was written (R57, R59, R62) -/

/-- An aligned access lies inside its word (R53, R55). -/
theorem dataShift_add_bits_le {bo : ByteOrder} {a : Word} {n : Width} (ha : alignedFor a n = true) :
    dataShift bo a n + n.bits ≤ 32 := by
  have hlt := byteOffset_lt a
  cases n with
  | byte => cases bo <;> simp only [dataShift, bsh, Width.bits, Width.bytes] <;> omega
  | half =>
    have := (aligned2_iff a).1 ha
    cases bo <;> simp only [dataShift, hsh, Width.bits, Width.bytes] <;> omega
  | word => exact Nat.le_refl 32

/-- A bit of what `MemRead` answers from the word `w`: the accessed field's, and 0 above it (R56). -/
theorem getLsbD_readField (w : Word) (s : Nat) (n : Width) {i : Nat} (hi : i < 32) :
    ((w >>> s) &&& dataMask n).getLsbD i = (decide (i < n.bits) && w.getLsbD (s + i)) := by
  rw [BitVec.getLsbD_and, getLsbD_dataMask n i hi, BitVec.getLsbD_ushiftRight, Bool.and_comm]

/-- A word store splices too: its field is the whole word (R57). -/
theorem storedWord_eq_spliceWord (bo : ByteOrder) (old a : Word) (n : Width) (v : Word) :
    storedWord bo old a n v = spliceWord bo old a n v := by
  cases n with
  | byte => rfl
  | half => rfl
  | word =>
    apply BitVec.eq_of_getLsbD_eq
    intro i hi
    rw [getLsbD_spliceWord bo old a v .word hi, if_pos ⟨Nat.zero_le _, by simpa [dataShift, Width.bits, Width.bytes]⟩]
    rfl

/-- The field of a spliced word is the data spliced in. -/
theorem readField_spliceWord {bo : ByteOrder} {a : Word} {n : Width} (ha : alignedFor a n = true) (old v : Word) :
    (spliceWord bo old a n v >>> dataShift bo a n) &&& dataMask n = v &&& dataMask n := by
  have hle := dataShift_add_bits_le (bo := bo) ha
  apply BitVec.eq_of_getLsbD_eq
  intro i hi
  rw [getLsbD_readField _ _ n hi, BitVec.getLsbD_and, getLsbD_dataMask n i hi, Bool.and_comm]
  by_cases hin : i < n.bits
  · rw [getLsbD_spliceWord bo old a v n (by omega), if_pos (by omega), Nat.add_sub_cancel_left]
  · simp [hin]

/-- Splicing a word's own field back in gives the word. -/
theorem spliceWord_readField (bo : ByteOrder) (a : Word) (n : Width) (w : Word) :
    spliceWord bo w a n ((w >>> dataShift bo a n) &&& dataMask n) = w := by
  apply BitVec.eq_of_getLsbD_eq
  intro j hj
  rw [getLsbD_spliceWord bo w a _ n hj]
  split
  · rename_i hin
    have hpos : dataShift bo a n + (j - dataShift bo a n) = j := by omega
    rw [getLsbD_readField w _ n (by omega), hpos, decide_eq_true (by omega), Bool.true_and]
  · rfl

/-- The low bytes of a value, as a number. -/
theorem and_dataMask_eq_ofNat (n : Width) (v : Word) :
    v &&& dataMask n = BitVec.ofNat 32 (v.toNat % 2 ^ (8 * n.bytes)) := by
  apply BitVec.eq_of_getLsbD_eq
  intro i hi
  rw [BitVec.getLsbD_and, getLsbD_dataMask n i hi, BitVec.getLsbD_ofNat, Nat.testBit_mod_two_pow, decide_eq_true hi,
    Bool.true_and, Bool.and_comm]
  rfl

/-- A read's answer, its faults included, depends on the bytes it accesses only (R56). -/
theorem memRead_congr {cfg : RunConfig} {m m' : Memory} {b : Word} {k : Width}
    (h : ∀ c, b.toNat ≤ c → c < b.toNat + k.bytes → m'.read c = m.read c) :
    memRead cfg m' b k = memRead cfg m b k := by
  cases hc : checkAccess cfg b k with
  | error f => rw [memRead_eq, memRead_eq, hc]; rfl
  | ok u =>
    obtain ⟨ha, hr⟩ := checkAccess_ok_iff.1 hc
    have hbyte {i : Nat} (hi : i < k.bytes) : m'.read (b.toNat + i) = m.read (b.toNat + i) := h _ (by omega) (by omega)
    have hfirst : m'.read b.toNat = m.read b.toNat := hbyte (i := 0) (by cases k <;> decide)
    cases k with
    | byte => rw [memRead_byte m' hr, memRead_byte m hr, hfirst]
    | half => rw [memRead_half m' ha hr, memRead_half m ha hr, hfirst, hbyte (i := 1) (by decide)]
    | word =>
      have hal : b.toNat % 4 = 0 := (aligned4_iff b).1 ha
      rw [memRead_word m' ha hr, memRead_word m ha hr, Memory.word_of_aligned _ m' hal, Memory.word_of_aligned _ m hal,
        hfirst, hbyte (i := 1) (by decide), hbyte (i := 2) (by decide), hbyte (i := 3) (by decide)]

/-- A read of the address and width just written answers the low bytes of the value (R59). -/
theorem memRead_memWrite_same {cfg : RunConfig} {m m' : Memory} {a : Word} {n : Width} {v : Word} (hm : m.wf = true)
    (h : memWrite cfg m a n v = .ok m') :
    memRead cfg m' a n = .ok (BitVec.ofNat 32 (v.toNat % 2 ^ (8 * n.bytes))) := by
  obtain ⟨ha, hr, rfl⟩ := memWrite_ok h
  rw [memRead_eq, checkAccess_ok_iff.2 ⟨ha, hr⟩, Memory.word_setWord_same hm, storedWord_eq_spliceWord, Except.map,
    readField_spliceWord ha, and_dataMask_eq_ofNat]

/-- A read of bytes a write does not touch answers as before it (R57). -/
theorem memRead_memWrite_disjoint {cfg : RunConfig} {m m' : Memory} {a b : Word} {n k : Width} {v : Word}
    (hm : m.wf = true) (h : memWrite cfg m a n v = .ok m')
    (hd : b.toNat + k.bytes ≤ a.toNat ∨ a.toNat + n.bytes ≤ b.toNat) : memRead cfg m' b k = memRead cfg m b k :=
  memRead_congr fun c hlo hhi => by rw [memWrite_read hm h c, if_neg (by omega)]

/-- Writing back what a read answered leaves the very same memory (R59). -/
theorem memWrite_memRead_self {cfg : RunConfig} {m : Memory} {a : Word} {n : Width} {v : Word} (hm : m.wf = true)
    (h : memRead cfg m a n = .ok v) : memWrite cfg m a n v = .ok m := by
  rw [memRead_eq] at h
  cases hc : checkAccess cfg a n with
  | error f => rw [hc] at h; cases h
  | ok u =>
    rw [hc] at h
    obtain rfl := Except.ok.inj h
    rw [memWrite_eq, hc, Except.map, storedWord_eq_spliceWord, spliceWord_readField, Memory.setWord_word_self hm]

/-- Settles O22, from the three memory laws above. -/
theorem readAfterWrite : Obligations.ReadAfterWrite := by
  intro cfg m a n hm ha hr
  refine ⟨fun v => ?_, ?_⟩
  · have hwrite := memWrite_of_ok m v ha hr
    exact ⟨_, hwrite, memWrite_wf hm hwrite, memRead_memWrite_same hm hwrite,
      fun b k hd => memRead_memWrite_disjoint hm hwrite hd⟩
  · have hread := memRead_eq cfg m a n
    rw [checkAccess_ok_iff.2 ⟨ha, hr⟩] at hread
    exact ⟨_, hread, memWrite_memRead_self hm hread⟩

/-! ### Where an `OutOfRange` comes from (R51, R331) -/

section OutOfRange
variable {cfg : RunConfig} {a : Word}

theorem checkAccess_error_outOfRange {b : Word} {n : Width} (h : checkAccess cfg b n = .error (.outOfRange a)) :
    cfg.memWords ≤ wordIndex a := by
  unfold checkAccess at h
  split at h
  · cases h
  · split at h
    · rename_i hr; cases h; exact hr
    · cases h

theorem map_checkAccess_error_outOfRange {α : Type} {b : Word} {n : Width} {g : Unit → α}
    (h : (checkAccess cfg b n).map g = .error (.outOfRange a)) : cfg.memWords ≤ wordIndex a := by
  cases hc : checkAccess cfg b n with
  | error f => rw [hc] at h; cases h; exact checkAccess_error_outOfRange hc
  | ok u => rw [hc] at h; cases h

theorem memRead_error_outOfRange {m : Memory} {b : Word} {n : Width} (h : memRead cfg m b n = .error (.outOfRange a)) :
    cfg.memWords ≤ wordIndex a := map_checkAccess_error_outOfRange (memRead_eq cfg m b n ▸ h)

theorem memWrite_error_outOfRange {m : Memory} {b : Word} {n : Width} {v : Word}
    (h : memWrite cfg m b n v = .error (.outOfRange a)) : cfg.memWords ≤ wordIndex a :=
  map_checkAccess_error_outOfRange (memWrite_eq cfg m b n v ▸ h)

theorem loadStage_error_outOfRange {mem : Memory} {m : ExMem} (h : loadStage cfg mem m = .error (.outOfRange a)) :
    cfg.memWords ≤ wordIndex a := by
  unfold loadStage at h
  split at h
  · split at h
    · rename_i f hf; cases h; exact memRead_error_outOfRange hf
    · cases h
  · cases h

theorem storeStage_error_outOfRange {mem : Memory} {m : ExMem} (h : storeStage cfg mem m = .error (.outOfRange a)) :
    cfg.memWords ≤ wordIndex a := by
  unfold storeStage at h
  split at h
  · exact memWrite_error_outOfRange h
  · cases h

theorem memoryLane_error_outOfRange {mem : Memory} {m : ExMem} (h : memoryLane cfg mem m = .error (.outOfRange a)) :
    cfg.memWords ≤ wordIndex a := by
  unfold memoryLane at h
  split at h
  · cases h
  · split at h
    · cases h
    · split at h
      · rename_i f hf; cases h; exact loadStage_error_outOfRange hf
      · split at h
        · rename_i f hf; cases h; exact storeStage_error_outOfRange hf
        · cases h

theorem writebackLane_error_outOfRange {r : Retired} {w : MemWb} (h : writebackLane cfg r w = .error (.outOfRange a)) :
    cfg.memWords ≤ wordIndex a := by
  unfold writebackLane at h
  split at h
  · rename_i hc
    cases h
    exact of_decide_eq_true (Bool.and_eq_true_iff.1 hc).2
  · cases h

/-- The only fault of a redirect is JR's (R195, R290). -/
theorem executeRedirect_error {e : IdEx} {v1 v2 : Word} {f : Fault} (h : executeRedirect e v1 v2 = .error f) :
    f = .misalignedTarget e.pc v1 := by
  unfold executeRedirect at h
  split at h
  · cases h
  · split at h
    · cases h
    · split at h
      · split at h <;> cases h
        rfl
      · cases h

theorem executeLane_ne_outOfRange (p : Predictor) (e : IdEx) (v1 v2 : Word) :
    executeLane cfg p e v1 v2 ≠ .error (.outOfRange a) := by
  intro h
  unfold executeLane at h
  split at h
  · cases h
  · split at h
    · rename_i f hf; cases h; cases executeRedirect_error hf
    · cases h

end OutOfRange

section OutOfRangeStep
variable {s : State} {a : Word}

theorem drainLane1_error_outOfRange (h : s.drainLane1 = .error (.outOfRange a)) : s.cfg.memWords ≤ wordIndex a := by
  unfold State.drainLane1 at h
  split at h
  · rename_i f hf; cases h; exact writebackLane_error_outOfRange hf
  · cases h

theorem haltCheck_error_outOfRange (h : s.haltCheck = .error (.outOfRange a)) : s.cfg.memWords ≤ wordIndex a := by
  unfold State.haltCheck at h
  split at h
  · cases h
  · split at h
    · cases h
    · split at h
      · split at h
        · rename_i f hf; cases h; exact drainLane1_error_outOfRange hf
        · cases h
      · cases h

theorem cycleScalar_error_outOfRange (h : cycleScalar s = .error (.outOfRange a)) : s.cfg.memWords ≤ wordIndex a := by
  unfold cycleScalar at h
  split at h
  · rename_i f hf; cases h; exact writebackLane_error_outOfRange hf
  · split at h
    · rename_i f hf; cases h; exact memoryLane_error_outOfRange hf
    · split at h
      · rename_i f hf; cases h; exact absurd hf (executeLane_ne_outOfRange _ _ _ _)
      · exact (haltCheck_error_outOfRange h :)

theorem writebackBoth_error_outOfRange (h : writebackBoth s = .error (.outOfRange a)) :
    s.cfg.memWords ≤ wordIndex a := by
  unfold writebackBoth at h
  split at h
  · rename_i f hf; cases h; exact writebackLane_error_outOfRange hf
  · exact writebackLane_error_outOfRange h

theorem memoryBoth_error_outOfRange (h : memoryBoth s = .error (.outOfRange a)) : s.cfg.memWords ≤ wordIndex a := by
  unfold memoryBoth at h
  split at h
  · rename_i f hf; cases h; exact memoryLane_error_outOfRange hf
  · split at h
    · rename_i f hf; cases h; exact memoryLane_error_outOfRange hf
    · cases h

theorem executeBoth_ne_outOfRange : executeBoth s ≠ .error (.outOfRange a) := by
  intro h
  unfold executeBoth at h
  split at h
  · rename_i f hf; cases h; exact executeLane_ne_outOfRange _ _ _ _ hf
  · split at h
    · cases h
    · split at h
      · rename_i f hf; cases h; exact executeLane_ne_outOfRange _ _ _ _ hf
      · cases h

theorem cycleDual_error_outOfRange (h : cycleDual s = .error (.outOfRange a)) : s.cfg.memWords ≤ wordIndex a := by
  unfold cycleDual at h
  split at h
  · rename_i f hf; cases h; exact writebackBoth_error_outOfRange hf
  · split at h
    · rename_i f hf; cases h; exact memoryBoth_error_outOfRange hf
    · split at h
      · rename_i f hf; cases h; exact absurd hf executeBoth_ne_outOfRange
      · exact (haltCheck_error_outOfRange h :)

theorem cycle_error_outOfRange (h : cycle s = .error (.outOfRange a)) : s.cfg.memWords ≤ wordIndex a := by
  unfold cycle at h
  split at h
  · exact cycleScalar_error_outOfRange h
  · exact cycleDual_error_outOfRange h

theorem load_fault_outOfRange {rt rs : Reg} {imm : BitVec 16} {n : Width} {u : Bool}
    (h : s.load rt rs imm n u = .fault (.outOfRange a)) : s.cfg.memWords ≤ wordIndex a := by
  unfold State.load at h
  split at h
  · rename_i f hf; cases h; exact memRead_error_outOfRange hf
  · cases h

theorem store_fault_outOfRange {rt rs : Reg} {imm : BitVec 16} {n : Width}
    (h : s.store rt rs imm n = .fault (.outOfRange a)) : s.cfg.memWords ≤ wordIndex a := by
  unfold State.store at h
  split at h
  · rename_i f hf; cases h; exact memWrite_error_outOfRange hf
  · cases h

/-- Of the instructions' rules only the loads and stores raise `OutOfRange` (R179, R195). -/
theorem exec_fault_outOfRange {i : Instr} (h : exec i s = .fault (.outOfRange a)) : s.cfg.memWords ≤ wordIndex a := by
  cases i with
  | lb rt imm rs => exact load_fault_outOfRange h
  | lh rt imm rs => exact load_fault_outOfRange h
  | lw rt imm rs => exact load_fault_outOfRange h
  | lbu rt imm rs => exact load_fault_outOfRange h
  | lhu rt imm rs => exact load_fault_outOfRange h
  | sb rt imm rs => exact store_fault_outOfRange h
  | sh rt imm rs => exact store_fault_outOfRange h
  | sw rt imm rs => exact store_fault_outOfRange h
  | jr rs =>
    simp only [exec, execJr] at h
    split at h <;> cases h
  | _ => cases h

theorem seqStep_fault_outOfRange (h : seqStep s = .fault (.outOfRange a)) : s.cfg.memWords ≤ wordIndex a := by
  unfold seqStep at h
  split at h
  · cases h
  · split at h
    · rename_i hr; cases h; exact hr
    · split at h
      · cases h
      · rename_i i _
        cases hx : exec i s with
        | next u => rw [hx] at h; cases h
        | fault f => rw [hx] at h; cases h; exact exec_fault_outOfRange hx
        | refused r => rw [hx] at h; cases h

/-- Whatever the memory's size, an `OutOfRange` that a step raises names an address beyond it (R51, R331). -/
theorem step_fault_outOfRange (hr : s.run = .running) (h : step s = .fault (.outOfRange a)) :
    s.cfg.memWords ≤ wordIndex a := by
  cases he : s.cfg.engine with
  | singleCycle => exact seqStep_fault_outOfRange (step_singleCycle hr he ▸ h)
  | pipelined =>
    rw [step_pipelined hr he] at h
    cases hc : cycle s with
    | ok t => rw [hc] at h; cases h
    | error f => rw [hc] at h; cases h; exact cycle_error_outOfRange hc

end OutOfRangeStep

/-- Settles O30: an `OutOfRange` names an address beyond the memory, and no 32-bit address is beyond `2^30` words. -/
theorem outOfRangeImpossible : Obligations.OutOfRangeImpossible := by
  intro s a hr hsize h
  have hbeyond := step_fault_outOfRange hr h
  have hlt := a.isLt
  unfold wordIndex at hbeyond
  omega

end Sys2Proof.Machine

/-! The family of spec/30_encoding.md: the encoder against the decoder (R82 to R89), the opcode map (R86, R87), the
words outside the subset on their way through the stages (R96, R225, R235), the contract of the Decode Unit (R105), and
the targets of assembled branches and jumps (R91). -/

namespace Sys2Proof

/-! ### The decoder undoes the encoder (R82 to R87) -/

theorem decodeWord_encode (i : Instr) : decodeWord (encode i) = .ok i := decodeWord_of_fields i.fieldsIn_encode

/-- The bytes of a word are read back as the word, whatever the byte order and whatever follows (R53, R80). -/
theorem decodeBytes_bytesOfWord (bo : ByteOrder) (w : Word) (rest : List Byte) :
    decodeBytes bo (bytesOfWord bo w ++ rest) = (decodeWord w).map (·, rest) := by
  simp only [bytesOfWord, List.cons_append, List.nil_append, decodeBytes, Machine.wordOfBytes_byteOfWord]
  cases decodeWord w <;> rfl

/-- Settles O1: the bytes give the encoded word back, and the word decodes by its fields. -/
theorem encodeDecodeRoundTrip : Obligations.EncodeDecodeRoundTrip := by
  intro bo i rest
  rw [decodeBytes_bytesOfWord, decodeWord_encode]
  rfl

/-! ### A word under its row's mask (R89) -/

/-- A mask acts on the opcode, the function code and the 20 bits between them separately. -/
theorem and_eq_append (w m : Word) :
    w &&& m = (opcodeOf w &&& opcodeOf m) ++ (w.extractLsb' 6 20 &&& m.extractLsb' 6 20) ++
      (functOf w &&& functOf m) := by
  ext k hk
  grind [opcodeOf, functOf]

/-- What the mask keeps of a word: the opcode, and the function code when the opcode is 0. -/
theorem and_rowMask (w : Word) :
    w &&& rowMask w = opcodeOf w ++ 0#20 ++ (if opcodeOf w = 0x00#6 then functOf w else 0#6) := by
  rw [and_eq_append, rowMask]
  split
  · have h1 : opcodeOf 0xFC00003F#32 = BitVec.allOnes 6 := by decide
    have h2 : functOf 0xFC00003F#32 = BitVec.allOnes 6 := by decide
    have h3 : BitVec.extractLsb' 6 20 0xFC00003F#32 = 0#20 := by decide
    rw [h1, h2, h3, BitVec.and_allOnes, BitVec.and_allOnes, BitVec.and_zero]
  · have h1 : opcodeOf 0xFC000000#32 = BitVec.allOnes 6 := by decide
    have h2 : functOf 0xFC000000#32 = 0#6 := by decide
    have h3 : BitVec.extractLsb' 6 20 0xFC000000#32 = 0#20 := by decide
    rw [h1, h2, h3, BitVec.and_allOnes, BitVec.and_zero, BitVec.and_zero]

/-- An instruction fixes the opcode of its words, and under opcode 0 the function code. -/
theorem Instr.FieldsIn.codes_eq {i : Instr} {v w : Word} (hv : i.FieldsIn v) (hw : i.FieldsIn w) :
    opcodeOf v = opcodeOf w ∧ (opcodeOf w = 0x00#6 → functOf v = functOf w) := by
  cases i <;> simp_all [Instr.FieldsIn]

theorem Instr.FieldsIn.and_rowMask_eq {i : Instr} {v w : Word} (hv : i.FieldsIn v) (hw : i.FieldsIn w) :
    v &&& rowMask v = w &&& rowMask w := by
  obtain ⟨ho, hf⟩ := hv.codes_eq hw
  rw [and_rowMask, and_rowMask, ho]
  split
  · rename_i h0; rw [hf h0]
  · rfl

/-- An R-type word is decoded by the fields it was built from. -/
theorem decodeWord_encodeR {rs rt rd : Reg} {sh : BitVec 5} {f : BitVec 6} {i : Instr}
    (h : ∀ w, opcodeOf w = 0x00#6 → functOf w = f → rsOf w = rs → rtOf w = rt → rdOf w = rd → shamtOf w = sh →
      i.FieldsIn w) : decodeWord (encodeR rs rt rd sh f) = .ok i :=
  decodeWord_of_fields (h _ (opcodeOf_encodeR ..) (functOf_encodeR ..) (rsOf_encodeR ..) (rtOf_encodeR ..)
    (rdOf_encodeR ..) (shamtOf_encodeR ..))

/-- Settles O3: the mask keeps only the codes an instruction fixes, and decoding by the fields of the row reads no
other field. -/
theorem unusedFieldsIgnored : Obligations.UnusedFieldsIgnored := by
  refine ⟨fun w i h => (decodeWord_ok h).and_rowMask_eq i.fieldsIn_encode, fun rs rt rd sh => ?_, fun rs rt imm => ?_⟩
  · refine ⟨?_, ?_, ?_, ?_, ?_, ?_, ?_, ?_, ?_, ?_, ?_, ?_, ?_, ?_⟩ <;>
      exact decodeWord_encodeR fun w ho hf hrs hrt hrd hsh => by simp [Instr.FieldsIn, ho, hf, hrs, hrt, hrd, hsh]
  · exact decodeWord_of_fields ⟨opcodeOf_encodeI .., (rtOf_encodeI ..).symm, (immOf_encodeI ..).symm⟩

/-! ### The words outside the subset (R86, R87, R96) -/

theorem decodeWord_of_unsupportedOpcode {w : Word} (h : supportedOpcode (opcodeOf w) = false) :
    decodeWord w = .error (.unsupportedOpcode (opcodeOf w)) := by
  unfold decodeWord
  split <;> simp_all [supportedOpcode]

theorem decodeFunct_of_unsupported {w : Word} (h : (functControl (functOf w)).unsupported = true) :
    decodeFunct w = .error (.unsupportedFunct (functOf w)) := by
  unfold decodeFunct
  split <;> simp_all [functControl, AluControl.zero]

theorem decodeWord_of_opcode_zero {w : Word} (h : opcodeOf w = 0x00#6) : decodeWord w = decodeFunct w := by
  simp [decodeWord, h]

/-- The decoder rejects only function codes that the ALU control has no row for (R87, R103). -/
theorem decodeFunct_error {w : Word} {why : Reject} (h : decodeFunct w = .error why) :
    functControl (functOf w) = { AluControl.zero with op := .add, unsupported := true } := by
  unfold decodeFunct at h
  split at h
  case h_15 => unfold functControl; split <;> simp_all
  all_goals cases h

/-- Inversion of the decoder on the words it rejects: the opcode is outside R86, or it is 0 with a function code outside
R87. -/
theorem decodeWord_error {w : Word} {why : Reject} (h : decodeWord w = .error why) :
    supportedOpcode (opcodeOf w) = false ∨
      (opcodeOf w = 0x00#6 ∧
        functControl (functOf w) = { AluControl.zero with op := .add, unsupported := true }) := by
  unfold decodeWord at h
  split at h
  case h_1 h0 => exact .inr ⟨h0, decodeFunct_error h⟩
  case h_21 => left; unfold supportedOpcode; split <;> simp_all
  all_goals cases h

/-- The Decode Unit sets no signal for an opcode outside R86 (R101). -/
theorem decodeUnit_of_unsupported {o : BitVec 6} (h : supportedOpcode o = false) : decodeUnit o = Ctrl.zero := by
  unfold decodeUnit
  split <;> simp_all [supportedOpcode]

/-- The ALU control of every rejected word: the flag `Unsupported` and nothing else (R96, R103). -/
theorem wordActl_of_error {w : Word} {why : Reject} (h : decodeWord w = .error why) :
    wordActl w = { AluControl.zero with op := .add, unsupported := true } := by
  rcases decodeWord_error h with ho | ⟨ho, hf⟩
  · rw [wordActl, decodeUnit_of_unsupported ho, computeControl, ho]; rfl
  · have hu : decodeUnit 0x00#6 = Ctrl.rType := rfl
    rw [wordActl, ho, hu, computeControl]
    simp only [Ctrl.rType, aluControlRow, hf, Bool.true_or]

theorem wordCtrl_of_error {w : Word} {why : Reject} (h : decodeWord w = .error why) : wordCtrl w = Ctrl.zero := by
  rw [wordCtrl, wordActl_of_error h]; rfl

end Sys2Proof

namespace Sys2Proof.Machine

/-! ### An unsupported word in the stages (R96, R225, R235) -/

/-- Execute on a latch with no control signal and no JR completes with no redirect and the predictor unchanged. -/
theorem executeLane_of_ctrl_zero (cfg : RunConfig) (p : Predictor) {e : IdEx} (he : e.empty = false)
    (hc : e.ctrl = Ctrl.zero) (hj : e.actl.jumpReg = false) (a b : Word) :
    executeLane cfg p e a b = .ok { latch := e.toExMem a b, redirect := none, predictor := p } := by
  have hr : executeRedirect e a b = .ok none := by simp [executeRedirect, hc, hj, Ctrl.zero]
  rw [executeLane_of_redirect p he hr]
  simp [executePredictor, hc, Ctrl.zero]

theorem writesRegFields_ctrl_zero (empty : Bool) (actl : AluControl) (dest : Reg) :
    writesRegFields empty Ctrl.zero actl dest = false := by
  simp [writesRegFields, Ctrl.zero]

theorem IdEx.readsReg_of_unsupported {d : IdEx} (h : d.actl.unsupported = true) (r : Reg) : d.readsReg r = false := by
  simp [IdEx.readsReg, IdEx.usesRs, IdEx.usesRt, h]

/-- An unsupported instruction faults in the Memory stage, before any access (R235). -/
theorem memoryLane_of_unsupported (cfg : RunConfig) (mem : Memory) {m : ExMem} (he : m.empty = false)
    (hu : m.actl.unsupported = true) :
    memoryLane cfg mem m = .error (.unsupportedInstruction m.pc m.instr) := by
  unfold memoryLane; rw [he, hu]; rfl

/-- Settles O5: a rejected word has the all-zero control vector and the flag `Unsupported` alone, and every stage goes by
these. -/
theorem unsupportedWordCarried : Obligations.UnsupportedWordCarried := by
  refine ⟨fun cfg regs mem p w pc a b pred why h => ?_, fun w i h => wordActl_of_ok h⟩
  intro d
  have hc : d.ctrl = Ctrl.zero := wordCtrl_of_error h
  have ha : d.actl = { AluControl.zero with op := .add, unsupported := true } := wordActl_of_error h
  have hu : d.actl.unsupported = true := by rw [ha]
  have hw : d.writesReg = false := by rw [IdEx.writesReg, hc, writesRegFields_ctrl_zero]
  have hx : (d.toExMem a b).writesReg = false := hw
  refine ⟨hc, hu, hw, IdEx.readsReg_of_unsupported hu, _,
    executeLane_of_ctrl_zero cfg p rfl hc (by rw [ha]; rfl) a b, rfl, rfl, fun r => ?_, hx,
    memoryLane_of_unsupported cfg mem rfl hu⟩
  rw [ExMem.forwards, hx]; rfl

/-! ### Assembled targets (R91) -/

theorem targetOk_iff (t : Nat) : targetOk t = true ↔ t < 2 ^ 32 ∧ t % 4 = 0 := by simp [targetOk]

theorem signedOk_iff (n : Int) : signedOk n = true ↔ -32768 ≤ n ∧ n ≤ 32767 := by simp [signedOk]

/-- A branch whose offset fits reaches its target: the distance is a multiple of 4, so the field loses nothing (R91,
R191). -/
theorem branchTarget_branchField {pc : Word} {target : Nat} (hpc : pc.toNat % 4 = 0) (ht : targetOk target = true)
    (hreach : branchReachOk pc target = true) : branchTarget pc (branchField pc target) = BitVec.ofNat 32 target := by
  obtain ⟨hlt, hal⟩ := (targetOk_iff _).1 ht
  obtain ⟨hlo, hhi⟩ := (signedOk_iff _).1 hreach
  have hfield : (branchField pc target).toInt = branchDistance pc target / 4 := by
    rw [branchField, BitVec.toInt_ofInt, Int.bmod_eq_of_le] <;> omega
  have hdist : 4 * (branchDistance pc target / 4) = branchDistance pc target := by
    apply Int.mul_ediv_cancel'
    have := pc.isLt
    simp only [branchDistance, BitVec.toInt_eq_toNat_cond, BitVec.toNat_sub, BitVec.toNat_add, BitVec.toNat_ofNat]
    omega
  have hnext : BitVec.ofInt 32 (pc.toNat + 4) = pc + 4#32 := by
    rw [BitVec.ofInt_add, BitVec.ofInt_natCast, BitVec.ofNat_toNat, BitVec.setWidth_eq]; rfl
  rw [branchTarget_eq_branchAddress, branchAddress, hfield, hdist, branchDistance, BitVec.ofInt_add, hnext,
    BitVec.ofInt_toInt, add_sub_cancel]

/-- A jump inside its region reaches its target (R91, R193). -/
theorem jumpTarget_jumpField {pc : Word} {target : Nat} (ht : targetOk target = true)
    (hregion : jumpRegionOk pc target = true) : jumpTarget pc (jumpField target) = BitVec.ofNat 32 target := by
  obtain ⟨hlt, hal⟩ := (targetOk_iff _).1 ht
  have hr := congrArg BitVec.toNat (eq_of_beq hregion)
  rw [jumpTarget_eq_jumpAddress, jumpAddress]
  congr 1
  have := (pc + 4#32).isLt
  simp only [jumpField, BitVec.extractLsb'_toNat, BitVec.toNat_ofNat, Nat.shiftRight_eq_div_pow] at hr ⊢
  omega

/-- The branch of a well-formed line, once taken, completes at the line's target. -/
theorem branch_branchField {s : State} {taken : Bool} {op : BranchOp} {rs rt target : Nat}
    (hpc : s.pc.toNat % 4 = 0) (hwf : (Asm.branch op rs rt target).wellFormed s.pc = true) (htaken : taken = true) :
    ∃ t, s.branch taken (branchField s.pc target) = .next t ∧ t.pc = BitVec.ofNat 32 target := by
  subst htaken
  simp only [Asm.wellFormed, Bool.and_eq_true] at hwf
  obtain ⟨⟨-, ht⟩, hreach⟩ := hwf
  exact ⟨_, rfl, branchTarget_branchField hpc ht hreach⟩

/-- Settles O8: the field of a well-formed line loses nothing of the target, and the instruction continues where its
field says. -/
theorem assembledTargetReached : Obligations.AssembledTargetReached := by
  refine ⟨fun rs rt target s hpc => ⟨fun hwf heq => ?_, fun hwf hne => ?_⟩, fun op target s hwf => ?_⟩
  · exact branch_branchField hpc hwf (beq_iff_eq.2 heq)
  · exact branch_branchField hpc hwf (bne_iff_ne.2 hne)
  · obtain ⟨ht, hregion⟩ := Bool.and_eq_true_iff.1 hwf
    cases op with
    | j => exact ⟨_, rfl, jumpTarget_jumpField ht hregion⟩
    | jal => exact ⟨_, rfl, jumpTarget_jumpField ht hregion⟩

/-! ### The opcode map and the words the spec writes out (R86, R87, R90) -/

theorem rowIJ_of_fields {o : BitVec 6} {i : Word → Instr} (h : ∀ w, opcodeOf w = o → (i w).FieldsIn w) : RowIJ o i :=
  fun w ho => decodeWord_of_fields (h w ho)

theorem rowR_of_fields {f : BitVec 6} {i : Word → Instr}
    (h : ∀ w, opcodeOf w = 0x00#6 → functOf w = f → (i w).FieldsIn w) : RowR f i :=
  fun w ho hf => decodeWord_of_fields (h w ho hf)

/-- The numbers R86's table leaves out are the unsupported opcodes. -/
theorem supportedOpcode_of_notListed : ∀ o : BitVec 6,
    (o.toNat = 0x01 ∨ o.toNat = 0x06 ∨ o.toNat = 0x07 ∨ o.toNat = 0x0E ∨ (0x10 ≤ o.toNat ∧ o.toNat ≤ 0x1F) ∨
      o.toNat = 0x22 ∨ o.toNat = 0x26 ∨ o.toNat = 0x27 ∨ o.toNat = 0x2A ∨ 0x2C ≤ o.toNat) →
    supportedOpcode o = false := by decide

/-- The numbers R87's table leaves out have no row in the ALU control (R103). -/
theorem functControl_of_notListed : ∀ f : BitVec 6,
    (f.toNat = 0x01 ∨ (0x04 ≤ f.toNat ∧ f.toNat ≤ 0x07) ∨ (0x09 ≤ f.toNat ∧ f.toNat ≤ 0x1F) ∨ f.toNat = 0x28 ∨
      f.toNat = 0x29 ∨ 0x2C ≤ f.toNat) → (functControl f).unsupported = true := by decide

/-- Settles O2: a row's word has the row's codes and its own fields, and the numbers without a row are the unsupported
ones of the control units. -/
theorem opcodeMap : Obligations.OpcodeMap := by
  refine ⟨?_, ?_, fun w hn => ?_, fun w ho hn => ?_⟩
  · refine ⟨?_, ?_, ?_, ?_, ?_, ?_, ?_, ?_, ?_, ?_, ?_, ?_, ?_, ?_, ?_, ?_, ?_, ?_, ?_⟩ <;>
      exact rowIJ_of_fields fun w ho => by simp [Instr.FieldsIn, ho]
  · refine ⟨?_, ?_, ?_, ?_, ?_, ?_, ?_, ?_, ?_, ?_, ?_, ?_, ?_, ?_⟩ <;>
      exact rowR_of_fields fun w ho hf => by simp [Instr.FieldsIn, ho, hf]
  · exact decodeWord_of_unsupportedOpcode (supportedOpcode_of_notListed _ hn)
  · rw [decodeWord_of_opcode_zero ho]
    exact decodeFunct_of_unsupported (functControl_of_notListed _ hn)

/-- Settles O4, by evaluating the decoder on each of the ten words. -/
theorem sampleWordsDecode : Obligations.SampleWordsDecode := by
  refine ⟨?_, ?_, ?_, ?_, ?_, ?_, ?_, ?_, ?_, ?_⟩ <;> decide

/-! ### The contract of the Decode Unit (R105) -/

/-- Only the ALU control rows selected by function code flag a JR (R103). -/
theorem aluControlRow_jumpReg {op : BitVec 2} {f o : BitVec 6} (h : (aluControlRow op f o).jumpReg = true) :
    op = 0b10#2 := by
  have hopcode : (opcodeControl o).jumpReg = false := by unfold opcodeControl; split <;> rfl
  unfold aluControlRow at h
  split at h
  case h_3 => rfl
  case h_4 => rw [hopcode] at h; cases h
  all_goals cases h

/-- The signals of R105 for one opcode: at most one is set, and none where the function code decides. -/
theorem decodeUnit_contract : ∀ o : BitVec 6, let c := decodeUnit o
    [c.jump, c.branch, c.memRead, c.memWrite].count true ≤ 1 ∧
    (c.aluOp = 0b10#2 → [c.jump, c.branch, c.memRead, c.memWrite].count true = 0) ∧
    (c.branch = true ∨ c.memWrite = true ∨ (c.jump = true ∧ c.link = false) → c.regWrite = false) ∧
    c.memToReg = c.memRead := by decide

/-- Settles O6: the opcode settles every signal but JumpReg, and where JumpReg can be set no other one is. -/
theorem controlWordContract : Obligations.ControlWordContract := by
  intro w c
  obtain ⟨hone, hnone, hwrite, hload⟩ := decodeUnit_contract (opcodeOf w)
  refine ⟨?_, hwrite, hload⟩
  have hcount : [c.jump, c.branch, c.memRead, c.memWrite, (wordActl w).jumpReg].count true =
      [c.jump, c.branch, c.memRead, c.memWrite].count true + [(wordActl w).jumpReg].count true :=
    List.count_append (l₁ := [c.jump, c.branch, c.memRead, c.memWrite])
  rw [hcount]
  cases hj : (wordActl w).jumpReg with
  | false => exact hone
  | true => rw [hnone (aluControlRow_jumpReg hj)]; decide

end Sys2Proof.Machine

/-! The family of spec/40_alu_register.md: shifts (R121 to R123), sums and differences (R124 to R127, R134), bitwise
logic (R128 to R131) and comparisons (R132, R133) of registers. The rows of their encodings are those of `opcodeMap`. -/

namespace Sys2Proof.Machine

/-! ### The template: completion and frame (R120) -/

/-- The state `finishReg` leaves: the register file's own rule for `rd`, and the next pc. -/
theorem wroteReg_setReg_advance (s : State) (rd : Reg) (v : Word) : WroteReg s (s.setReg rd v).advance rd v where
  regs r := State.reg_setReg s rd r v
  rest := rfl

/-- An instruction whose rule is the template completes, and writes whatever value its result is shown to be. -/
theorem exists_wroteReg_of_finishReg {i : Instr} {s : State} {rd : Reg} {result v : Word}
    (h : exec i s = s.finishReg rd result) (hv : result = v) : ∃ t, exec i s = .next t ∧ WroteReg s t rd v := by
  subst hv
  exact ⟨_, h.trans (finishReg_eq s rd result), wroteReg_setReg_advance s rd result⟩

/-- The template with a result described bit by bit. -/
theorem exists_wroteReg_bits_of_finishReg {i : Instr} {s : State} {rd : Reg} {result : Word} {bits : Nat → Bool}
    (h : exec i s = s.finishReg rd result) (hbits : ∀ k < 32, result.getLsbD k = bits k) :
    ∃ t v, exec i s = .next t ∧ WroteReg s t rd v ∧ ∀ k < 32, v.getLsbD k = bits k :=
  ⟨_, result, h.trans (finishReg_eq s rd result), wroteReg_setReg_advance s rd result, hbits⟩

/-! ### Shifts as arithmetic (R121 to R123) -/

theorem shiftLeft_eq_ofNat (a : Word) (n : Nat) : a <<< n = BitVec.ofNat 32 (a.toNat * 2 ^ n) := by
  rw [← BitVec.toNat_inj, BitVec.toNat_shiftLeft, BitVec.toNat_ofNat, Nat.shiftLeft_eq]

theorem ushiftRight_eq_ofNat (a : Word) (n : Nat) : a >>> n = BitVec.ofNat 32 (a.toNat / 2 ^ n) := by
  rw [← Nat.shiftRight_eq_div_pow, ← BitVec.toNat_ushiftRight, BitVec.ofNat_toNat, BitVec.setWidth_eq]

/-- Copies of bit 31 are what rounds the signed quotient down (R123). -/
theorem sshiftRight_eq_ofInt (a : Word) (n : Nat) : a.sshiftRight n = BitVec.ofInt 32 (a.toInt / 2 ^ n) := by
  rw [BitVec.sshiftRight, Int.shiftRight_eq_div_pow, Nat.cast_pow, Nat.cast_ofNat]

/-- Settles O12: each shift is the template of its family on a shift that is arithmetic on the register's value. -/
theorem shiftResult : Obligations.ShiftResult := by
  intro rd rt shamt s
  refine ⟨?_, ?_, ?_⟩
  · exact exists_wroteReg_of_finishReg rfl (shiftLeft_eq_ofNat (s.reg rt) shamt.toNat)
  · exact exists_wroteReg_of_finishReg rfl (ushiftRight_eq_ofNat (s.reg rt) shamt.toNat)
  · exact exists_wroteReg_of_finishReg rfl (sshiftRight_eq_ofInt (s.reg rt) shamt.toNat)

/-! ### Sums and differences (R124 to R127, R134) -/

theorem add_eq_ofNat_mod (a b : Word) : a + b = BitVec.ofNat 32 ((a.toNat + b.toNat) % 2 ^ 32) := by
  rw [← BitVec.toNat_add, BitVec.ofNat_toNat, BitVec.setWidth_eq]

theorem sub_eq_ofInt (a b : Word) : a - b = BitVec.ofInt 32 ((a.toNat : Int) - (b.toNat : Int)) := by
  rw [Int.sub_eq_add_neg, BitVec.ofInt_add, BitVec.ofInt_neg, BitVec.ofInt_natCast, BitVec.ofInt_natCast,
    BitVec.ofNat_toNat, BitVec.ofNat_toNat, BitVec.setWidth_eq, BitVec.setWidth_eq, BitVec.sub_eq_add_neg]

/-- Settles O9: ADD and ADDU have one rule, as have SUB and SUBU, and each is the template on the sum or the difference
modulo `2^32`. -/
theorem addSubtractResult : Obligations.AddSubtractResult := by
  obtain ⟨-, ⟨-, -, -, -, hadd, haddu, hsub, hsubu, -⟩, -⟩ := opcodeMap
  refine ⟨⟨hadd, haddu, hsub, hsubu⟩, fun rd rs rt s => ?_⟩
  have hsum := add_eq_ofNat_mod (s.reg rs) (s.reg rt)
  have hdifference := sub_eq_ofInt (s.reg rs) (s.reg rt)
  refine ⟨?_, ?_, ?_, ?_⟩
  · exact exists_wroteReg_of_finishReg rfl hsum
  · exact exists_wroteReg_of_finishReg rfl hsum
  · exact exists_wroteReg_of_finishReg rfl hdifference
  · exact exists_wroteReg_of_finishReg rfl hdifference

/-! ### Bitwise logic (R128 to R131) -/

/-- Below the word's width the negated or has no bit left over (R131). -/
theorem getLsbD_not_or (a b : Word) {k : Nat} (hk : k < 32) :
    (~~~(a ||| b)).getLsbD k = !(a.getLsbD k || b.getLsbD k) := by
  rw [BitVec.getLsbD_not, BitVec.getLsbD_or, decide_eq_true hk, Bool.true_and]

/-- Settles O10: each operation is the template on a word whose bits the library gives. -/
theorem logicResult : Obligations.LogicResult := by
  obtain ⟨-, ⟨-, -, -, -, -, -, -, -, hand, hor, hxor, hnor, -⟩, -⟩ := opcodeMap
  refine ⟨hand, hor, hxor, hnor, fun rd rs rt s => ⟨?_, ?_, ?_, ?_⟩⟩
  · exact exists_wroteReg_bits_of_finishReg rfl fun k _ => BitVec.getLsbD_and
  · exact exists_wroteReg_bits_of_finishReg rfl fun k _ => BitVec.getLsbD_or
  · exact exists_wroteReg_bits_of_finishReg rfl fun k _ => BitVec.getLsbD_xor
  · exact exists_wroteReg_bits_of_finishReg rfl fun k hk => getLsbD_not_or _ _ hk

/-! ### Comparisons (R132, R133) -/

theorem boolWord_decide (p : Prop) [Decidable p] : boolWord (decide p) = if p then 1#32 else 0#32 :=
  if_congr decide_eq_true_iff rfl rfl

/-- Settles O11: both comparisons are the template on the word of a decided comparison. -/
theorem setLessResult : Obligations.SetLessResult := by
  obtain ⟨-, ⟨-, -, -, -, -, -, -, -, -, -, -, -, hslt, hsltu⟩, -⟩ := opcodeMap
  refine ⟨hslt, hsltu, fun rd rs rt s => ⟨?_, ?_⟩⟩
  · exact exists_wroteReg_of_finishReg rfl (boolWord_decide _)
  · exact exists_wroteReg_of_finishReg rfl (boolWord_decide _)

end Sys2Proof.Machine

/-! The family of spec/41_alu_immediate.md: sums (R151, R152, R134), comparisons (R153, R154) and bitwise logic (R155,
R156) with an immediate, and the upper immediate (R157). Each rule follows R150, whose completion and frame are
those of R120 with `rt` as the destination. -/

namespace Sys2Proof.Machine

/-! ### The immediate operands (R12, R85) -/

theorem toInt_sextImm (imm : BitVec 16) : (sextImm imm).toInt = imm.toInt :=
  BitVec.toInt_signExtend_of_le (by decide)

/-- Read as unsigned, a negative immediate carries the sixteen upper bits of the extension (R154). -/
theorem toNat_sextImm (imm : BitVec 16) :
    (sextImm imm).toNat = if imm.toNat < 0x8000 then imm.toNat else imm.toNat + 0xFFFF0000 := by
  rw [sextImm, BitVec.toNat_signExtend, BitVec.toNat_setWidth_of_le (by decide), BitVec.msb_eq_decide]
  by_cases h : imm.toNat < 0x8000
  · rw [if_pos h, if_neg (by simpa using h), Nat.add_zero]
  · rw [if_neg h, if_pos (by simpa using h)]

theorem getLsbD_zextImm (imm : BitVec 16) {k : Nat} (hk : k < 32) : (zextImm imm).getLsbD k = imm.getLsbD k := by
  rw [zextImm, BitVec.getLsbD_setWidth, decide_eq_true hk, Bool.true_and]

theorem upperImm_eq_ofNat (imm : BitVec 16) : upperImm imm = BitVec.ofNat 32 (imm.toNat * 2 ^ 16) := by
  rw [← BitVec.toNat_inj, upperImm, BitVec.toNat_append, BitVec.toNat_ofNat, Nat.zero_mod, Nat.or_zero,
    Nat.shiftLeft_eq, BitVec.toNat_ofNat, Nat.mod_eq_of_lt (by omega)]

/-! ### Sums (R134, R151, R152) -/

theorem add_sextImm_eq_ofInt (a : Word) (imm : BitVec 16) :
    a + sextImm imm = BitVec.ofInt 32 (a.toInt + imm.toInt) := by
  rw [BitVec.ofInt_add, BitVec.ofInt_toInt, sextImm_eq_ofInt]

/-- Settles O13: ADDI and ADDIU have one rule, the template on the sum with the sign-extended immediate. -/
theorem addImmediateResult : Obligations.AddImmediateResult := by
  obtain ⟨⟨-, -, -, -, haddi, haddiu, -⟩, -⟩ := opcodeMap
  refine ⟨haddi, haddiu, fun rt rs imm s => ?_⟩
  have hsum := add_sextImm_eq_ofInt (s.reg rs) imm
  exact ⟨exists_wroteReg_of_finishReg rfl hsum, exists_wroteReg_of_finishReg rfl hsum⟩

/-! ### Comparisons (R153, R154) -/

theorem boolWord_signedLess_sextImm (a : Word) (imm : BitVec 16) :
    boolWord (signedLess a (sextImm imm)) = if a.toInt < imm.toInt then 1#32 else 0#32 := by
  rw [signedLess, boolWord_decide, toInt_sextImm]

theorem boolWord_unsignedLess_sextImm (a : Word) (imm : BitVec 16) :
    boolWord (unsignedLess a (sextImm imm)) =
      if a.toNat < (if imm.toNat < 0x8000 then imm.toNat else imm.toNat + 0xFFFF0000) then 1#32 else 0#32 := by
  rw [unsignedLess, boolWord_decide, toNat_sextImm]

/-- Settles O14: both comparisons are the template on the word of a comparison with the sign-extended immediate, read as
signed or as unsigned. -/
theorem setLessImmediateResult : Obligations.SetLessImmediateResult := by
  obtain ⟨⟨-, -, -, -, -, -, hslti, hsltiu, -⟩, -⟩ := opcodeMap
  refine ⟨hslti, hsltiu, fun rt rs imm s => ⟨?_, ?_⟩⟩
  · exact exists_wroteReg_of_finishReg rfl (boolWord_signedLess_sextImm (s.reg rs) imm)
  · exact exists_wroteReg_of_finishReg rfl (boolWord_unsignedLess_sextImm (s.reg rs) imm)

/-! ### Bitwise logic (R155, R156) -/

theorem getLsbD_and_zextImm (a : Word) (imm : BitVec 16) {k : Nat} (hk : k < 32) :
    (a &&& zextImm imm).getLsbD k = if k < 16 then a.getLsbD k && imm.getLsbD k else false := by
  rw [BitVec.getLsbD_and, getLsbD_zextImm imm hk]
  split
  · rfl
  next h => rw [BitVec.getLsbD_of_ge imm k (Nat.le_of_not_lt h), Bool.and_false]

theorem getLsbD_or_zextImm (a : Word) (imm : BitVec 16) {k : Nat} (hk : k < 32) :
    (a ||| zextImm imm).getLsbD k = if k < 16 then a.getLsbD k || imm.getLsbD k else a.getLsbD k := by
  rw [BitVec.getLsbD_or, getLsbD_zextImm imm hk]
  split
  · rfl
  next h => rw [BitVec.getLsbD_of_ge imm k (Nat.le_of_not_lt h), Bool.or_false]

/-- Settles O15: below bit 16 the zero-extended immediate has the immediate's bits, from bit 16 up it has none. -/
theorem logicImmediateResult : Obligations.LogicImmediateResult := by
  obtain ⟨⟨-, -, -, -, -, -, -, -, handi, hori, -⟩, -⟩ := opcodeMap
  refine ⟨handi, hori, fun rt rs imm s => ⟨?_, ?_⟩⟩
  · exact exists_wroteReg_bits_of_finishReg rfl fun k hk => getLsbD_and_zextImm (s.reg rs) imm hk
  · exact exists_wroteReg_bits_of_finishReg rfl fun k hk => getLsbD_or_zextImm (s.reg rs) imm hk

/-! ### The upper immediate (R157) -/

/-- Settles O16: the template on the immediate shifted into the upper half. -/
theorem loadUpperResult : Obligations.LoadUpperResult :=
  fun _ imm _ => exists_wroteReg_of_finishReg rfl (upperImm_eq_ofNat imm)

end Sys2Proof.Machine

/-! The family of spec/42_load_store.md: what the loads write (R170 to R175), what the stores leave in memory (R176 to
R178, R57), and the accesses that fault (R179, R333). -/

namespace Sys2Proof.Machine

/-! ### Alignment and the checks of an access (R55, R333) -/

/-- An access of `n` bytes is aligned exactly at the multiples of `n` (R55). -/
theorem alignedFor_iff (a : Word) (n : Width) : alignedFor a n = true ↔ a.toNat % n.bytes = 0 := by
  cases n with
  | byte => simp [alignedFor, Width.bytes, Nat.mod_one]
  | half => rw [alignedFor, aligned2_iff, byteOffset, Width.bytes]; omega
  | word => exact aligned4_iff a

/-- Misalignment is tested first (R333). -/
theorem checkAccess_of_not_multiple {cfg : RunConfig} {a : Word} {n : Width} (h : a.toNat % n.bytes ≠ 0) :
    checkAccess cfg a n = .error (.misalignedData a n.bytes) :=
  checkAccess_misaligned (Bool.eq_false_iff.2 fun ha => h ((alignedFor_iff a n).1 ha))

/-- An aligned access beyond the memory is out of range (R333). -/
theorem checkAccess_of_beyond {cfg : RunConfig} {a : Word} {n : Width} (ha : a.toNat % n.bytes = 0)
    (hr : cfg.memWords ≤ wordIndex a) : checkAccess cfg a n = .error (.outOfRange a) :=
  checkAccess_outOfRange ((alignedFor_iff a n).2 ha) hr

/-- The loads and the store of a width raise what the checks of their access raise (R179). -/
theorem load_store_of_checkAccess_error {s : State} {rs : Reg} {imm : BitVec 16} {n : Width} {f : Fault} (rt : Reg)
    (h : checkAccess s.cfg (effAddr (s.reg rs) imm) n = .error f) :
    s.load rt rs imm n false = .fault f ∧ s.load rt rs imm n true = .fault f ∧ s.store rt rs imm n = .fault f := by
  have hread : memRead s.cfg s.mem (effAddr (s.reg rs) imm) n = .error f := by rw [memRead_eq, h]; rfl
  have hwrite : memWrite s.cfg s.mem (effAddr (s.reg rs) imm) n (s.reg rt) = .error f := by rw [memWrite_eq, h]; rfl
  exact ⟨load_of_error false hread, load_of_error true hread, store_of_error hwrite⟩

/-- Settles O20: every load and store raises the fault of `checkAccess` at its effective address, for its width. -/
theorem dataAccessFaults : Obligations.DataAccessFaults := by
  intro rt rs imm s a
  refine ⟨fun h => ?_, fun h => ?_, fun hr => ⟨?_, fun h => ?_, fun h => ?_⟩⟩
  · have hodd : a.toNat % Width.half.bytes ≠ 0 := by rw [Width.bytes, h]; decide
    exact load_store_of_checkAccess_error rt (checkAccess_of_not_multiple hodd)
  · obtain ⟨hload, -, hstore⟩ := load_store_of_checkAccess_error rt (checkAccess_of_not_multiple (n := .word) h)
    exact ⟨hload, hstore⟩
  · exact load_store_of_checkAccess_error rt (checkAccess_of_beyond (n := .byte) (Nat.mod_one _) hr)
  · exact load_store_of_checkAccess_error rt (checkAccess_of_beyond (n := .half) h hr)
  · obtain ⟨hload, -, hstore⟩ := load_store_of_checkAccess_error rt (checkAccess_of_beyond (n := .word) h hr)
    exact ⟨hload, hstore⟩

/-! ### Loads (R170 to R175) -/

theorem extendData_byte_signed (b : Byte) : extendData .byte false (b.setWidth 32) = b.signExtend 32 := by
  simp [extendData]

theorem extendData_half_signed (h : BitVec 16) : extendData .half false (h.setWidth 32) = h.signExtend 32 := by
  simp [extendData]

/-- An aligned word read inside the memory answers the word of the four bytes at its address (R53, R56). -/
theorem memRead_word_bytes {cfg : RunConfig} (m : Memory) {a : Word} (ha : a.toNat % 4 = 0)
    (hr : wordIndex a < cfg.memWords) :
    memRead cfg m a .word = .ok (wordOfBytes cfg.byteOrder (m.read a.toNat) (m.read (a.toNat + 1))
      (m.read (a.toNat + 2)) (m.read (a.toNat + 3))) := by
  rw [memRead_word m ((aligned4_iff a).2 ha) hr, Memory.word_of_aligned _ m ha]

/-- An instruction whose rule is a load completes where its read does, and writes the extended data. -/
theorem exists_wroteReg_of_load {i : Instr} {s : State} {rt rs : Reg} {imm : BitVec 16} {n : Width} {u : Bool}
    {d v : Word} (h : exec i s = s.load rt rs imm n u)
    (hd : memRead s.cfg s.mem (effAddr (s.reg rs) imm) n = .ok d) (hv : extendData n u d = v) :
    ∃ t, exec i s = .next t ∧ WroteReg s t rt v := by
  subst hv
  exact ⟨_, h.trans (load_of_ok u hd), wroteReg_setReg_advance s rt _⟩

/-- Settles O18: each load writes what `MemRead` answers from the bytes at its effective address, extended. -/
theorem loadResult : Obligations.LoadResult := by
  intro rt rs imm s a b h
  refine ⟨add_sextImm_eq_ofInt (s.reg rs) imm, fun hr => ?_⟩
  have hbyte := memRead_byte s.mem hr
  have hhalf (ha : a.toNat % 2 = 0) := memRead_half s.mem ((alignedFor_iff a .half).2 ha) hr
  refine ⟨?_, ?_, fun ha => ?_, fun ha => ?_, fun ha => ?_⟩
  · exact exists_wroteReg_of_load rfl hbyte (extendData_byte_signed _)
  · exact exists_wroteReg_of_load rfl hbyte rfl
  · exact exists_wroteReg_of_load rfl (hhalf ha) (extendData_half_signed _)
  · exact exists_wroteReg_of_load rfl (hhalf ha) rfl
  · exact exists_wroteReg_of_load rfl (memRead_word_bytes s.mem ha hr) rfl

/-! ### Stores (R57, R176 to R178) -/

/-- The state a completed store leaves: `memWrite_read` says each of its bytes. -/
theorem storedBytes_setMem_advance {s : State} {m : Memory} {a : Word} {n : Width} {v : Word} (hm : s.mem.wf = true)
    (h : memWrite s.cfg s.mem a n v = .ok m) :
    StoredBytes s (s.setMem m).advance a n.bytes (dataByte s.cfg.byteOrder n.bytes v) where
  inside k hk := by
    have hread := memWrite_read hm h (a.toNat + k)
    rwa [if_pos (by omega), Nat.add_sub_cancel_left, storeByte_eq_dataByte _ _ _ hk] at hread
  outside b hb := by
    have hread := memWrite_read hm h b
    rwa [if_neg (by omega)] at hread
  wf := memWrite_wf hm h
  rest := rfl

/-- An instruction whose rule is a store completes at an aligned address inside the memory, and stores the low bytes of
its register there. -/
theorem exists_storedBytes_of_store {i : Instr} {s : State} {rt rs : Reg} {imm : BitVec 16} {n : Width}
    (h : exec i s = s.store rt rs imm n) (hm : s.mem.wf = true) (ha : (effAddr (s.reg rs) imm).toNat % n.bytes = 0)
    (hr : wordIndex (effAddr (s.reg rs) imm) < s.cfg.memWords) :
    ∃ t, exec i s = .next t ∧
      StoredBytes s t (effAddr (s.reg rs) imm) n.bytes (dataByte s.cfg.byteOrder n.bytes (s.reg rt)) := by
  have hwrite := memWrite_of_ok s.mem (s.reg rt) ((alignedFor_iff _ n).2 ha) hr
  exact ⟨_, h.trans (store_of_ok hwrite), storedBytes_setMem_advance hm hwrite⟩

/-- Settles O19: the three stores are one rule at three widths. -/
theorem storeResult : Obligations.StoreResult := by
  intro rt rs imm s hm a hr
  refine ⟨?_, fun ha => ?_, fun ha => ?_⟩
  · exact exists_storedBytes_of_store (n := .byte) rfl hm (Nat.mod_one _) hr
  · exact exists_storedBytes_of_store (n := .half) rfl hm ha hr
  · exact exists_storedBytes_of_store (n := .word) rfl hm ha hr

end Sys2Proof.Machine

/-! The family of spec/43_control_transfer.md: the branches (R191, R192), the jumps and the link (R193, R194), and JR
with its fault (R195). -/

namespace Sys2Proof.Machine

/-! ### Branches (R191, R192) -/

/-- Taken or not, a branch leaves everything but the pc as it was. -/
theorem State.branch_eq (s : State) (taken : Bool) (imm : BitVec 16) :
    s.branch taken imm = .next { s with pc := if taken then branchAddress s.pc imm else s.pc + 4#32 } := by
  rw [← branchTarget_eq_branchAddress]
  cases taken with
  | false => rfl
  | true => rfl

/-- Settles O24: the two branches are one rule, under a condition and under its negation. -/
theorem branchResult : Obligations.BranchResult := by
  intro rs rt imm s
  constructor
  · calc exec (.beq rs rt imm) s = s.branch (s.reg rs == s.reg rt) imm := rfl
      _ = _ := by simp only [State.branch_eq, beq_iff_eq]
  · calc exec (.bne rs rt imm) s = s.branch (s.reg rs != s.reg rt) imm := rfl
      _ = _ := by simp only [State.branch_eq, bne_iff_ne, ite_not]

/-! ### Jumps (R193 to R195) -/

theorem exec_j (index : BitVec 26) (s : State) : exec (.j index) s = .next (s.jumpTo (jumpAddress s.pc index)) := by
  rw [← jumpTarget_eq_jumpAddress]; rfl

theorem exec_jal (index : BitVec 26) (s : State) :
    exec (.jal index) s = .next ((s.setReg linkReg (s.pc + 4#32)).jumpTo (jumpAddress s.pc index)) := by
  rw [← jumpTarget_eq_jumpAddress]; rfl

/-- The link register is not register 0, so the link is never discarded (R21, R194). -/
theorem State.reg_setReg_linkReg (s : State) (r : Reg) (v : Word) :
    (s.setReg linkReg v).reg r = if r = 31#5 then v else s.reg r := by
  have hne : (r = linkReg ∧ r ≠ 0#5) ↔ r = 31#5 := and_iff_left_of_imp (by rintro rfl; decide)
  simp only [State.reg_setReg, hne]

theorem exec_jr_of_aligned {rs : Reg} {s : State} (h : (s.reg rs).toNat % 4 = 0) :
    exec (.jr rs) s = .next (s.jumpTo (s.reg rs)) := if_pos ((aligned4_iff _).2 h)

theorem exec_jr_of_misaligned {rs : Reg} {s : State} (h : (s.reg rs).toNat % 4 ≠ 0) :
    exec (.jr rs) s = .fault (.misalignedTarget s.pc (s.reg rs)) := if_neg (mt (aligned4_iff _).1 h)

/-- Settles O25: J and JAL by their address and the link, JR by whether its register is aligned. -/
theorem jumpResult : Obligations.JumpResult := by
  intro index rs s
  refine ⟨exec_j index s, ⟨_, exec_jal index s, fun r => ?_, rfl⟩, exec_jr_of_aligned, exec_jr_of_misaligned⟩
  rw [State.reg_jumpTo, State.reg_setReg_linkReg]

end Sys2Proof.Machine

/-! The family of spec/44_pipeline_engine.md: the single-cycle engine (R210), what one cycle leaves in registers, memory
and latches (R212, R213, R230 to R234), and both engines against the rules of the instructions (R211, R236). -/

namespace Sys2Proof.Machine

/-! ### The single-cycle engine (R210) -/

theorem decodeBytes_four_ok {bo : ByteOrder} {b0 b1 b2 b3 : Byte} {i : Instr} {rest : List Byte}
    (h : decodeBytes bo [b0, b1, b2, b3] = .ok (i, rest)) : decodeWord (wordOfBytes bo b0 b1 b2 b3) = .ok i := by
  simp only [decodeBytes] at h
  cases hw : decodeWord (wordOfBytes bo b0 b1 b2 b3) with
  | error why => simp [hw] at h
  | ok j =>
    simp only [hw, Except.ok.injEq, Prod.mk.injEq] at h
    rw [h.1]

/-- `SeqStep` at the end address stops the run (R210, log 8). -/
theorem seqStep_of_end {s : State} (h : s.pc = s.cfg.endPC) : seqStep s = .next s.halt := if_pos h

theorem seqStep_of_beyond {s : State} (he : s.pc ≠ s.cfg.endPC) (h : s.cfg.memWords ≤ wordIndex s.pc) :
    seqStep s = .fault (.outOfRange s.pc) := by
  rw [seqStep, if_neg he, if_pos h]

theorem seqStep_of_error {s : State} {why : Reject} (he : s.pc ≠ s.cfg.endPC) (hr : wordIndex s.pc < s.cfg.memWords)
    (h : decodeWord (fetchWord s.cfg s.mem s.pc) = .error why) :
    seqStep s = .fault (.unsupportedInstruction s.pc (fetchWord s.cfg s.mem s.pc)) := by
  rw [seqStep, if_neg he, if_neg (by omega), h]

/-- `SeqStep` on a word that decodes is the instruction's rule, counted (R210). -/
theorem seqStep_of_ok {s : State} {i : Instr} (he : s.pc ≠ s.cfg.endPC) (hr : wordIndex s.pc < s.cfg.memWords)
    (h : decodeWord (fetchWord s.cfg s.mem s.pc) = .ok i) : seqStep s = countOutcome (exec i s) := by
  rw [seqStep, if_neg he, if_neg (by omega), h]

/-- Settles O27: the word fetched is made of the four bytes at the pc, so `SeqStep` runs the instruction they decode
to. -/
theorem stepRunsDecodedInstruction : Obligations.StepRunsDecodedInstruction := by
  intro s i hrun hengine hend hal hr hbytes
  have hi : decodeWord (fetchWord s.cfg s.mem s.pc) = .ok i := by
    rw [fetchWord_inRange _ hr, Memory.word_of_aligned _ _ hal]
    exact decodeBytes_four_ok hbytes
  have hstep : step s = countOutcome (exec i s) := (step_singleCycle hrun hengine).trans (seqStep_of_ok hend hr hi)
  refine ⟨fun t ht => ?_, fun f hf => by rw [hstep, hf, countOutcome]⟩
  have hframe := (exec_effect ht).frame
  rw [hstep, ht, countOutcome, State.countStep, hframe]

/-- Settles O28, by the tests of `SeqStep` in their order. -/
theorem sequentialStops : Obligations.SequentialStops := by
  intro s hrun hengine
  rw [step_singleCycle hrun hengine]
  exact ⟨seqStep_of_end, seqStep_of_beyond, fun he hr why => seqStep_of_error he hr⟩

/-! ### The registers a decoded instruction writes and consumes (R102, R213, R251) -/

/-- The register Decode's control words name as written: none without `RegWrite` or for JR (R102, R213). -/
def codeDest (w : Word) (c : Ctrl) (a : AluControl) : Option Reg :=
  if c.regWrite && !a.jumpReg then some (destOf w c) else none

/-- The fields `usesRs` and `usesRt` select from the control words of a supported word (R251). -/
def codeSources (w : Word) (c : Ctrl) (a : AluControl) : List Reg :=
  (if !c.jump && !c.lui && !a.shift then [rsOf w] else []) ++
    (if (!c.aluSrc && !c.jump) || c.memWrite then [rtOf w] else [])

section Roles
variable {w : Word} {i : Instr}

/-- The instruction's destination and sources are those its opcode and function code select. -/
def HasRoles (w : Word) (i : Instr) : Prop :=
  codeDest w (wordCtrl w) (wordActl w) = destReg i ∧ codeSources w (wordCtrl w) (wordActl w) = sourceRegs w i

/-- The control words depend on the codes alone, so the roles are read off the row of the codes. -/
theorem hasRoles_of_codes {o f : BitVec 6} (hi : decodeWord w = .ok i) (ho : opcodeOf w = o) (hf : functOf w = f)
    (hd : codeDest w (decodeUnit o) (aluControlRow (decodeUnit o).aluOp f o) = destReg i)
    (hs : codeSources w (decodeUnit o) (aluControlRow (decodeUnit o).aluOp f o) = sourceRegs w i) : HasRoles w i := by
  rw [HasRoles, wordCtrl_of_opcode hi ho, wordActl_of_codes hi ho hf]
  exact ⟨hd, hs⟩

/-- Every row of the opcode map gives its instruction the roles of its rule. -/
theorem hasRoles (hi : decodeWord w = .ok i) : HasRoles w i := by
  have h := decodeWord_ok hi
  cases i
  case sll | srl | sra | add | addu | sub | subu | and | or | xor | nor | slt | sltu =>
    obtain ⟨ho, hf, rfl, rfl, rfl⟩ := h; exact hasRoles_of_codes hi ho hf rfl rfl
  case jr => obtain ⟨ho, hf, rfl⟩ := h; exact hasRoles_of_codes hi ho hf rfl rfl
  case j | jal => obtain ⟨ho, rfl⟩ := h; exact hasRoles_of_codes hi ho rfl rfl rfl
  case lui => obtain ⟨ho, rfl, rfl⟩ := h; exact hasRoles_of_codes hi ho rfl rfl rfl
  all_goals obtain ⟨ho, rfl, rfl, rfl⟩ := h; exact hasRoles_of_codes hi ho rfl rfl rfl

end Roles

theorem IdEx.writesReg_iff {d : IdEx} {w : Word} (he : d.empty = false) (hd : d.dest = destOf w d.ctrl) :
    d.writesReg = true ↔ ∃ r, codeDest w d.ctrl d.actl = some r ∧ r ≠ 0#5 := by
  have hfields : d.writesReg = ((d.ctrl.regWrite && !d.actl.jumpReg) && destOf w d.ctrl != 0#5) := by
    rw [IdEx.writesReg, he, hd]; rfl
  rw [hfields, codeDest]
  cases d.ctrl.regWrite && !d.actl.jumpReg with
  | false => simp
  | true => simp

theorem mem_codeSources {w : Word} {c : Ctrl} {a : AluControl} {r : Reg} : r ∈ codeSources w c a ↔
    ((!c.jump && !c.lui && !a.shift) = true ∧ rsOf w = r) ∨
      (((!c.aluSrc && !c.jump) || c.memWrite) = true ∧ rtOf w = r) := by
  unfold codeSources
  rw [List.mem_append]
  apply or_congr <;> split <;> simp [*, eq_comm]

theorem IdEx.readsReg_iff_mem {d : IdEx} {w : Word} (he : d.empty = false) (hu : d.actl.unsupported = false)
    (hrs : d.rs = rsOf w) (hrt : d.rt = rtOf w) (r : Reg) :
    d.readsReg r = true ↔ r ≠ 0#5 ∧ r ∈ codeSources w d.ctrl d.actl := by
  rw [readsReg_iff, mem_codeSources, IdEx.usesRs, IdEx.usesRt, hrs, hrt, hu, he]
  simp

/-- Settles O7: Decode's `writesReg`, `dest` and `reads` are those of the control words, which `hasRoles` compares with
the rule of every instruction. -/
theorem decodedRegisterRoles : Obligations.DecodedRegisterRoles := by
  intro regs w pc pred i hi
  obtain ⟨hdest, hsources⟩ := hasRoles hi
  rw [decodeLane_of_full rfl]
  refine ⟨?_, fun r hr => ?_, fun r => ?_⟩
  · rw [← hdest]; exact IdEx.writesReg_iff rfl rfl
  · rw [← hdest, codeDest] at hr
    split at hr
    · exact Option.some.inj hr
    · cases hr
  · rw [← hsources]; exact IdEx.readsReg_iff_mem rfl (wordActl_of_ok hi) rfl rfl r

/-! ### A redirect and a stall (R234, R252, R289) -/

/-- A load is no branch, no jump and no JR, so it does not redirect (R105, R290). -/
theorem redirect_none_of_load {s : State} {p : Predictor} {e : IdEx} {x : Executed} (he : e.Consistent s.cfg)
    (hx : s.executeOn p e = .ok x) (hm : e.ctrl.memRead = true) : x.redirect = none := by
  rcases executeLane_ok hx with ⟨-, rfl⟩ | ⟨hfull, hr, -, -⟩
  · rfl
  · obtain ⟨hctrl, hactl, -⟩ := he.2.1 hfull
    rw [hctrl] at hm
    obtain ⟨hb, hj, hjr, -, -⟩ := (wordCtrl_exclusive e.instr).1 hm
    rw [executeRedirect_none (by rw [hctrl, hb]) (by rw [hctrl, hj]) (by rw [hactl, hjr])] at hr
    exact (Except.ok.inj hr).symm

/-- Settles O39: the stall is for a load in `IDEX`, and a load does not redirect. -/
theorem redirectExcludesStall : Obligations.RedirectExcludesStall := by
  intro s d x target hs hx hr
  obtain ⟨-, hidex, -, -⟩ := hs
  by_contra hstall
  have hm : s.idex.lane1.ctrl.memRead = true := by simp_all [loadUse]
  rw [redirect_none_of_load hidex.1 hx hm] at hr
  cases hr

/-! ### One cycle: latches, memory, registers -/

/-- With one lane the halt check completes and at most halts the machine (R355). -/
theorem haltCheck_one {s : State} (hl : s.cfg.lanes = .one) : ∃ run, s.haltCheck = .ok { s with run := run } := by
  unfold State.haltCheck
  split
  · exact ⟨.halted, rfl⟩
  · rw [hl]; exact ⟨s.run, rfl⟩

/-- Settles O33: the stages that complete determine the latch update (`scalarUpdate`), and its front end goes by
redirect, stall, or neither. -/
theorem scalarLatchUpdate : Obligations.ScalarLatchUpdate := by
  intro s r y mem x hrun hengine hl hr hm hx
  have hx : s.executeOn s.predictor s.idex.lane1 = .ok x := by rw [State.executeOn, hl]; exact hx
  obtain ⟨run, hhalt⟩ := haltCheck_one (s := scalarUpdate s r y mem x) hl
  refine ⟨{ scalarUpdate s r y mem x with run := run }, ?_, rfl, rfl, rfl, rfl, rfl, rfl, rfl, fun target ht => ?_,
    fun hn hstall => ?_, fun hn hgo => ?_, fun hc hn => ?_⟩
  · rw [step_pipelined hrun hengine, cycle, hl]
    show outcomeOf (cycleScalar s) = _
    rw [cycleScalar_of_ok hr hm hx, hhalt]; rfl
  · simp [scalarUpdate, scalarFront, ht, FrontEnd.flushed]
  · simp [scalarUpdate, scalarFront, hn, hstall]
  · simp [scalarUpdate, scalarFront, hn, hgo, fetchLatch, nextFetch, predictedTaken, branchTarget_eq_branchAddress,
      nextPc]
  · obtain ⟨target, ht⟩ := Option.ne_none_iff_exists'.1 hn
    exact redirectExcludesStall s _ x target hc hx ht

/-- Settles O35: the halt check leaves memory alone, and each lane's Memory stage changes it by its own store
(`memoryLane_read`). -/
theorem memoryAfterCycle : Obligations.MemoryAfterCycle := by
  intro s t c hrun hengine hwf hempty hstep
  rcases pipelined_next hrun hengine hstep with ⟨hl, r, y, mem, x, -, hm, -, hh⟩ | ⟨hl, r, y, mem, x, -, hm, -, hh⟩
  · obtain ⟨-, hmem, -⟩ := haltCheck_keeps hh
    have hno : s.exmem.lane2.storesAt c = false := by simp [ExMem.storesAt, hempty hl]
    rw [hmem, hno, if_neg (by decide)]
    exact memoryLane_read hwf hm c
  · obtain ⟨-, hmem, -⟩ := haltCheck_keeps hh
    obtain ⟨mem1, h1, h2⟩ := memoryBoth_ok hm
    rw [hmem, ← memoryLane_read hwf h1 c]
    exact memoryLane_read (memoryLane_wf hwf h1) h2 c

/-- With nothing in lane 2 Writeback of both lanes is that of lane 1. -/
theorem writebackBoth_of_bubble {s : State} {r : Retired} (h2 : s.memwb.lane2 = MemWb.bubble)
    (h : writebackLane s.cfg ⟨s.regs, s.committed⟩ s.memwb.lane1 = .ok r) : writebackBoth s = .ok r := by
  rw [writebackBoth, h, h2]; exact writebackLane_bubble s.cfg r

/-- The registers and the counter after Writeback of both lanes: lane 2 over lane 1 (R230, R302). -/
theorem writebackBoth_effect {s : State} {r : Retired} (h : writebackBoth s = .ok r) :
    (∀ q, r.regs.read q =
      if s.memwb.lane2.writesTo q then s.memwb.lane2.wbValue
      else if s.memwb.lane1.writesTo q then s.memwb.lane1.wbValue else s.reg q) ∧
    r.committed = s.committed + occupied s.memwb.lane1.empty s.memwb.lane2.empty := by
  obtain ⟨r1, h1, h2⟩ := writebackBoth_ok h
  refine ⟨fun q => ?_, ?_⟩
  · rw [writebackLane_read h2 q, writebackLane_read h1 q]; rfl
  · obtain ⟨-, -, hc1⟩ := writebackLane_ok h1
    obtain ⟨-, -, hc2⟩ := writebackLane_ok h2
    rw [hc2, hc1, occupied]
    split <;> split <;> rfl

/-- A cycle of the running pipeline retires `MEMWB` first and makes its halt check last (R212). -/
theorem pipelined_retires {s t : State} (hr : s.run = .running) (he : s.cfg.engine = .pipelined)
    (hone : s.cfg.lanes = .one → s.memwb.lane2 = MemWb.bubble) (h : step s = .next t) :
    ∃ (r : Retired) (u : State), writebackBoth s = .ok r ∧ u.haltCheck = .ok t ∧ u.regs = r.regs ∧
      u.committed = r.committed ∧ u.run = .running ∧ u.cfg = s.cfg := by
  rcases pipelined_next hr he h with ⟨hl, r, y, mem, x, hw, -, -, hh⟩ | ⟨hl, r, y, mem, x, hw, -, -, hh⟩
  · exact ⟨r, _, writebackBoth_of_bubble (hone hl) hw, hh, rfl, rfl, hr, rfl⟩
  · exact ⟨r, _, hw, hh, rfl, rfl, hr, rfl⟩

theorem atEnd_iff {cfg : RunConfig} {w : MemWb} : w.atEnd cfg = true ↔ w.empty = false ∧ w.pc = cfg.endPC := by
  simp [MemWb.atEnd]

/-- Settles O37: Writeback of both lanes, and, when the halt check finds the instruction at `END_PC` in lane 2, once
more of the lane 1 beside it. -/
theorem registersAfterCycle : Obligations.RegistersAfterCycle := by
  intro s t hrun hengine hone hstep drains n x
  obtain ⟨r, u, hw, hh, hregs, hcommitted, hrunning, hcfg⟩ := pipelined_retires hrun hengine hone hstep
  obtain ⟨hx, hn⟩ := writebackBoth_effect hw
  rw [← hregs] at hx
  replace hn : u.committed = n := hcommitted.trans hn
  rcases haltCheck_ok hh with ⟨h1, rfl⟩ | ⟨-, -, rfl⟩ | ⟨h1, -, -, d, hd, rfl⟩
  · refine ⟨fun _ => ⟨hx, hn⟩, fun hdrains => absurd ?_ hdrains.2⟩
    rw [← hcfg]; exact atEnd_iff.1 h1
  · refine ⟨fun _ => ⟨hx, hn⟩, fun hdrains => ?_⟩
    rw [hdrains.1] at hrunning; cases hrunning
  · have hdrains : drains := ⟨rfl, fun h => by rw [← hcfg] at h; rw [atEnd_iff.2 h] at h1; cases h1⟩
    obtain ⟨-, -, hc⟩ := writebackLane_ok hd
    refine ⟨fun h => absurd hdrains h, fun _ => ⟨fun q => ?_, ?_⟩⟩
    · exact (writebackLane_read hd q).trans (by rw [hx q])
    · show d.committed = n + if u.memwb.lane1.empty then 0 else 1
      rw [hc, ← hn]
      split <;> rfl

end Sys2Proof.Machine

namespace Sys2Proof.Machine

/-! ### The operands an instruction consumes decide what Execute makes of it (R228, R251) -/

section Operands
variable {e : IdEx} {a b a' b' : Word}

/-- The ALU's outputs rest on consumed operands alone, jumps and LUI aside, which pass nothing on from it. -/
theorem aluOutput_congr (hu : e.actl.unsupported = false) (hj : e.ctrl.jump = false) (hl : e.ctrl.lui = false)
    (ha : e.usesRs = true → a = a') (hb : e.usesRt = true → b = b') : aluOutput e a b = aluOutput e a' b' := by
  have h1 : aluOperand1 e a = aluOperand1 e a' := by
    cases hs : e.actl.shift with
    | true => simp [aluOperand1, hs]
    | false => rw [ha (by simp [IdEx.usesRs, hu, hj, hl, hs])]
  have h2 : aluOperand2 e b = aluOperand2 e b' := by
    cases hs : e.ctrl.aluSrc with
    | true => simp [aluOperand2, hs]
    | false => rw [hb (by simp [IdEx.usesRt, hu, hj, hs])]
  rw [aluOutput, aluOutput, h1, h2]

theorem executeResult_congr (hu : e.actl.unsupported = false) (ha : e.usesRs = true → a = a')
    (hb : e.usesRt = true → b = b') : executeResult e a b = executeResult e a' b' := by
  unfold executeResult
  cases hj : e.ctrl.jump with
  | true => rfl
  | false =>
    cases hl : e.ctrl.lui with
    | true => rfl
    | false => rw [aluOutput_congr hu hj hl ha hb]

/-- A branch compares through the ALU, and a JR takes its register unshifted: both consume what they use. -/
structure TransfersBySources (c : Ctrl) (a : AluControl) : Prop where
  branch  : c.branch = true → c.jump = false ∧ c.lui = false
  jumpReg : a.jumpReg = true → c.lui = false ∧ a.shift = false

theorem executeRedirect_congr (hu : e.actl.unsupported = false) (ht : TransfersBySources e.ctrl e.actl)
    (ha : e.usesRs = true → a = a') (hb : e.usesRt = true → b = b') :
    executeRedirect e a b = executeRedirect e a' b' := by
  unfold executeRedirect
  cases hbr : e.ctrl.branch with
  | true =>
    obtain ⟨hj, hl⟩ := ht.branch hbr
    rw [resolvedTaken, resolvedTaken, aluOutput_congr hu hj hl ha hb]; rfl
  | false =>
    cases hj : e.ctrl.jump with
    | true => rfl
    | false =>
      cases hr : e.actl.jumpReg with
      | false => rfl
      | true =>
        obtain ⟨hl, hs⟩ := ht.jumpReg hr
        rw [ha (by simp [IdEx.usesRs, hu, hj, hl, hs])]; rfl

end Operands

theorem decodeUnit_transfers : ∀ o : BitVec 6, let c := decodeUnit o
    (c.branch = true → c.jump = false ∧ c.lui = false) ∧ (c.aluOp = 0b10#2 → c.lui = false) := by decide

/-- The row of JR in R103's table is no shift. -/
theorem functControl_jumpReg {f : BitVec 6} (h : (functControl f).jumpReg = true) : (functControl f).shift = false := by
  unfold functControl at h ⊢
  split at h
  case h_4 => rfl
  all_goals cases h

theorem transfersBySources {w : Word} (hu : (wordActl w).unsupported = false) :
    TransfersBySources (wordCtrl w) (wordActl w) := by
  have hc : wordCtrl w = decodeUnit (opcodeOf w) := by simp [wordCtrl, hu]
  obtain ⟨hbranch, hfunct⟩ := decodeUnit_transfers (opcodeOf w)
  refine ⟨by rw [hc]; exact hbranch, fun hr => ?_⟩
  have hop := aluControlRow_jumpReg (f := functOf w) (o := opcodeOf w) hr
  refine ⟨by rw [hc]; exact hfunct hop, ?_⟩
  simp only [wordActl, computeControl, hop] at hr ⊢
  exact functControl_jumpReg hr

/-! ### A redirect under a predicted direction (R284, R289) -/

/-- What Fetch had latched of the instruction in `IDEX`. -/
def IdEx.fetched (e : IdEx) : IfId where
  empty := e.empty
  instr := e.instr
  pc    := e.pc
  pred  := e.pred

/-- Whatever was predicted, the instruction continues where it would unpredicted: a right prediction has already sent
the fetch there, a wrong one redirects there. -/
theorem executeRedirect_of_pred {e : IdEx} {a b : Word} {r0 : Option Word} (hpred : e.pred = true → e.ctrl.branch = true)
    (himm : e.imm = sextImm (immOf e.instr)) (h : executeRedirect { e with pred := false } a b = .ok r0) :
    ∃ r, executeRedirect e a b = .ok r ∧ r.getD (nextFetch e.fetched) = r0.getD (nextPc e.pc) := by
  cases hb : e.ctrl.branch with
  | false =>
    have hp : e.pred = false := by
      cases hp : e.pred with
      | false => rfl
      | true => rw [hpred hp] at hb; cases hb
    have he : { e with pred := false } = e := by rw [← hp]
    rw [he] at h
    exact ⟨r0, h, by simp [nextFetch, IdEx.fetched, hp]⟩
  | true =>
    have hres : resolvedTaken { e with pred := false } a b = resolvedTaken e a b := rfl
    simp only [executeRedirect, hb, if_true, hres, Except.ok.injEq] at h ⊢
    refine ⟨_, rfl, ?_⟩
    rw [← h]
    cases hp : e.pred <;> cases resolvedTaken e a b <;> simp [nextFetch, IdEx.fetched, hp, branchTarget, himm]

/-! ### One instruction of a run, in the latches -/

/-- The word `w` taken alone through the stages from `s` leaves the registers, the memory and the next pc of `t`, and
nothing of it faults (R225 to R232, R290); `MemWord` and the checks are those of `cfg`. -/
structure Performs (cfg : RunConfig) (s : State) (w : Word) (t : State) : Prop where
  supported : (wordActl w).unsupported = false
  stages    : ∃ r d, s.aloneRedirect w = .ok r ∧ loadStage cfg s.mem (s.aloneExMem w) = .ok d ∧
    storeStage cfg s.mem (s.aloneExMem w) = .ok t.mem ∧ s.aloneRegs w d = t.regs ∧ r.getD (nextPc s.pc) = t.pc

/-- An instruction whose rule completes performs it in the stages (`agrees_exec`). -/
theorem performs_of_exec {s t : State} {w : Word} {i : Instr} (hi : decodeWord w = .ok i)
    (hpc : wordIndex s.pc < s.cfg.memWords) (h : exec i s = .next t) : Performs s.cfg s w t := by
  have hstep := agrees_exec hi hpc
  rw [h] at hstep
  have hstep : datapathStep s w = .ok { t with committed := s.committed + 1 } := hstep
  rw [datapathStep_eq hi hpc] at hstep
  refine ⟨wordActl_of_ok hi, ?_⟩
  cases hr : s.aloneRedirect w with
  | error f => rw [hr] at hstep; cases hstep
  | ok r =>
    cases hd : loadStage s.cfg s.mem (s.aloneExMem w) with
    | error f => rw [hr, hd] at hstep; cases hstep
    | ok d =>
      cases hm : storeStage s.cfg s.mem (s.aloneExMem w) with
      | error f => rw [hr, hd, hm] at hstep; cases hstep
      | ok mem =>
        rw [hr, hd, hm] at hstep
        have heq := Except.ok.inj hstep
        simp only [State.mk.injEq] at heq
        obtain ⟨hregs, hpc', hmem, -⟩ := heq
        exact ⟨r, d, rfl, rfl, by rw [hmem], hregs, hpc'⟩

/-- A NOP performs its rule wherever it is fetched from: it only advances (R90, R121). -/
theorem performs_nop (cfg : RunConfig) (s : State) : Performs cfg s 0#32 s.advance where
  supported := rfl
  stages := by
    have hc := wordCtrl_nop
    have ha := wordActl_nop
    have hdest : destOf 0#32 (wordCtrl 0#32) = 0#5 := by decide
    have hregs := aloneRegs_of_writes (s := s) (w := 0#32) (by rw [hc]; rfl) (by rw [ha]; rfl) 0#32
    rw [hdest, RegFile.write_zero] at hregs
    exact ⟨none, 0#32, aloneRedirect_none (by rw [hc]; rfl) (by rw [hc]; rfl) (by rw [ha]; rfl),
      loadStage_of_not_load cfg s.mem (by rw [State.aloneExMem_ctrl, hc]; rfl),
      storeStage_of_not_store cfg s.mem (by rw [State.aloneExMem_ctrl, hc]; rfl), hregs, rfl⟩

/-- The registers after the Writeback of a latch (R230). -/
def MemWb.retire (w : MemWb) (regs : RegFile) : RegFile :=
  if w.writesReg then regs.write w.dest w.wbValue else regs

/-- The latch in `MEMWB` holds the instruction that takes `s` to `t`: its Writeback makes the registers of `t`. -/
structure MemWb.Completes (w : MemWb) (s t : State) : Prop where
  pc   : w.pc = s.pc
  regs : w.retire s.regs = t.regs

/-- The latch in `EXMEM` holds the instruction that takes `s` to `t`: its Memory stage makes the memory of `t` and a
latch that completes it. -/
structure ExMem.Completes (cfg : RunConfig) (m : ExMem) (s t : State) : Prop where
  pc     : m.pc = s.pc
  memory : ∃ y, memoryLane cfg s.mem m = .ok (y, t.mem) ∧ y.Completes s t

/-- A consistent latch in `IDEX` is that of its word alone but for the prediction and the operands as Decode read
them. -/
theorem IdEx.Consistent.eq_alone {cfg : RunConfig} {e : IdEx} {s : State} (h : e.Consistent cfg)
    (he : e.empty = false) (hpc : e.pc = s.pc) :
    e = { s.alone e.instr with pred := e.pred, rsVal := e.rsVal, rtVal := e.rtVal } := by
  obtain ⟨hctrl, hactl, hdest, hrs, hrt, himm⟩ := h.2.1 he
  cases e
  simp only at he hctrl hactl hdest hrs hrt himm hpc
  subst he hctrl hactl hdest hrs hrt himm hpc
  rfl

/-- Only a branch is predicted taken (R283). -/
theorem IdEx.Consistent.branch_of_pred {cfg : RunConfig} {e : IdEx} (h : e.Consistent cfg) (he : e.empty = false)
    (hu : (wordActl e.instr).unsupported = false) (hp : e.pred = true) : e.ctrl.branch = true := by
  have hbr : isBranch e.instr = true := (h.2.2 hp).2
  rw [(h.2.1 he).1, wordCtrl, hu]
  simp only [isBranch, Bool.or_eq_true, beq_iff_eq] at hbr
  rcases hbr with ho | ho <;> rw [ho] <;> rfl

/-- The data operand matters to the Memory stage of a store only. -/
theorem storeStage_congr (cfg : RunConfig) (mem : Memory) {m : ExMem} {b : Word}
    (h : m.ctrl.memWrite = true → b = m.storeData) :
    storeStage cfg mem { m with storeData := b } = storeStage cfg mem m := by
  cases hw : m.ctrl.memWrite with
  | true => rw [h hw]
  | false => rw [storeStage_of_not_store cfg mem hw, storeStage_of_not_store cfg mem (m := { m with storeData := b }) hw]

/-- Execute on the right values of the registers consumed: it completes, its latch completes the instruction, and the
fetch goes on at the instruction's next pc, redirected or not. -/
theorem executeLane_performs {cfg : RunConfig} (p : Predictor) {e : IdEx} {a b : Word} {s t : State}
    (hp : Performs cfg s e.instr t) (hc : e.Consistent cfg) (he : e.empty = false) (hpc : e.pc = s.pc)
    (ha : e.usesRs = true → a = s.reg e.rs) (hb : e.usesRt = true → b = s.reg e.rt) :
    ∃ x, executeLane cfg p e a b = .ok x ∧ x.latch.Completes cfg s t ∧
      x.redirect.getD (nextFetch e.fetched) = t.pc := by
  obtain ⟨hctrl, hactl, -, hrs, hrt, himm⟩ := hc.2.1 he
  obtain ⟨r0, d, hr0, hd, hm, hregs, htpc⟩ := hp.stages
  have hu : e.actl.unsupported = false := by rw [hactl]; exact hp.supported
  have heq := hc.eq_alone he hpc
  rw [hrs] at ha
  rw [hrt] at hb
  have hresult : executeResult e a b = s.aloneResult e.instr := by
    rw [executeResult_congr hu ha hb, heq]; rfl
  have hredirect : executeRedirect { e with pred := false } a b = .ok r0 := by
    have ht : TransfersBySources e.ctrl e.actl := by rw [hctrl, hactl]; exact transfersBySources hp.supported
    rw [executeRedirect_congr (e := { e with pred := false }) hu ht ha hb, ← hr0]
    rw [heq]; rfl
  obtain ⟨r, hr, hnext⟩ := executeRedirect_of_pred (hc.branch_of_pred he hp.supported) himm hredirect
  have hlatch : e.toExMem a b = { s.aloneExMem e.instr with storeData := b } := by
    rw [IdEx.toExMem, hresult, heq]; rfl
  have hstore : storeStage cfg s.mem { s.aloneExMem e.instr with storeData := b } = .ok t.mem := by
    rw [storeStage_congr, hm]
    intro hw
    have hw : (wordCtrl e.instr).memWrite = true := hw
    exact hb (by simp [IdEx.usesRt, hu, hctrl, hw])
  refine ⟨_, executeLane_of_redirect p he hr, ⟨hpc, _, ?_, rfl, hregs⟩, by rw [hnext, hpc, htpc]⟩
  rw [hlatch]
  exact memoryLane_of_ok rfl hp.supported hd hstore

end Sys2Proof.Machine

namespace Sys2Proof.Machine

/-! ### The forwarded operands (R266, R267, R271, R272) -/

theorem MemWb.dest_ne_zero {w : MemWb} (h : w.writesReg = true) : w.dest ≠ 0#5 := by
  simp [MemWb.writesReg, writesRegFields] at h
  exact h.2

theorem MemWb.read_retire (w : MemWb) (regs : RegFile) (q : Reg) :
    (w.retire regs).read q = if w.writesTo q then w.wbValue else regs.read q := by
  unfold MemWb.retire MemWb.writesTo
  cases hw : w.writesReg with
  | false => simp
  | true =>
    by_cases hq : w.dest = q
    · subst hq; simp [RegFile.read_write_same, MemWb.dest_ne_zero hw]
    · simp [RegFile.read_write_ne regs (Ne.symm hq), hq]

theorem settledRegs_eq (r : Retired) (y : Lanes MemWb) : settledRegs r y = y.lane2.retire (y.lane1.retire r.regs) := rfl

/-- The network as one chain over both lanes: where `LANES` = 1 lane 2 holds bubbles, which forward nothing. -/
theorem forward_eq {lanes : LaneCount} {exmem : Lanes ExMem} {memwb : Lanes MemWb}
    (hone : lanes = .one → exmem.lane2 = ExMem.bubble ∧ memwb.lane2 = MemWb.bubble) (q : Reg) (v : Word) :
    forward lanes exmem memwb q v =
      if exmem.lane2.forwards q then exmem.lane2.aluResult
      else if exmem.lane1.forwards q then exmem.lane1.aluResult
      else if memwb.lane2.forwards q then memwb.lane2.wbValue
      else if memwb.lane1.forwards q then memwb.lane1.wbValue
      else v := by
  cases lanes with
  | two => rfl
  | one =>
    obtain ⟨hx, hw⟩ := hone rfl
    have hxq : ExMem.bubble.forwards q = false := rfl
    have hwq : MemWb.bubble.forwards q = false := rfl
    simp [forward, hx, hw, hxq, hwq]

/-- No jump aside, a latch of `MEMWB` is a producer of what it writes. -/
theorem MemWb.forwards_of_noJump {w : MemWb} (h : w.NoJump) (q : Reg) : w.forwards q = w.writesTo q := by
  rcases h with he | hj
  · simp [MemWb.forwards, MemWb.writesTo, MemWb.writesReg, writesRegFields, he]
  · simp [MemWb.forwards, MemWb.writesTo, hj]

theorem ExMem.toMemWb_writesTo {m : ExMem} (he : m.empty = false) (d : Word) (q : Reg) :
    (m.toMemWb d).writesTo q = (m.writesReg && m.dest == q) := by
  rw [ExMem.writesReg, he]; rfl

/-- No jump and no load of `q` aside, a latch of `EXMEM` is a producer of what it will write, with the value it will
write. -/
theorem ExMem.forwards_of_moved {m : ExMem} {y : MemWb} {q : Reg} (hm : MemMoved m y) (hc : m.Consistent)
    (hj : m.NoJump) (hload : m.empty = false → m.ctrl.memRead = true → m.ctrl.regWrite = true → m.dest ≠ q) :
    m.forwards q = y.writesTo q ∧ (y.writesTo q = true → m.aluResult = y.wbValue) := by
  rcases hm with ⟨he, rfl⟩ | ⟨he, d, -, rfl⟩
  · have hno : m.forwards q = false := by simp [ExMem.forwards, ExMem.writesReg, writesRegFields, he]
    exact ⟨hno, nofun⟩
  · have hj : m.ctrl.jump = false := hj.resolve_left (by simp [he])
    rw [ExMem.toMemWb_writesTo he]
    cases hr : m.ctrl.memRead with
    | false =>
      refine ⟨by simp [ExMem.forwards, hr, hj], fun _ => ?_⟩
      have hto : m.ctrl.memToReg = false := by
        rw [(hc.2 he).1] at hr ⊢
        rw [(wordCtrl_exclusive m.instr).2.2, hr]
      simp [MemWb.wbValue, ExMem.toMemWb, hto]
    | true =>
      have hno : (m.writesReg && m.dest == q) = false := by
        cases hwr : m.ctrl.regWrite with
        | false => simp [ExMem.writesReg, writesRegFields, hwr]
        | true => simp [hload he hr hwr]
      rw [hno]
      exact ⟨by simp [ExMem.forwards, hr], nofun⟩

section Forwarded
variable {s : State} {r : Retired} {y : Lanes MemWb} {mem : Memory}
  (hone : s.cfg.lanes = .one → s.exmem.lane2 = ExMem.bubble ∧ s.memwb.lane2 = MemWb.bubble) (hinv : s.PipelineInv)
  (hw : writebackBoth s = .ok r) (hm : memoryBoth s = .ok (y, mem))
include hone hinv hw hm

/-- What the network gives for a register that an instruction in `IDEX` reads is its value once the older instructions
have retired: each producer is the latch that will write it. -/
theorem forward_eq_settledRegs {e : IdEx} (he : e = s.idex.lane1 ∨ e = s.idex.lane2) {q : Reg}
    (hq : e.readsReg q = true) : forward s.cfg.lanes s.exmem s.memwb q (s.reg q) = (settledRegs r y).read q := by
  obtain ⟨⟨-, -, hcx, -⟩, ⟨hjx, hjw⟩, ⟨hspaced, -⟩, -⟩ := hinv
  have hfull : e.empty = false := ((readsReg_iff e q).1 hq).1
  have hidex : ¬ s.idex.Both (fun l => l.empty = true) := by
    rintro ⟨h1, h2⟩
    rcases he with rfl | rfl
    · rw [h1] at hfull; cases hfull
    · rw [h2] at hfull; cases hfull
  have hnox : s.exmem.Both ExMem.NoJump := by_contra fun h => hidex (hjx h).2
  have hnow : s.memwb.Both MemWb.NoJump := by_contra fun h => hidex (hjw h)
  have hload : s.exmem.Both
      (fun m => m.empty = false → m.ctrl.memRead = true → m.ctrl.regWrite = true → m.dest ≠ q) := by
    have hs : s.exmem.Both (Spaced e) := by
      rcases he with rfl | rfl
      · exact hspaced.1
      · exact hspaced.2
    constructor
    · rintro h1 h2 h3 rfl; rw [hs.1 h1 h2 h3] at hq; cases hq
    · rintro h1 h2 h3 rfl; rw [hs.2 h1 h2 h3] at hq; cases hq
  obtain ⟨mem1, hm1, hm2⟩ := memoryBoth_ok hm
  obtain ⟨hx1, hv1⟩ := ExMem.forwards_of_moved (memMoved_of_ok hm1) hcx.1 hnox.1 hload.1
  obtain ⟨hx2, hv2⟩ := ExMem.forwards_of_moved (memMoved_of_ok hm2) hcx.2 hnox.2 hload.2
  rw [forward_eq hone, settledRegs_eq, MemWb.read_retire, MemWb.read_retire, (writebackBoth_effect hw).1 q, hx1, hx2,
    MemWb.forwards_of_noJump hnow.1, MemWb.forwards_of_noJump hnow.2]
  cases h2 : y.lane2.writesTo q with
  | true => simp [hv2 h2]
  | false =>
    cases h1 : y.lane1.writesTo q with
    | true => simp [hv1 h1]
    | false => rfl

/-- The operands Execute works on hold, where they are consumed, the settled registers (R251, R267, R271). -/
theorem operands_settled (hr : s.run = .running) (hp : s.cfg.engine = .pipelined) {e : IdEx}
    (he : e = s.idex.lane1 ∨ e = s.idex.lane2) (hfull : e.empty = false) :
    (e.usesRs = true → forward s.cfg.lanes s.exmem s.memwb e.rs e.rsVal = (settledRegs r y).read e.rs) ∧
    (e.usesRt = true → forward s.cfg.lanes s.exmem s.memwb e.rt e.rtVal = (settledRegs r y).read e.rt) := by
  have hcurrent : e.rsVal = s.reg e.rs ∧ e.rtVal = s.reg e.rt := by
    have h := hinv.current hr hp
    rcases he with rfl | rfl
    · exact h.1 hfull
    · exact h.2 hfull
  rw [hcurrent.1, hcurrent.2]
  have hread {q : Reg} (hq : q ≠ 0#5 → e.readsReg q = true) :
      forward s.cfg.lanes s.exmem s.memwb q (s.reg q) = (settledRegs r y).read q := by
    by_cases h0 : q = 0#5
    · subst h0; exact forward_zero _ _ _ _
    · exact forward_eq_settledRegs hone hinv hw hm he (hq h0)
  exact ⟨fun hu => hread fun h0 => (readsReg_iff e _).2 ⟨hfull, h0, .inl ⟨hu, rfl⟩⟩,
    fun hu => hread fun h0 => (readsReg_iff e _).2 ⟨hfull, h0, .inr ⟨hu, rfl⟩⟩⟩

end Forwarded

end Sys2Proof.Machine

namespace Sys2Proof.Machine

/-! ### A run of the rules, and the latches along it -/

/-- The word at the pc of a state. -/
def State.word (cfg : RunConfig) (s : State) : Word := fetchWord cfg s.mem s.pc

/-- The states `σ 0`, `σ 1`, … that the instructions of a run make, one after another: `n` of them up to `END_PC`, and
the NOPs there (R360). A word is the same in memory from `3 * LANES - 1` instructions before it is executed. -/
structure Trace (cfg : RunConfig) (n : Nat) (σ : Nat → State) : Prop where
  performs : ∀ j < n + 2 * cfg.lanes.toNat, Performs cfg (σ j) ((σ j).word cfg) (σ (j + 1))
  inRange  : ∀ j < n, wordIndex (σ j).pc < cfg.memWords
  beforeEnd : ∀ j < n, (σ j).pc ≠ cfg.endPC
  atEnd    : (σ n).pc = cfg.endPC
  pastEnd  : ∀ k ≤ 2 * cfg.lanes.toNat, (σ (n + k)).regs = (σ n).regs ∧ (σ (n + k)).mem = (σ n).mem
  fetched  : ∀ i j, i ≤ n → i ≤ j → j < n + 2 * cfg.lanes.toNat → j ≤ i + (3 * cfg.lanes.toNat - 1) →
    fetchWord cfg (σ i).mem (σ j).pc = (σ j).word cfg

/-- The index of the instruction behind the latch, if the latch stands at index `j`: a bubble is no instruction. -/
def behind (empty : Bool) (j : Nat) : Nat := if empty then j else j + 1

@[simp] theorem behind_true (j : Nat) : behind true j = j := rfl
@[simp] theorem behind_false (j : Nat) : behind false j = j + 1 := rfl

theorem behind_bounds (empty : Bool) (j : Nat) : j ≤ behind empty j ∧ behind empty j ≤ j + 1 := by
  cases empty <;> simp

section Along
variable {cfg : RunConfig} {n : Nat} {σ : Nat → State} {j : Nat}

/-- A latch of `MEMWB` is empty or holds instruction `j` of the run. -/
def MemWb.At (σ : Nat → State) (j : Nat) (w : MemWb) : Prop := w.empty = false → w.Completes (σ j) (σ (j + 1))

/-- A latch of `EXMEM` is empty or holds instruction `j` of the run. -/
def ExMem.At (cfg : RunConfig) (σ : Nat → State) (j : Nat) (m : ExMem) : Prop :=
  m.empty = false → m.Completes cfg (σ j) (σ (j + 1))

/-- The retirement of the first `j` instructions of the run. -/
def retiredAt (σ : Nat → State) (j : Nat) : Retired := ⟨(σ j).regs, j⟩

theorem MemWb.At.retire {w : MemWb} (h : w.At σ j) : w.retire (σ j).regs = (σ (behind w.empty j)).regs := by
  cases he : w.empty with
  | false => exact (h he).regs
  | true => simp [MemWb.retire, MemWb.writesReg, writesRegFields, he]

/-- Writeback of instruction `j` retires it. -/
theorem MemWb.At.writeback (htr : Trace cfg n σ) {w : MemWb} (h : w.At σ j) (hj : behind w.empty j ≤ n) :
    writebackLane cfg (retiredAt σ j) w = .ok (retiredAt σ (behind w.empty j)) := by
  have hrange : w.empty = true ∨ wordIndex w.pc < cfg.memWords := by
    cases he : w.empty with
    | true => exact .inl rfl
    | false => rw [(h he).pc]; rw [he] at hj; exact .inr (htr.inRange j hj)
  rw [writebackLane_of_inRange _ hrange]
  exact congrArg Except.ok (congrArg₂ Retired.mk h.retire rfl)

/-- Memory of instruction `j` makes its memory, and a latch that holds it. -/
theorem ExMem.At.memory {m : ExMem} (h : m.At cfg σ j) : ∃ y, memoryLane cfg (σ j).mem m =
    .ok (y, (σ (behind m.empty j)).mem) ∧ y.At σ j ∧ y.empty = m.empty := by
  cases he : m.empty with
  | true => exact ⟨MemWb.bubble, by simp [memoryLane, he], nofun, rfl⟩
  | false =>
    obtain ⟨-, y, hy, hc⟩ := h he
    rcases memoryLane_ok hy with ⟨he', -⟩ | ⟨-, -, d, -, -, rfl⟩
    · rw [he] at he'; cases he'
    · exact ⟨_, hy, fun _ => hc, rfl⟩

/-- The words fetched and not yet executed lie on the run from instruction `j` on, the fetch going on at `pc`, up to the
first that does not send the fetch where its rule goes: that one will redirect, and what is behind it does not matter.
Nor does what lies past the NOPs at `END_PC`. -/
def Path (cfg : RunConfig) (n : Nat) (σ : Nat → State) : Nat → List IfId → Word → Prop
  | j, [], pc      => j < n + 2 * cfg.lanes.toNat → pc = (σ j).pc
  | j, l :: ls, pc =>
    if l.empty then Path cfg n σ j ls pc
    else j < n + 2 * cfg.lanes.toNat → l.pc = (σ j).pc ∧ l.instr = (σ j).word cfg ∧
      (nextFetch l = (σ (j + 1)).pc → Path cfg n σ (j + 1) ls pc)

theorem path_cons_of_empty {l : IfId} (h : l.empty = true) {ls : List IfId} {pc : Word} :
    Path cfg n σ j (l :: ls) pc ↔ Path cfg n σ j ls pc := by
  rw [Path, if_pos h]

theorem path_cons_of_full {l : IfId} (h : l.empty = false) {ls : List IfId} {pc : Word} :
    Path cfg n σ j (l :: ls) pc ↔ (j < n + 2 * cfg.lanes.toNat → l.pc = (σ j).pc ∧ l.instr = (σ j).word cfg ∧
      (nextFetch l = (σ (j + 1)).pc → Path cfg n σ (j + 1) ls pc)) := by
  rw [Path, h]; rfl

@[simp] theorem path_bubble {ls : List IfId} {pc : Word} :
    Path cfg n σ j (IfId.bubble :: ls) pc ↔ Path cfg n σ j ls pc := path_cons_of_empty rfl

/-- A fetch from a memory that holds the words ahead as the run will find them prolongs the path (R220). -/
theorem Path.fetch {mem : Memory} (p : Predictor) {ls : List IfId} {pc : Word} (h : Path cfg n σ j ls pc)
    (hmem : ∀ k, j ≤ k → k < n + 2 * cfg.lanes.toNat → k ≤ j + ls.length →
      fetchWord cfg mem (σ k).pc = (σ k).word cfg) :
    Path cfg n σ j (ls ++ [fetchLatch cfg mem p pc]) (nextFetch (fetchLatch cfg mem p pc)) := by
  induction ls generalizing j with
  | nil =>
    refine (path_cons_of_full rfl).2 fun hj => ⟨h hj, ?_, fun hnext _ => hnext⟩
    show fetchWord cfg mem pc = _
    rw [h hj]; exact hmem j (Nat.le_refl j) hj (Nat.le_add_right j _)
  | cons l ls ih =>
    rw [List.cons_append]
    cases he : l.empty with
    | true =>
      rw [path_cons_of_empty he] at h ⊢
      exact ih h fun k hk hn hl => hmem k hk hn (by rw [List.length_cons]; omega)
    | false =>
      rw [path_cons_of_full he] at h ⊢
      intro hj
      obtain ⟨hpc, hinstr, hrest⟩ := h hj
      exact ⟨hpc, hinstr, fun hnext => ih (hrest hnext)
        fun k hk hn hl => hmem k (by omega) hn (by rw [List.length_cons]; omega)⟩

end Along

/-! ### Both engines as one cycle (R212, R311) -/

/-- What one lane makes of Execute of both. -/
def ExecutedBoth.first (x : ExecutedBoth) : Executed := ⟨x.latches.lane1, x.redirect, x.predictor⟩

/-- The front end at the start of the next cycle, of the engine that the lane count selects. -/
def nextFront (s : State) (regs : RegFile) (mem : Memory) (x : ExecutedBoth) : FrontEnd :=
  match s.cfg.lanes with
  | .one => scalarFront s regs mem x.first
  | .two => dualFront s regs mem x.redirect x.predictor

/-- The state after the latch update of either engine. -/
def latchUpdate (s : State) (r : Retired) (y : Lanes MemWb) (mem : Memory) (x : ExecutedBoth) : State :=
  { s with
    regs      := r.regs
    committed := r.committed
    mem       := mem
    memwb     := y
    exmem     := x.latches
    idex      := (nextFront s r.regs mem x).idex
    ifid      := (nextFront s r.regs mem x).ifid
    pc        := (nextFront s r.regs mem x).pc
    predictor := x.predictor
    cycles    := s.cycles + 1 }

/-- With one lane, lane 2 of every latch is empty (R32). -/
def State.LaneTwoEmpty (s : State) : Prop := s.cfg.lanes = .one →
  s.ifid.lane2 = IfId.bubble ∧ s.idex.lane2 = IdEx.bubble ∧ s.exmem.lane2 = ExMem.bubble ∧ s.memwb.lane2 = MemWb.bubble

section OneCycle
variable {s : State} {r : Retired} {y : Lanes MemWb} {mem : Memory} {x : ExecutedBoth}

/-- Execute of both lanes with a bubble in lane 2 is Execute of lane 1. -/
theorem executeBoth_of_bubble (h2 : s.idex.lane2 = IdEx.bubble) (h : executeBoth s = .ok x) :
    s.executeOn s.predictor s.idex.lane1 = .ok x.first ∧ x.latches.lane2 = ExMem.bubble := by
  obtain ⟨x1, h1, ⟨target, ht, rfl⟩ | ⟨hn, x2, hx2, rfl⟩⟩ := executeBoth_ok h
  · exact ⟨by rw [h1, ExecutedBoth.first, ← ht], rfl⟩
  · rw [h2] at hx2
    obtain rfl := Except.ok.inj hx2
    exact ⟨by rw [h1, ExecutedBoth.first, ← hn], rfl⟩

/-- A cycle whose stages complete is the latch update and the halt check, whatever the lane count: the scalar engine is
the dual-issue one with bubbles in lane 2, but for its front end. -/
theorem cycle_of_stages (hlane : s.LaneTwoEmpty) (hw : writebackBoth s = .ok r) (hm : memoryBoth s = .ok (y, mem))
    (hx : executeBoth s = .ok x) : cycle s = (latchUpdate s r y mem x).haltCheck := by
  unfold cycle
  cases hl : s.cfg.lanes with
  | two =>
    have hu : latchUpdate s r y mem x = dualUpdate s r y mem x := by simp only [latchUpdate, nextFront, hl, dualUpdate]
    rw [hu]; exact cycleDual_of_ok hw hm hx
  | one =>
    obtain ⟨-, hidex, hexmem, hmemwb⟩ := hlane hl
    obtain ⟨r1, hw1, hw2⟩ := writebackBoth_ok hw
    rw [hmemwb, writebackLane_bubble] at hw2
    obtain rfl := Except.ok.inj hw2
    obtain ⟨mem1, hm1, hm2⟩ := memoryBoth_ok hm
    rw [hexmem, memoryLane_bubble] at hm2
    obtain ⟨hy2, rfl⟩ := Prod.mk.inj (Except.ok.inj hm2)
    obtain ⟨hx1, hx2⟩ := executeBoth_of_bubble hidex hx
    have hu : latchUpdate s r1 y mem1 x = scalarUpdate s r1 y.lane1 mem1 x.first := by
      simp only [latchUpdate, nextFront, hl, scalarUpdate, hy2, ← hx2]; rfl
    rw [hu]; exact cycleScalar_of_ok hw1 hm1 hx1

end OneCycle

end Sys2Proof.Machine

namespace Sys2Proof.Machine

/-! ### The stages of one cycle along a run -/

/-- The index of the next instruction to access memory, `MEMWB` holding those before it. -/
def State.memIndex (s : State) : Nat := behind s.memwb.lane2.empty (behind s.memwb.lane1.empty s.committed)

/-- The index of the next instruction to execute, `EXMEM` holding those before it. -/
def State.exIndex (s : State) : Nat := behind s.exmem.lane2.empty (behind s.exmem.lane1.empty s.memIndex)

/-- The running pipeline stands on the run: what has retired, what memory holds, and the instructions in flight, oldest
first, are the run's, one after another. -/
structure Tracks (cfg : RunConfig) (n : Nat) (σ : Nat → State) (s : State) : Prop where
  params   : s.cfg = cfg
  engine   : cfg.engine = .pipelined
  run      : s.run = .running
  inv      : s.PipelineInv
  laneTwo  : s.LaneTwoEmpty
  regs     : s.regs = (σ s.committed).regs
  memwb1   : s.memwb.lane1.At σ s.committed
  memwb2   : s.memwb.lane2.At σ (behind s.memwb.lane1.empty s.committed)
  mem      : s.mem = (σ s.memIndex).mem
  exmem1   : s.exmem.lane1.At cfg σ s.memIndex
  exmem2   : s.exmem.lane2.At cfg σ (behind s.exmem.lane1.empty s.memIndex)
  path     : Path cfg n σ s.exIndex
    [s.idex.lane1.fetched, s.idex.lane2.fetched, s.ifid.lane1, s.ifid.lane2] s.pc
  pending  : s.memIndex ≤ n

section Stages
variable {cfg : RunConfig} {n : Nat} {σ : Nat → State} {s : State} {j : Nat}

theorem laneCount_pos (lanes : LaneCount) : 1 ≤ lanes.toNat := by cases lanes <;> decide

/-- A stage moves at most `LANES` instructions. -/
theorem behind_le_lanes {lanes : LaneCount} {e1 e2 : Bool} (h : lanes = .one → e2 = true) (j : Nat) :
    behind e2 (behind e1 j) ≤ j + lanes.toNat := by
  have h1 := behind_bounds e1 j
  cases lanes with
  | one => rw [h rfl]; exact h1.2
  | two => have h2 := behind_bounds e2 (behind e1 j); show _ ≤ j + 2; omega

theorem Tracks.memIndex_le_exIndex (h : Tracks cfg n σ s) : s.memIndex ≤ s.exIndex ∧
    s.exIndex ≤ s.memIndex + cfg.lanes.toNat := by
  have h1 := behind_bounds s.exmem.lane1.empty s.memIndex
  have h2 := behind_bounds s.exmem.lane2.empty (behind s.exmem.lane1.empty s.memIndex)
  refine ⟨by unfold State.exIndex; omega, behind_le_lanes (fun hl => ?_) _⟩
  obtain ⟨-, -, hx, -⟩ := h.laneTwo (by rw [h.params, hl])
  rw [hx]; rfl

theorem Tracks.writeback (htr : Trace cfg n σ) (h : Tracks cfg n σ s) : writebackBoth s = .ok (retiredAt σ s.memIndex) := by
  have hle := behind_bounds s.memwb.lane2.empty (behind s.memwb.lane1.empty s.committed)
  have hn := h.pending
  have h1 := h.memwb1.writeback htr (Nat.le_trans hle.1 hn)
  have h2 := h.memwb2.writeback htr hn
  have hr : (⟨s.regs, s.committed⟩ : Retired) = retiredAt σ s.committed := by rw [h.regs]; rfl
  rw [writebackBoth, h.params, hr, h1]
  exact h2

theorem Tracks.memory (h : Tracks cfg n σ s) : ∃ y, memoryBoth s = .ok (y, (σ s.exIndex).mem) ∧
    y.lane1.At σ s.memIndex ∧ y.lane2.At σ (behind y.lane1.empty s.memIndex) ∧
    y.lane1.empty = s.exmem.lane1.empty ∧ y.lane2.empty = s.exmem.lane2.empty := by
  obtain ⟨y1, hm1, ha1, he1⟩ := h.exmem1.memory
  obtain ⟨y2, hm2, ha2, he2⟩ := h.exmem2.memory
  refine ⟨⟨y1, y2⟩, ?_, ha1, by rw [he1]; exact ha2, he1, he2⟩
  rw [memoryBoth, h.params, h.mem, hm1]
  simp only [hm2]; rfl

theorem settledRegs_of_at {y : Lanes MemWb} (h1 : y.lane1.At σ j) (h2 : y.lane2.At σ (behind y.lane1.empty j)) :
    settledRegs (retiredAt σ j) y = (σ (behind y.lane2.empty (behind y.lane1.empty j))).regs := by
  rw [settledRegs_eq, ← h2.retire, ← h1.retire]; rfl

/-- What Execute of one lane makes of the instruction the path starts with. -/
structure LaneExecuted (cfg : RunConfig) (n : Nat) (σ : Nat → State) (j : Nat) (e : IdEx) (ls : List IfId) (pc : Word)
    (x : Executed) : Prop where
  moved    : ExMoved e x.latch
  empty    : x.latch.empty = e.empty
  latch    : x.latch.At cfg σ j
  idle     : e.empty = true → x.redirect = none
  proceeds : x.redirect = none → Path cfg n σ (behind e.empty j) ls pc
  redirect : ∀ target, x.redirect = some target → target = (σ (behind e.empty j)).pc

/-- Execute of one lane on the right operands of instruction `j`. -/
theorem executeOn_along (htr : Trace cfg n σ) (hcfg : s.cfg = cfg) (p : Predictor) {e : IdEx} {ls : List IfId} {pc : Word}
    (hpath : Path cfg n σ j (e.fetched :: ls) pc) (hc : e.Consistent cfg)
    (hj : e.empty = false → j < n + 2 * cfg.lanes.toNat)
    (hops : e.empty = false →
      (e.usesRs = true → forward s.cfg.lanes s.exmem s.memwb e.rs e.rsVal = (σ j).reg e.rs) ∧
      (e.usesRt = true → forward s.cfg.lanes s.exmem s.memwb e.rt e.rtVal = (σ j).reg e.rt)) :
    ∃ x, s.executeOn p e = .ok x ∧ LaneExecuted cfg n σ j e ls pc x := by
  cases he : e.empty with
  | true =>
    rw [path_cons_of_empty (l := e.fetched) he] at hpath
    obtain rfl := hc.1 he
    exact ⟨_, executeLane_bubble s.cfg p _ _, .inl rfl, rfl, nofun, fun _ => rfl, fun _ => hpath, nofun⟩
  | false =>
    rw [path_cons_of_full (l := e.fetched) he] at hpath
    obtain ⟨hpc, hinstr, hrest⟩ := hpath (hj he)
    have hperf : Performs cfg (σ j) e.instr (σ (j + 1)) := by
      have := htr.performs j (hj he)
      rwa [← hinstr] at this
    obtain ⟨x, hx, hlatch, hnext⟩ := executeLane_performs p hperf hc he hpc (hops he).1 (hops he).2
    rw [← hcfg] at hx
    have hmoved : ExMoved e x.latch := exMoved_of_ok hx
    refine ⟨x, hx, hmoved, ?_, fun _ => hlatch, fun he' => ?_, fun hn => ?_, fun target ht => ?_⟩
    · rcases executeLane_ok hx with ⟨he', -⟩ | ⟨-, -, hl, -⟩
      · rw [he] at he'; cases he'
      · rw [hl, he]; rfl
    · rw [he] at he'; cases he'
    · rw [hn] at hnext
      rw [he]; exact hrest hnext
    · rw [ht] at hnext
      rw [he]; exact hnext

/-- A register that instruction `j` does not write is the same behind it. -/
theorem ExMem.At.read {m : ExMem} (h : m.At cfg σ j) {q : Reg} (hq : m.writesReg = true → m.dest ≠ q) :
    (σ (behind m.empty j)).regs.read q = (σ j).regs.read q := by
  cases he : m.empty with
  | true => rfl
  | false =>
    obtain ⟨-, y, hy, hc⟩ := h he
    rcases memoryLane_ok hy with ⟨he', -⟩ | ⟨-, -, d, -, -, rfl⟩
    · rw [he] at he'; cases he'
    · have hw : (m.writesReg && m.dest == q) = false := by
        cases hwr : m.writesReg with
        | false => rfl
        | true => simp [hq hwr]
      rw [behind_false, ← hc.regs, MemWb.read_retire, ExMem.toMemWb_writesTo he, hw]
      rfl

/-- What Execute made of an instruction writes the register the instruction names, or none. -/
theorem ExMoved.writesReg {e : IdEx} {m : ExMem} (h : ExMoved e m) (hw : m.writesReg = true) :
    e.writesReg = true ∧ m.dest = e.dest := by
  rcases h with rfl | ⟨he, a, b, rfl⟩
  · cases hw
  · exact ⟨by rw [IdEx.writesReg, he]; exact hw, rfl⟩

/-- What Execute of both lanes makes of the instructions in `IDEX`. -/
structure BothExecuted (cfg : RunConfig) (n : Nat) (σ : Nat → State) (s : State) (x : ExecutedBoth) : Prop where
  empty1   : x.latches.lane1.empty = s.idex.lane1.empty
  empty2   : s.idex.lane1.empty = true → x.latches.lane2.empty = s.idex.lane2.empty
  latch1   : x.latches.lane1.At cfg σ s.exIndex
  latch2   : x.latches.lane2.At cfg σ (behind x.latches.lane1.empty s.exIndex)
  idle     : s.idex.lane1.empty = true → s.idex.lane2.empty = true → x.redirect = none
  proceeds : x.redirect = none →
    Path cfg n σ (behind x.latches.lane2.empty (behind x.latches.lane1.empty s.exIndex)) [s.ifid.lane1, s.ifid.lane2] s.pc
  redirect : ∀ target, x.redirect = some target →
    target = (σ (behind x.latches.lane2.empty (behind x.latches.lane1.empty s.exIndex))).pc

theorem Tracks.execute (htr : Trace cfg n σ) (h : Tracks cfg n σ s) :
    ∃ x, executeBoth s = .ok x ∧ BothExecuted cfg n σ s x := by
  obtain ⟨y, hm, hy1, hy2, hye1, hye2⟩ := h.memory
  have hsettled : settledRegs (retiredAt σ s.memIndex) y = (σ s.exIndex).regs := by
    rw [settledRegs_of_at hy1 hy2, hye2, hye1]; rfl
  have hone (hl : s.cfg.lanes = .one) := (h.laneTwo hl).2.2
  have hpipe : s.cfg.engine = .pipelined := by rw [h.params, h.engine]
  have hops := @operands_settled s _ y _ hone h.inv (h.writeback htr) hm h.run hpipe
  rw [hsettled] at hops
  obtain ⟨-, hcd, -, -⟩ := h.inv.consistent
  rw [h.params] at hcd
  have hlanes := laneCount_pos cfg.lanes
  have hex := h.memIndex_le_exIndex.2
  have hpending := h.pending
  obtain ⟨x1, hx1, X1⟩ := executeOn_along htr h.params s.predictor h.path hcd.1 (fun _ => by omega)
    (fun hf => hops (.inl rfl) hf)
  cases hr : x1.redirect with
  | some target =>
    refine ⟨⟨⟨x1.latch, ExMem.bubble⟩, some target, x1.predictor⟩, ?_, X1.empty, fun he => ?_, X1.latch, nofun,
      fun he => ?_, nofun, fun target' ht => ?_⟩
    · rw [executeBoth, hx1]; simp only [hr]
    · rw [X1.idle he] at hr; cases hr
    · rw [X1.idle he] at hr; cases hr
    · obtain rfl := Option.some.inj ht
      show _ = (σ (behind x1.latch.empty s.exIndex)).pc
      rw [X1.empty]; exact X1.redirect _ hr
  | none =>
    have hpath2 := X1.proceeds hr
    rw [← X1.empty] at hpath2
    have hkept {q : Reg} (hq : q ≠ 0#5 → s.idex.lane2.readsReg q = true) :
        (σ s.exIndex).regs.read q = (σ (behind x1.latch.empty s.exIndex)).regs.read q := by
      by_cases h0 : q = 0#5
      · rw [h0, RegFile.read_zero, RegFile.read_zero]
      · refine (X1.latch.read fun hw => ?_).symm
        obtain ⟨hw1, hd⟩ := X1.moved.writesReg hw
        rintro rfl
        have hspaced := h.inv.spaced.2 hw1
        rw [← hd, hq h0] at hspaced; cases hspaced
    have hj2 (hf : s.idex.lane2.empty = false) : behind x1.latch.empty s.exIndex < n + 2 * cfg.lanes.toNat := by
      have hb := behind_bounds x1.latch.empty s.exIndex
      cases hl : cfg.lanes with
      | one =>
        obtain ⟨-, hd, -⟩ := h.laneTwo (by rw [h.params, hl])
        rw [hd] at hf; cases hf
      | two => rw [hl] at hex; show _ < n + 4; exact Nat.lt_of_le_of_lt hb.2 (by change _ ≤ _ + 2 at hex; omega)
    obtain ⟨x2, hx2, X2⟩ := executeOn_along htr h.params x1.predictor hpath2 hcd.2 hj2 fun hf =>
      ⟨fun hu => ((hops (.inr rfl) hf).1 hu).trans (hkept fun h0 => (readsReg_iff _ _).2 ⟨hf, h0, .inl ⟨hu, rfl⟩⟩),
       fun hu => ((hops (.inr rfl) hf).2 hu).trans (hkept fun h0 => (readsReg_iff _ _).2 ⟨hf, h0, .inr ⟨hu, rfl⟩⟩)⟩
    refine ⟨⟨⟨x1.latch, x2.latch⟩, x2.redirect, x2.predictor⟩, ?_, X1.empty, fun _ => X2.empty, X1.latch, X2.latch,
      fun _ => X2.idle, ?_, ?_⟩
    · rw [executeBoth, hx1]; simp only [hr, hx2]
    · show _ → Path cfg n σ (behind x2.latch.empty _) _ _
      rw [X2.empty]; exact X2.proceeds
    · show ∀ target, _ → target = (σ (behind x2.latch.empty _)).pc
      rw [X2.empty]; exact X2.redirect

end Stages

end Sys2Proof.Machine

namespace Sys2Proof.Machine

section Front
variable {cfg : RunConfig} {n : Nat} {σ : Nat → State} {s : State} {j : Nat}

/-- A bubble anywhere on a path is no instruction of it. -/
theorem path_append_bubble {ls ms : List IfId} {pc : Word} :
    Path cfg n σ j (ls ++ IfId.bubble :: ms) pc ↔ Path cfg n σ j (ls ++ ms) pc := by
  induction ls generalizing j with
  | nil => exact path_bubble
  | cons l ls ih =>
    rw [List.cons_append, List.cons_append]
    cases he : l.empty with
    | true => rw [path_cons_of_empty he, path_cons_of_empty he, ih]
    | false => rw [path_cons_of_full he, path_cons_of_full he, ih]

@[simp] theorem IdEx.fetched_bubble : IdEx.bubble.fetched = IfId.bubble := rfl

/-- Decode keeps what Fetch latched. -/
theorem decodeLane_fetched {l : IfId} (h : l.Consistent cfg) (regs : RegFile) : (decodeLane regs l).fetched = l := by
  cases he : l.empty with
  | true => rw [decodeLane_of_empty he, h.1 he]; rfl
  | false => rw [decodeLane_of_full he]; cases l; simp only at he; rw [he]; rfl

/-- The front end lies on the path from instruction `j` on. -/
def FrontEnd.Along (cfg : RunConfig) (n : Nat) (σ : Nat → State) (j : Nat) (f : FrontEnd) : Prop :=
  Path cfg n σ j [f.idex.lane1.fetched, f.idex.lane2.fetched, f.ifid.lane1, f.ifid.lane2] f.pc

theorem fetchBoth_of_pred {mem : Memory} {p : Predictor} {pc : Word} (h : (fetchLatch cfg mem p pc).pred = true) :
    fetchBoth cfg mem p pc = (⟨fetchLatch cfg mem p pc, IfId.bubble⟩, nextFetch (fetchLatch cfg mem p pc)) := by
  simp [fetchBoth, h]

theorem fetchBoth_of_not_pred {mem : Memory} {p : Predictor} {pc : Word} (h : (fetchLatch cfg mem p pc).pred = false) :
    fetchBoth cfg mem p pc = (⟨fetchLatch cfg mem p pc, fetchLatch cfg mem p (nextPc pc)⟩,
      nextFetch (fetchLatch cfg mem p (nextPc pc))) := by
  simp [fetchBoth, h]

/-- Fetch of both lanes prolongs the path by the one or two words it latches (R312). -/
theorem fetchBoth_path {mem : Memory} (p : Predictor) {l1 l2 : IfId} {pc : Word} (h : Path cfg n σ j [l1, l2] pc)
    (hmem : ∀ k, j ≤ k → k < n + 2 * cfg.lanes.toNat → k ≤ j + 3 → fetchWord cfg mem (σ k).pc = (σ k).word cfg) :
    Path cfg n σ j [l1, l2, (fetchBoth cfg mem p pc).1.lane1, (fetchBoth cfg mem p pc).1.lane2]
      (fetchBoth cfg mem p pc).2 := by
  have h1 := h.fetch p fun k hk hn hl => hmem k hk hn (Nat.le_succ_of_le hl)
  cases hp : (fetchLatch cfg mem p pc).pred with
  | true =>
    rw [fetchBoth_of_pred hp]
    exact (path_append_bubble (ls := [l1, l2, _]) (ms := [])).2 h1
  | false =>
    have hnext : nextFetch (fetchLatch cfg mem p pc) = nextPc pc := by rw [nextFetch, hp]; rfl
    rw [hnext] at h1
    rw [fetchBoth_of_not_pred hp]
    exact h1.fetch p hmem

/-- The front end at the start of the next cycle lies on the path from the first instruction not yet executed, and
memory holds the words ahead. -/
theorem nextFront_along (hcfg : s.cfg = cfg) (hc : s.ifid.Both (IfId.Consistent cfg)) (hlane : s.LaneTwoEmpty)
    (regs : RegFile) {mem : Memory} {x : ExecutedBoth}
    (hproceeds : x.redirect = none → Path cfg n σ j [s.ifid.lane1, s.ifid.lane2] s.pc)
    (hredirect : ∀ target, x.redirect = some target → target = (σ j).pc)
    (hmem : ∀ k, j ≤ k → k < n + 2 * cfg.lanes.toNat → k ≤ j + (2 * cfg.lanes.toNat - 1) →
      fetchWord cfg mem (σ k).pc = (σ k).word cfg) :
    (nextFront s regs mem x).Along cfg n σ j := by
  have hflushed {target : Word} (ht : x.redirect = some target) : (FrontEnd.flushed target).Along cfg n σ j := by
    simp only [FrontEnd.Along, FrontEnd.flushed, IdEx.fetched_bubble, path_bubble]
    exact fun _ => hredirect target ht
  have hd1 := decodeLane_fetched hc.1 regs
  have hd2 := decodeLane_fetched hc.2 regs
  subst hcfg
  unfold nextFront
  cases hl : s.cfg.lanes with
  | one =>
    obtain ⟨hifid, -⟩ := hlane hl
    simp only [scalarFront, ExecutedBoth.first]
    cases hr : x.redirect with
    | some target => exact hflushed hr
    | none =>
      have hpath := hproceeds hr
      simp only
      split
      · simpa only [FrontEnd.Along, IdEx.fetched_bubble, path_bubble] using hpath
      · rw [hifid] at hpath
        have hpath := (path_append_bubble (ls := [s.ifid.lane1]) (ms := [])).1 hpath
        have h1 := hpath.fetch x.predictor fun k hk hn hle => hmem k hk hn (by rw [hl]; exact hle)
        rw [FrontEnd.Along, hd1]
        exact (path_append_bubble (ls := [s.ifid.lane1]) (ms := [_, _])).2
          ((path_append_bubble (ls := [s.ifid.lane1, _]) (ms := [])).2 h1)
  | two =>
    simp only [dualFront]
    cases hr : x.redirect with
    | some target => exact hflushed hr
    | none =>
      have hpath := hproceeds hr
      simp only
      split
      · simpa only [FrontEnd.Along, IdEx.fetched_bubble, path_bubble] using hpath
      · split
        · rw [FrontEnd.Along, hd1]
          exact (path_append_bubble (ls := [s.ifid.lane1]) (ms := [_, _])).2
            ((path_append_bubble (ls := [s.ifid.lane1]) (ms := [_])).2 hpath)
        · rw [FrontEnd.Along, hd1, hd2]
          exact fetchBoth_path x.predictor hpath fun k hk hn hle => hmem k hk hn (by rw [hl]; exact hle)

/-- With one lane the front end fills lane 1 only. -/
theorem nextFront_laneTwo (hlane : s.LaneTwoEmpty) (hl : s.cfg.lanes = .one) (regs : RegFile) (mem : Memory)
    (x : ExecutedBoth) : (nextFront s regs mem x).ifid.lane2 = IfId.bubble ∧
      (nextFront s regs mem x).idex.lane2 = IdEx.bubble := by
  obtain ⟨hifid, -⟩ := hlane hl
  simp only [nextFront, hl, scalarFront]
  split
  · exact ⟨rfl, rfl⟩
  · split
    · exact ⟨hifid, rfl⟩
    · exact ⟨rfl, rfl⟩

theorem decodeLane_empty (regs : RegFile) (l : IfId) : (decodeLane regs l).empty = l.empty := by
  cases he : l.empty with
  | true => rw [decodeLane_of_empty he]; rfl
  | false => rw [decodeLane_of_full he]

theorem fetchBoth_full (mem : Memory) (p : Predictor) (pc : Word) : (fetchBoth cfg mem p pc).1.lane1.empty = false := by
  cases hp : (fetchLatch cfg mem p pc).pred with
  | true => rw [fetchBoth_of_pred hp]; rfl
  | false => rw [fetchBoth_of_not_pred hp]; rfl

/-- With nothing in `IDEX` and no redirect nothing holds the front end: `IFID` issues, or a word is fetched into it. -/
theorem nextFront_advances (hidex : s.idex = ⟨IdEx.bubble, IdEx.bubble⟩) (hlane : s.LaneTwoEmpty) (regs : RegFile)
    (mem : Memory) {x : ExecutedBoth} (hr : x.redirect = none) :
    ((s.ifid.lane1.empty && s.ifid.lane2.empty) = false →
      ((nextFront s regs mem x).idex.lane1.empty && (nextFront s regs mem x).idex.lane2.empty) = false) ∧
    ((s.ifid.lane1.empty && s.ifid.lane2.empty) = true → (nextFront s regs mem x).ifid.lane1.empty = false) := by
  unfold nextFront
  cases hl : s.cfg.lanes with
  | one =>
    obtain ⟨hifid, -⟩ := hlane hl
    simp only [scalarFront, ExecutedBoth.first, hr, hidex, loadUse_bubble_right, Bool.false_eq_true, if_false,
      decodeLane_empty, hifid]
    exact ⟨id, fun _ => rfl⟩
  | two =>
    have hstall1 (d : Lanes IdEx) : stallLane1 d ⟨IdEx.bubble, IdEx.bubble⟩ = false := by
      simp [stallLane1, loadUseBoth, loadUse_bubble_right]
    have hstall2 (d : Lanes IdEx) : stallLane2 d ⟨IdEx.bubble, IdEx.bubble⟩ = interLane d := by
      simp [stallLane2, loadUseBoth, loadUse_bubble_right]
    simp only [dualFront, hr, hidex, hstall1, hstall2]
    cases hi : interLane ⟨decodeLane regs s.ifid.lane1, decodeLane regs s.ifid.lane2⟩ with
    | true =>
      have hfull : s.ifid.lane1.empty = false := by
        simp only [interLane, decodeLane_empty, Bool.and_eq_true, Bool.not_eq_true'] at hi
        exact hi.1.1.1
      simp [decodeLane_empty, hfull]
    | false => simp [decodeLane_empty, fetchBoth_full]

end Front

end Sys2Proof.Machine

namespace Sys2Proof.Machine

/-! ### The halt check, by what it finds (R318, R355) -/

section HaltCheck
variable {s : State}

theorem haltCheck_of_lane1 (h : s.memwb.lane1.atEnd s.cfg = true) : s.haltCheck = .ok s.halt := if_pos h

theorem haltCheck_of_neither (h1 : s.memwb.lane1.atEnd s.cfg = false) (h2 : s.memwb.lane2.atEnd s.cfg = false) :
    s.haltCheck = .ok s := by
  rw [State.haltCheck, h1, h2]
  cases s.cfg.lanes <;> rfl

theorem haltCheck_of_lane2 (hl : s.cfg.lanes = .two) (h1 : s.memwb.lane1.atEnd s.cfg = false)
    (h2 : s.memwb.lane2.atEnd s.cfg = true) {r : Retired}
    (hr : writebackLane s.cfg ⟨s.regs, s.committed⟩ s.memwb.lane1 = .ok r) :
    s.haltCheck = .ok { s with regs := r.regs, committed := r.committed, run := .halted } := by
  rw [State.haltCheck, h1, h2, hl, State.drainLane1, hr]; rfl

end HaltCheck

/-! ### How far a run is from its next retirement -/

/-- How many cycles away the oldest instruction in flight is from Writeback; a fetch away with none in flight. -/
def State.distance (s : State) : Nat :=
  if (s.memwb.lane1.empty && s.memwb.lane2.empty) = false then 0
  else if (s.exmem.lane1.empty && s.exmem.lane2.empty) = false then 1
  else if (s.idex.lane1.empty && s.idex.lane2.empty) = false then 2
  else if (s.ifid.lane1.empty && s.ifid.lane2.empty) = false then 3
  else 4

/-- A measure of what is left of a run of `n` instructions. -/
def State.remaining (n : Nat) (s : State) : Nat := 5 * (n - s.committed) + s.distance

theorem State.distance_le (s : State) : s.distance ≤ 4 := by
  unfold State.distance
  repeat' split
  all_goals omega

/-- The oldest instruction moves on by a stage. -/
theorem State.distance_lt {s t : State} (hw : (s.memwb.lane1.empty && s.memwb.lane2.empty) = true)
    (hm : (t.memwb.lane1.empty && t.memwb.lane2.empty) = (s.exmem.lane1.empty && s.exmem.lane2.empty))
    (hx : (s.idex.lane1.empty && s.idex.lane2.empty) = false → (t.exmem.lane1.empty && t.exmem.lane2.empty) = false)
    (hd : (s.idex.lane1.empty && s.idex.lane2.empty) = true →
      ((s.ifid.lane1.empty && s.ifid.lane2.empty) = false → (t.idex.lane1.empty && t.idex.lane2.empty) = false) ∧
      ((s.ifid.lane1.empty && s.ifid.lane2.empty) = true → t.ifid.lane1.empty = false)) :
    t.distance < s.distance := by
  unfold State.distance
  rw [hm, hw]
  cases hxs : s.exmem.lane1.empty && s.exmem.lane2.empty with
  | false => simp
  | true =>
    cases hds : s.idex.lane1.empty && s.idex.lane2.empty with
    | false => simp [hx hds]
    | true =>
      obtain ⟨hd1, hd2⟩ := hd hds
      cases hfs : s.ifid.lane1.empty && s.ifid.lane2.empty with
      | false =>
        simp [hd1 hfs]
        split <;> omega
      | true =>
        simp [hd2 hfs]
        repeat' split
        all_goals omega

end Sys2Proof.Machine

namespace Sys2Proof.Machine

/-! ### A cycle along a run -/

section Step
variable {cfg : RunConfig} {n : Nat} {σ : Nat → State} {s : State} {j : Nat}

/-- The pipeline has halted with what the `n` instructions of the run leave. -/
structure Finished (n : Nat) (σ : Nat → State) (u : State) : Prop where
  run       : u.run = .halted
  regs      : u.regs = (σ n).regs
  mem       : u.mem = (σ n).mem
  committed : u.committed = n

/-- The instruction at `END_PC` is instruction `n` of the run and none before it. -/
theorem MemWb.At.atEnd_iff (htr : Trace cfg n σ) {w : MemWb} (h : w.At σ j) (hj : j ≤ n) :
    w.atEnd cfg = true ↔ w.empty = false ∧ j = n := by
  rw [Machine.atEnd_iff]
  refine and_congr_right fun he => ?_
  rw [(h he).pc]
  refine ⟨fun hpc => ?_, fun hn => by rw [hn, htr.atEnd]⟩
  by_contra hn
  exact htr.beforeEnd j (by omega) hpc

theorem MemWb.At.not_atEnd (htr : Trace cfg n σ) {w : MemWb} (h : w.At σ j) (hj : behind w.empty j ≤ n) :
    w.atEnd cfg = false := by
  have hb := behind_bounds w.empty j
  by_contra hend
  obtain ⟨he, rfl⟩ := (h.atEnd_iff htr (Nat.le_trans hb.1 hj)).1 (by simpa using hend)
  rw [he, behind_false] at hj; omega

/-- What the stages of a cycle make of the instructions in `MEMWB`, `EXMEM` and `IDEX`. -/
structure StageResults (cfg : RunConfig) (n : Nat) (σ : Nat → State) (s : State) (y : Lanes MemWb) (x : ExecutedBoth) :
    Prop where
  writeback : writebackBoth s = .ok (retiredAt σ s.memIndex)
  memory    : memoryBoth s = .ok (y, (σ s.exIndex).mem)
  execute   : executeBoth s = .ok x
  memwb1    : y.lane1.At σ s.memIndex
  memwb2    : y.lane2.At σ (behind y.lane1.empty s.memIndex)
  empty1    : y.lane1.empty = s.exmem.lane1.empty
  empty2    : y.lane2.empty = s.exmem.lane2.empty
  executed  : BothExecuted cfg n σ s x

theorem Tracks.stages (htr : Trace cfg n σ) (h : Tracks cfg n σ s) : ∃ y x, StageResults cfg n σ s y x := by
  obtain ⟨y, hm, h1, h2, he1, he2⟩ := h.memory
  obtain ⟨x, hx, hex⟩ := h.execute htr
  exact ⟨y, x, h.writeback htr, hm, hx, h1, h2, he1, he2, hex⟩

section Update
variable {y : Lanes MemWb} {x : ExecutedBoth}

/-- The state after the latch update of a cycle with those results. -/
def updated (σ : Nat → State) (s : State) (y : Lanes MemWb) (x : ExecutedBoth) : State :=
  latchUpdate s (retiredAt σ s.memIndex) y (σ s.exIndex).mem x

theorem StageResults.step_eq (R : StageResults cfg n σ s y x) (h : Tracks cfg n σ s) :
    step s = outcomeOf (updated σ s y x).haltCheck := by
  rw [step_pipelined h.run (by rw [h.params, h.engine]), cycle_of_stages h.laneTwo R.writeback R.memory R.execute]
  rfl

theorem StageResults.memIndex (R : StageResults cfg n σ s y x) : (updated σ s y x).memIndex = s.exIndex := by
  show behind y.lane2.empty (behind y.lane1.empty s.memIndex) = _
  rw [R.empty1, R.empty2]; rfl

theorem StageResults.laneTwo (R : StageResults cfg n σ s y x) (h : Tracks cfg n σ s) :
    (updated σ s y x).LaneTwoEmpty := by
  intro hl
  have hl : s.cfg.lanes = .one := hl
  obtain ⟨-, hd, hx, -⟩ := h.laneTwo hl
  obtain ⟨hf1, hf2⟩ := nextFront_laneTwo h.laneTwo hl (retiredAt σ s.memIndex).regs (σ s.exIndex).mem x
  obtain ⟨mem1, -, hm2⟩ := memoryBoth_ok R.memory
  rw [hx, memoryLane_bubble] at hm2
  exact ⟨hf1, hf2, (executeBoth_of_bubble hd R.execute).2, (Prod.mk.inj (Except.ok.inj hm2)).1.symm⟩

/-- A cycle that brings nothing from `END_PC` into `MEMWB` goes on, and stands on the run one cycle further. -/
theorem StageResults.tracks (htr : Trace cfg n σ) (R : StageResults cfg n σ s y x) (h : Tracks cfg n σ s)
    (hn : s.exIndex ≤ n) : step s = .next (updated σ s y x) ∧ Tracks cfg n σ (updated σ s y x) := by
  have hidx := R.memIndex
  have hb := behind_bounds y.lane2.empty (behind y.lane1.empty s.memIndex)
  have hle : behind y.lane2.empty (behind y.lane1.empty s.memIndex) ≤ n := le_of_eq_of_le hidx hn
  have hcfg : (updated σ s y x).cfg = cfg := h.params
  have h1 : (updated σ s y x).memwb.lane1.atEnd (updated σ s y x).cfg = false := by
    rw [hcfg]; exact R.memwb1.not_atEnd htr (Nat.le_trans hb.1 hle)
  have h2 : (updated σ s y x).memwb.lane2.atEnd (updated σ s y x).cfg = false := by
    rw [hcfg]; exact R.memwb2.not_atEnd htr hle
  have hstep : step s = .next (updated σ s y x) := by rw [R.step_eq h, haltCheck_of_neither h1 h2]; rfl
  obtain ⟨hifid, -⟩ := h.inv.consistent
  rw [h.params] at hifid
  have hlanes := laneCount_pos cfg.lanes
  have hex : behind x.latches.lane2.empty (behind x.latches.lane1.empty s.exIndex) ≤ s.exIndex + cfg.lanes.toNat := by
    refine behind_le_lanes (fun hl => ?_) _
    obtain ⟨-, -, hx, -⟩ := R.laneTwo h (hcfg ▸ hl)
    have hx : x.latches.lane2 = ExMem.bubble := hx
    rw [hx]; rfl
  have hex' := behind_bounds x.latches.lane1.empty s.exIndex
  have hex'' := behind_bounds x.latches.lane2.empty (behind x.latches.lane1.empty s.exIndex)
  have hfront := nextFront_along h.params hifid h.laneTwo (retiredAt σ s.memIndex).regs (mem := (σ s.exIndex).mem)
    R.executed.proceeds R.executed.redirect
    fun k hk hkn hkl => htr.fetched _ k hn (by omega) hkn (by omega)
  refine ⟨hstep, ?_⟩
  constructor
  case params => exact hcfg
  case engine => exact h.engine
  case run => exact h.run
  case inv => exact pipelineInvKept s _ hstep h.inv
  case laneTwo => exact R.laneTwo h
  case regs => rfl
  case memwb1 => exact R.memwb1
  case memwb2 => exact R.memwb2
  case mem => rw [hidx]; rfl
  case exmem1 => rw [hidx]; exact R.executed.latch1
  case exmem2 => rw [hidx]; exact R.executed.latch2
  case path => rw [State.exIndex, hidx]; exact hfront
  case pending => rw [hidx]; exact hn

/-- A cycle that brings the instruction at `END_PC` into `MEMWB` finishes the run, in lane 1, or in lane 2 with the
drain of the instruction beside it. -/
theorem StageResults.finishes (htr : Trace cfg n σ) (R : StageResults cfg n σ s y x) (h : Tracks cfg n σ s)
    (hn : n < s.exIndex) : ∃ t, step s = .next t ∧ Finished n σ t := by
  have hcfg : (updated σ s y x).cfg = cfg := h.params
  have hidx : behind y.lane2.empty (behind y.lane1.empty s.memIndex) = s.exIndex := R.memIndex
  have hb := behind_bounds y.lane2.empty (behind y.lane1.empty s.memIndex)
  have hmem : (σ s.exIndex).mem = (σ n).mem := by
    have hpast := htr.pastEnd (s.exIndex - n) (by have := h.memIndex_le_exIndex; have := h.pending; omega)
    rw [show n + (s.exIndex - n) = s.exIndex by omega] at hpast
    exact hpast.2
  have hend1 := R.memwb1.atEnd_iff htr h.pending
  rw [R.step_eq h]
  cases h1 : y.lane1.atEnd cfg with
  | true =>
    have ha : s.memIndex = n := (hend1.1 h1).2
    rw [haltCheck_of_lane1 (by rw [hcfg]; exact h1)]
    exact ⟨_, rfl, rfl, by rw [← ha]; rfl, hmem, ha⟩
  | false =>
    have hbehind : behind y.lane1.empty s.memIndex ≤ n := by
      cases he : y.lane1.empty with
      | true => exact h.pending
      | false =>
        have hne : s.memIndex ≠ n := fun ha => by rw [hend1.2 ⟨he, ha⟩] at h1; cases h1
        have := h.pending
        rw [behind_false]; omega
    have he2 : y.lane2.empty = false := by
      cases he : y.lane2.empty with
      | false => rfl
      | true => rw [he, behind_true] at hidx; omega
    have hat : behind y.lane1.empty s.memIndex = n := by rw [he2, behind_false] at hidx; omega
    have h2 : y.lane2.atEnd cfg = true := (R.memwb2.atEnd_iff htr hbehind).2 ⟨he2, hat⟩
    have hl : (updated σ s y x).cfg.lanes = .two := by
      cases hl : (updated σ s y x).cfg.lanes with
      | two => rfl
      | one =>
        obtain ⟨-, -, -, hy⟩ := R.laneTwo h hl
        have hy : y.lane2 = MemWb.bubble := hy
        rw [hy] at he2; cases he2
    have hdrain := R.memwb1.writeback htr hbehind
    rw [hat, ← hcfg] at hdrain
    rw [haltCheck_of_lane2 hl (by rw [hcfg]; exact h1) (by rw [hcfg]; exact h2) hdrain]
    exact ⟨_, rfl, rfl, rfl, hmem, rfl⟩

theorem StageResults.remaining_lt (R : StageResults cfg n σ s y x) (h : Tracks cfg n σ s) :
    (updated σ s y x).remaining n < s.remaining n := by
  have hcommitted : (updated σ s y x).committed = s.memIndex := rfl
  have h1 := behind_bounds s.memwb.lane1.empty s.committed
  have h2 := behind_bounds s.memwb.lane2.empty (behind s.memwb.lane1.empty s.committed)
  have hpending := h.pending
  have hd := State.distance_le (updated σ s y x)
  unfold State.remaining
  rw [hcommitted]
  cases hw : s.memwb.lane1.empty && s.memwb.lane2.empty with
  | false =>
    have : s.committed < s.memIndex := by
      unfold State.memIndex
      cases he1 : s.memwb.lane1.empty <;> cases he2 : s.memwb.lane2.empty <;> simp [he1, he2] at hw ⊢
    omega
  | true =>
    have hlt : (updated σ s y x).distance < s.distance := by
      refine State.distance_lt hw ?_ (fun hx => ?_) (fun hx => ?_)
      · show (y.lane1.empty && y.lane2.empty) = _
        rw [R.empty1, R.empty2]
      · show (x.latches.lane1.empty && x.latches.lane2.empty) = false
        rw [R.executed.empty1]
        cases he : s.idex.lane1.empty with
        | false => rfl
        | true => rw [R.executed.empty2 he]; rw [he] at hx; exact hx
      · obtain ⟨he1, he2⟩ := (Bool.and_eq_true _ _).mp hx
        obtain ⟨-, hcd, -⟩ := h.inv.consistent
        have hidex : s.idex = ⟨IdEx.bubble, IdEx.bubble⟩ := congrArg₂ Lanes.mk (hcd.1.1 he1) (hcd.2.1 he2)
        exact nextFront_advances hidex h.laneTwo _ _ (R.executed.idle he1 he2)
    have : s.committed ≤ s.memIndex := by unfold State.memIndex; omega
    omega

end Update

end Step

end Sys2Proof.Machine

namespace Sys2Proof.Machine

/-! ### Runs (R41, R210) -/

theorem run_succ_eq_next_iff (M : Host.Core) {k : Nat} {s u : M.State} :
    M.run (k + 1) s = .next u ↔ ∃ t, M.step s = .next t ∧ M.run k t = .next u := by
  rw [Host.Core.run]
  cases M.step s with
  | next t => exact ⟨fun h => ⟨t, rfl, h⟩, fun ⟨t', ht, h⟩ => by cases ht; exact h⟩
  | fault f => exact ⟨nofun, nofun⟩
  | refused r => exact ⟨nofun, nofun⟩

theorem reaches_succ_iff {s u : State} {k : Nat} : Reaches s (k + 1) u ↔ ∃ t, step s = .next t ∧ Reaches t k u :=
  run_succ_eq_next_iff Sys2Proof.core

theorem reaches_zero_iff {s u : State} : Reaches s 0 u ↔ u = s :=
  ⟨fun h => (Host.Outcome.next.inj h).symm, fun h => by rw [h]; rfl⟩

theorem Reaches.unique {s u v : State} {k : Nat} (hu : Reaches s k u) (hv : Reaches s k v) : u = v :=
  Host.Outcome.next.inj (hu.symm.trans hv)

/-- A run is a run up to any of its states, and one from there. -/
theorem reaches_add_iff {s u : State} {i j : Nat} : Reaches s (i + j) u ↔ ∃ v, Reaches s i v ∧ Reaches v j u := by
  induction i generalizing s with
  | zero => simp [reaches_zero_iff]
  | succ i ih =>
    rw [Nat.add_right_comm, reaches_succ_iff]
    simp only [reaches_succ_iff, ih]
    exact ⟨fun ⟨t, ht, v, hv, h⟩ => ⟨v, ⟨t, ht, hv⟩, h⟩, fun ⟨v, ⟨t, ht, hv⟩, h⟩ => ⟨t, ht, v, hv, h⟩⟩

/-- A machine that runs has always run: a stopped one stays stopped (R41). -/
theorem Reaches.running {s u : State} {k : Nat} (h : Reaches s k u) (hu : u.run = .running) : s.run = .running := by
  induction k generalizing s with
  | zero => rwa [← reaches_zero_iff.1 h]
  | succ k ih =>
    obtain ⟨t, ht, h⟩ := reaches_succ_iff.1 h
    have hrun := ih h
    rcases step_next ht with ⟨hr, rfl⟩ | ⟨hr, -⟩ | ⟨hr, -⟩
    · exact hrun
    · exact hr
    · exact hr

theorem Reaches.cfg_eq {s u : State} {k : Nat} (h : Reaches s k u) : u.cfg = s.cfg := by
  induction k generalizing s with
  | zero => rw [reaches_zero_iff.1 h]
  | succ k ih =>
    obtain ⟨t, ht, h⟩ := reaches_succ_iff.1 h
    rw [ih h, (parametersFixed s t ht).1]

/-! ### From the path to the halt -/

/-- A pipeline that stands on a run finishes it: every cycle goes on along the run, nearer to the next retirement, or
finishes. -/
theorem Tracks.finishes {cfg : RunConfig} {n : Nat} {σ : Nat → State} (htr : Trace cfg n σ) {s : State}
    (h : Tracks cfg n σ s) : ∃ k u, Reaches s k u ∧ Finished n σ u := by
  induction hk : s.remaining n using Nat.strong_induction_on generalizing s with
  | _ m ih =>
    obtain ⟨y, x, R⟩ := h.stages htr
    rcases Nat.lt_or_ge n s.exIndex with hn | hn
    · obtain ⟨t, ht, hfin⟩ := R.finishes htr h hn
      exact ⟨1, t, reaches_succ_iff.2 ⟨t, ht, rfl⟩, hfin⟩
    · obtain ⟨hstep, htracks⟩ := R.tracks htr h hn
      obtain ⟨k, u, hu, hfin⟩ := ih _ (hk ▸ R.remaining_lt h) htracks rfl
      exact ⟨k + 1, u, reaches_succ_iff.2 ⟨_, hstep, hu⟩, hfin⟩

/-! ### The run of the baseline, continued through the NOPs at `END_PC` -/

/-- The state after the instruction at the pc, counted; the baseline makes it unless the pc is `END_PC`. -/
def State.followed (s : State) : State :=
  match decodeWord (s.word s.cfg) with
  | .ok i =>
    match exec i s with
    | .next t => t.countStep
    | _       => s
  | .error _ => s

/-- The state after `j` instructions from `s`, `END_PC` or not. -/
def State.follow (s : State) : Nat → State
  | 0     => s
  | j + 1 => (s.follow j).followed

/-- `s` is not at `END_PC`, is inside the memory, and its instruction makes `t`. -/
structure RunsTo (s t : State) : Prop where
  notEnd  : s.pc ≠ s.cfg.endPC
  inRange : wordIndex s.pc < s.cfg.memWords
  exec    : ∃ i u, decodeWord (s.word s.cfg) = .ok i ∧ exec i s = .next u ∧ t = u.countStep

theorem State.followed_of_exec {s u : State} {i : Instr} (hi : decodeWord (s.word s.cfg) = .ok i)
    (hu : Machine.exec i s = .next u) : s.followed = u.countStep := by
  rw [State.followed, hi]; simp only [hu]

/-- A step of the baseline that leaves it running performs an instruction (R210). -/
theorem runsTo_of_step {s t : State} (he : s.cfg.engine = .singleCycle) (h : step s = .next t) (ht : t.run = .running) :
    RunsTo s t ∧ t = s.followed := by
  have hs : s.run = .running := Reaches.running (k := 1) (reaches_succ_iff.2 ⟨t, h, rfl⟩) ht
  rw [step_singleCycle hs he] at h
  rcases seqStep_next h with ⟨-, rfl⟩ | ⟨hend, hr, i, u, hi, hu, rfl⟩
  · cases ht
  · exact ⟨⟨hend, hr, i, u, hi, hu, rfl⟩, (State.followed_of_exec hi hu).symm⟩

/-- The states of a running baseline are those that its instructions make. -/
theorem reaches_follow {s t : State} {n : Nat} (he : s.cfg.engine = .singleCycle) (h : Reaches s n t)
    (ht : t.run = .running) : ∀ j ≤ n, Reaches s j (s.follow j) ∧ (j < n → RunsTo (s.follow j) (s.follow (j + 1))) := by
  have hnext {j : Nat} (hj : j < n) (hr : Reaches s j (s.follow j)) :
      RunsTo (s.follow j) (s.follow (j + 1)) ∧ Reaches s (j + 1) (s.follow (j + 1)) := by
    rw [show n = j + ((n - (j + 1)) + 1) by omega] at h
    obtain ⟨v, hv, hrest⟩ := reaches_add_iff.1 h
    obtain rfl := hv.unique hr
    obtain ⟨w, hw, hrest⟩ := reaches_succ_iff.1 hrest
    obtain ⟨hto, hfollow⟩ := runsTo_of_step (by rw [hr.cfg_eq, he]) hw (hrest.running ht)
    obtain rfl : w = s.follow (j + 1) := hfollow
    exact ⟨hto, reaches_add_iff.2 ⟨_, hr, reaches_succ_iff.2 ⟨_, hw, rfl⟩⟩⟩
  have hreach : ∀ j ≤ n, Reaches s j (s.follow j) := by
    intro j
    induction j with
    | zero => exact fun _ => rfl
    | succ j ih => exact fun hj => (hnext hj (ih (by omega))).2
  exact fun j hj => ⟨hreach j hj, fun hlt => (hnext hlt (hreach j hj)).1⟩

/-- Registers and memory stay, and the pc is `k` words further. -/
structure Skips (s : State) (k : Nat) (t : State) : Prop where
  regs : t.regs = s.regs
  mem  : t.mem = s.mem
  cfg  : t.cfg = s.cfg
  pc   : t.pc = s.pc + BitVec.ofNat 32 (4 * k)

/-- What a NOP makes: the pc moves on. -/
theorem followed_nop {s : State} (h : s.word s.cfg = 0#32) : s.followed = s.advance.countStep := by
  have hi : decodeWord (s.word s.cfg) = .ok (.sll 0#5 0#5 0#5) := by rw [h]; rfl
  rw [State.followed_of_exec hi (u := s.advance)]
  rfl

/-- NOPs ahead are passed over one by one. -/
theorem follow_skips {s : State} {m : Nat}
    (h : ∀ k < m, fetchWord s.cfg s.mem (s.pc + BitVec.ofNat 32 (4 * k)) = 0#32) : ∀ k ≤ m, Skips s k (s.follow k) := by
  intro k
  induction k with
  | zero => exact fun _ => ⟨rfl, rfl, rfl, by simp [State.follow]⟩
  | succ k ih =>
    intro hk
    obtain ⟨hregs, hmem, hcfg, hpc⟩ := ih (by omega)
    have hword : (s.follow k).word (s.follow k).cfg = 0#32 := by
      rw [State.word, hcfg, hmem, hpc]; exact h k (by omega)
    have hnext : s.follow (k + 1) = (s.follow k).advance.countStep := followed_nop hword
    rw [hnext]
    refine ⟨hregs, hmem, hcfg, ?_⟩
    show nextPc (s.follow k).pc = _
    rw [nextPc, hpc, BitVec.add_assoc, Nat.mul_succ, BitVec.ofNat_add]

end Sys2Proof.Machine

namespace Sys2Proof.Machine

/-! ### The pipeline against the baseline (R236, R360) -/

/-- What the stages make of an instruction rests on registers, memory and pc. -/
theorem Performs.congr {cfg : RunConfig} {s t u : State} {w : Word} (h : Performs cfg s w t) (hregs : u.regs = t.regs)
    (hmem : u.mem = t.mem) (hpc : u.pc = t.pc) : Performs cfg s w u :=
  ⟨h.supported, by rw [hregs, hmem, hpc]; exact h.stages⟩

/-- No stage asks which engine the run selected. -/
theorem Performs.engine {cfg : RunConfig} {s t : State} {w : Word} {e : Engine}
    (h : Performs { cfg with engine := e } s w t) (e' : Engine) : Performs { cfg with engine := e' } s w t :=
  ⟨h.supported, h.stages⟩

section Boot
variable {cfg : RunConfig} {regs : RegFile} {mem : Memory} {n : Nat} {t : State}
  (hb : BootRequirements cfg regs mem n t)
include hb

/-- The states of the baseline's run, each with the instruction at it. -/
theorem BootRequirements.follow : ∀ j ≤ n, Reaches (baseline cfg regs mem) j ((baseline cfg regs mem).follow j) ∧
    (j < n → RunsTo ((baseline cfg regs mem).follow j) ((baseline cfg regs mem).follow (j + 1))) :=
  reaches_follow rfl hb.reaches hb.running

theorem BootRequirements.follow_n : (baseline cfg regs mem).follow n = t :=
  (hb.follow n (Nat.le_refl n)).1.unique hb.reaches

theorem BootRequirements.follow_cfg {j : Nat} (hj : j ≤ n) :
    ((baseline cfg regs mem).follow j).cfg = { cfg with engine := .singleCycle } := (hb.follow j hj).1.cfg_eq

/-- At `END_PC` the NOPs of requirement 2 stand ahead. -/
theorem BootRequirements.skips : ∀ k ≤ 2 * cfg.lanes.toNat, Skips t k ((baseline cfg regs mem).follow (n + k)) := by
  have hadd (k : Nat) : (baseline cfg regs mem).follow (n + k) = t.follow k := by
    induction k with
    | zero => exact hb.follow_n
    | succ k ih => show ((baseline cfg regs mem).follow (n + k)).followed = _; rw [ih]; rfl
  have hcfg : t.cfg = { cfg with engine := .singleCycle } := hb.follow_n ▸ hb.follow_cfg (Nat.le_refl n)
  have hnop := hb.endIsNop n t (Nat.le_refl n) hb.reaches
  intro k hk
  rw [hadd]
  refine follow_skips (fun k hk => ?_) k hk
  rw [hb.atEnd, hcfg]
  exact hnop k hk

/-- The pc of an instruction of the run past the end is the address of one of the NOPs. -/
theorem BootRequirements.fetch_past_end {i k : Nat} (hi : i ≤ n) (hk : k < 2 * cfg.lanes.toNat) :
    fetchWord cfg ((baseline cfg regs mem).follow i).mem ((baseline cfg regs mem).follow (n + k)).pc = 0#32 := by
  rw [(hb.skips k (by omega)).pc, hb.atEnd]
  exact hb.endIsNop i _ hi (hb.follow i hi).1 k hk

/-- Requirement 3, along the run: a word executed soon is in memory already. -/
theorem BootRequirements.fetch_ahead {i j : Nat} (hij : i ≤ j) (hj : j < n)
    (hnear : j ≤ i + (3 * cfg.lanes.toNat - 1)) :
    fetchWord cfg ((baseline cfg regs mem).follow i).mem ((baseline cfg regs mem).follow j).pc =
      ((baseline cfg regs mem).follow j).word cfg := by
  induction hd : j - i generalizing i with
  | zero =>
    obtain rfl : i = j := by omega
    rfl
  | succ d ih =>
    rw [← ih (i := i + 1) (by omega) (by omega) (by omega)]
    exact (hb.noNearStore i j _ _ _ (by omega) hj hnear (hb.follow i (by omega)).1 (hb.follow (i + 1) (by omega)).1
      (hb.follow j (by omega)).1).symm

/-- The baseline's run, continued through the NOPs, is one that the stages of the pipeline can follow. -/
theorem BootRequirements.trace :
    Trace { cfg with engine := .pipelined } n (baseline cfg regs mem).follow := by
  have hpast {j : Nat} (hj : n ≤ j) (hjn : j < n + 2 * cfg.lanes.toNat) :
      ∃ k, j = n + k ∧ k < 2 * cfg.lanes.toNat := ⟨j - n, by omega, by omega⟩
  have hword {j : Nat} (hj : n ≤ j) (hjn : j < n + 2 * cfg.lanes.toNat) :
      ((baseline cfg regs mem).follow j).word cfg = 0#32 := by
    obtain ⟨k, rfl, hk⟩ := hpast hj hjn
    rw [State.word, (hb.skips k (by omega)).mem, ← hb.follow_n]
    exact hb.fetch_past_end (Nat.le_refl n) hk
  constructor
  case performs =>
    intro j hjn
    have hjn : j < n + 2 * cfg.lanes.toNat := hjn
    rcases Nat.lt_or_ge j n with hj | hj
    · obtain ⟨-, hr, i, u, hi, hu, hnext⟩ := (hb.follow j (by omega)).2 hj
      have hperf := performs_of_exec hi hr hu
      rw [hb.follow_cfg (by omega)] at hperf
      rw [hnext]
      exact (hperf.engine .pipelined).congr rfl rfl rfl
    · have hw : ((baseline cfg regs mem).follow j).word { cfg with engine := .pipelined } = 0#32 := hword hj hjn
      obtain ⟨k, rfl, hk⟩ := hpast hj hjn
      have hcfg : ((baseline cfg regs mem).follow (n + k)).cfg = { cfg with engine := .singleCycle } := by
        rw [(hb.skips k (by omega)).cfg, ← hb.follow_n, hb.follow_cfg (Nat.le_refl n)]
      have hnext : (baseline cfg regs mem).follow (n + k + 1) =
          ((baseline cfg regs mem).follow (n + k)).advance.countStep :=
        followed_nop (by rw [hcfg]; exact hw)
      rw [hw, hnext]
      exact (performs_nop _ _).congr rfl rfl rfl
  case inRange =>
    intro j hj
    have hr := ((hb.follow j (by omega)).2 hj).inRange
    rwa [hb.follow_cfg (by omega)] at hr
  case beforeEnd =>
    intro j hj
    have he := ((hb.follow j (by omega)).2 hj).notEnd
    rwa [hb.follow_cfg (by omega)] at he
  case atEnd => rw [hb.follow_n, hb.atEnd]
  case pastEnd =>
    intro k hk
    rw [hb.follow_n]
    exact ⟨(hb.skips k hk).regs, (hb.skips k hk).mem⟩
  case fetched =>
    intro i j hi hij hjn hnear
    have hjn : j < n + 2 * cfg.lanes.toNat := hjn
    rcases Nat.lt_or_ge j n with hj | hj
    · exact hb.fetch_ahead hij hj hnear
    · obtain ⟨k, rfl, hk⟩ := hpast hj hjn
      exact (hb.fetch_past_end hi hk).trans (hword hj hjn).symm

end Boot

/-- At the start of a run every latch is empty, so nothing is in flight (R36, R353). -/
theorem start_pipelineInv (cfg : RunConfig) (regs : RegFile) (mem : Memory) : (State.start cfg regs mem).PipelineInv where
  consistent := ⟨⟨IfId.bubble_consistent cfg, IfId.bubble_consistent cfg⟩,
    ⟨IdEx.bubble_consistent cfg, IdEx.bubble_consistent cfg⟩, ⟨ExMem.bubble_consistent, ExMem.bubble_consistent⟩,
    MemWb.bubble_consistent, MemWb.bubble_consistent⟩
  drained := ⟨fun h => absurd ⟨.inl rfl, .inl rfl⟩ h, fun h => absurd ⟨.inl rfl, .inl rfl⟩ h⟩
  spaced := ⟨⟨⟨nofun, nofun⟩, nofun, nofun⟩, nofun⟩
  current := fun _ _ => ⟨nofun, nofun⟩

/-- The pipeline starts where the run starts, with nothing in flight. -/
theorem start_tracks (cfg : RunConfig) (regs : RegFile) (mem : Memory) (n : Nat) :
    Tracks { cfg with engine := .pipelined } n (baseline cfg regs mem).follow (pipeline cfg regs mem) where
  params  := rfl
  engine  := rfl
  run     := rfl
  inv     := start_pipelineInv _ regs mem
  laneTwo := fun _ => ⟨rfl, rfl, rfl, rfl⟩
  regs    := rfl
  memwb1  := nofun
  memwb2  := nofun
  mem     := rfl
  exmem1  := nofun
  exmem2  := nofun
  path    := by
    simp only [pipeline, State.start, IdEx.fetched_bubble, path_bubble]
    exact fun _ => rfl
  pending := Nat.zero_le n

/-- Settles O59: the pipeline starts on the baseline's run (`start_tracks`), every cycle keeps it there, and it halts when
the instruction at `END_PC` is retired, with what the run has left by then (`Tracks.finishes`). -/
theorem pipelineEqualsBaseline : Obligations.PipelineEqualsBaseline := by
  intro cfg regs mem n t hb
  obtain ⟨k, u, hu, hfin⟩ := (start_tracks cfg regs mem n).finishes hb.trace
  exact ⟨k, u, hu, hfin.run, by rw [hfin.regs, hb.follow_n], by rw [hfin.mem, hb.follow_n], hfin.committed⟩

end Sys2Proof.Machine

namespace Sys2Proof.Machine

/-! ### One instruction through the empty scalar pipeline (R211, R212) -/

/-- A scalar cycle is the latch update of what its stages produced; it halts for the instruction at `END_PC` only. -/
theorem scalar_next {u v : State} (hr : u.run = .running) (he : u.cfg.engine = .pipelined) (hl : u.cfg.lanes = .one)
    (h : step u = .next v) : ∃ r y mem x run, writebackLane u.cfg ⟨u.regs, u.committed⟩ u.memwb.lane1 = .ok r ∧
      memoryLane u.cfg u.mem u.exmem.lane1 = .ok (y, mem) ∧ u.executeOn u.predictor u.idex.lane1 = .ok x ∧
      v = { scalarUpdate u r y mem x with run := run } ∧ (y.atEnd u.cfg = false → run = .running) := by
  rcases pipelined_next hr he h with ⟨-, r, y, mem, x, hw, hm, hx, hh⟩ | ⟨hl', -⟩
  · rcases haltCheck_ok hh with ⟨h1, rfl⟩ | ⟨-, -, rfl⟩ | ⟨-, hl', -⟩
    · have hend : y.atEnd u.cfg = true := h1
      exact ⟨r, y, mem, x, .halted, hw, hm, hx, rfl, fun hy => by rw [hend] at hy; cases hy⟩
    · exact ⟨r, y, mem, x, u.run, hw, hm, hx, rfl, fun _ => hr⟩
    · rw [show u.cfg.lanes = .two from hl'] at hl; cases hl
  · rw [hl'] at hl; cases hl

/-- With nothing in `IDEX` and no redirect the front end decodes `IFID` and fetches. -/
theorem scalarFront_advances {u : State} (hd : u.idex.lane1 = IdEx.bubble) (regs : RegFile) (mem : Memory) {x : Executed}
    (hx : x.redirect = none) : scalarFront u regs mem x =
      { idex := ⟨decodeLane regs u.ifid.lane1, IdEx.bubble⟩
        ifid := ⟨fetchLatch u.cfg mem x.predictor u.pc, IfId.bubble⟩
        pc   := nextFetch (fetchLatch u.cfg mem x.predictor u.pc) } := by
  simp [scalarFront, hx, hd, loadUse_bubble_right]

/-- The pc of the oldest instruction of lane 1's front end, or, with none there, of the next fetch. -/
def FrontEnd.firstPc (f : FrontEnd) : Word :=
  if f.idex.lane1.empty = false then f.idex.lane1.pc else if f.ifid.lane1.empty = false then f.ifid.lane1.pc else f.pc

theorem FrontEnd.firstPc_of_idex {f : FrontEnd} (h : f.idex.lane1.empty = false) : f.firstPc = f.idex.lane1.pc := if_pos h

theorem FrontEnd.firstPc_of_ifid {f : FrontEnd} (hd : f.idex.lane1.empty = true) (h : f.ifid.lane1.empty = false) :
    f.firstPc = f.ifid.lane1.pc := by
  rw [firstPc, if_neg (by simp [hd]), if_pos h]

theorem FrontEnd.firstPc_of_empty {f : FrontEnd} (hd : f.idex.lane1.empty = true) (h : f.ifid.lane1.empty = true) :
    f.firstPc = f.pc := by
  rw [firstPc, if_neg (by simp [hd]), if_neg (by simp [h])]

/-- The front end of a state. -/
def State.front (s : State) : FrontEnd where
  idex := s.idex
  ifid := s.ifid
  pc   := s.pc

/-- Decode and Fetch keep the oldest instruction the oldest. -/
theorem firstPc_advances {u : State} (hd : u.idex.lane1 = IdEx.bubble) (regs : RegFile) (mem : Memory) {x : Executed}
    (hx : x.redirect = none) : (scalarFront u regs mem x).firstPc = u.front.firstPc := by
  have hempty : u.idex.lane1.empty = true := congrArg IdEx.empty hd
  rw [scalarFront_advances hd regs mem hx]
  cases hf : u.ifid.lane1.empty with
  | false =>
    rw [FrontEnd.firstPc_of_idex (by rw [decodeLane_empty, hf]), decodeLane_of_full hf]
    exact (FrontEnd.firstPc_of_ifid (f := u.front) hempty hf).symm
  | true =>
    rw [FrontEnd.firstPc_of_ifid (by rw [decodeLane_empty, hf]) rfl]
    exact (FrontEnd.firstPc_of_empty (f := u.front) hempty hf).symm

theorem executeOn_of_bubble {u : State} {p : Predictor} {e : IdEx} {x : Executed} (he : e = IdEx.bubble)
    (h : u.executeOn p e = .ok x) : x = { latch := ExMem.bubble, redirect := none, predictor := p } := by
  rw [he, State.executeOn, executeLane_bubble] at h
  exact (Except.ok.inj h).symm

/-- Execute passes an instruction on with its pc. -/
theorem executeOn_of_full {u : State} {p : Predictor} {e : IdEx} {x : Executed} (he : e.empty = false)
    (h : u.executeOn p e = .ok x) : x.latch.empty = false ∧ x.latch.pc = e.pc := by
  rcases executeLane_ok h with ⟨hempty, -⟩ | ⟨-, -, hlatch, -⟩
  · rw [he] at hempty; cases hempty
  · rw [hlatch]; exact ⟨rfl, rfl⟩

/-- A decoded latch is a bubble or full. -/
theorem decodeLane_bubble_or_full (regs : RegFile) (l : IfId) :
    decodeLane regs l = IdEx.bubble ∨ (decodeLane regs l).empty = false := by
  cases he : l.empty with
  | true => exact .inl (decodeLane_of_empty he)
  | false => exact .inr (by rw [decodeLane_empty, he])

/-- Execute of an instruction leaves the fetch, now or after its redirect, at the pc that comes next; the front end holds
an instruction or a bubble in `IDEX`. -/
theorem scalarFront_firstPc {u : State} {regs : RegFile} {mem : Memory} {x : Executed} {pc : Word}
    (hfull : u.ifid.lane1.empty = false) (hpc : x.redirect.getD u.ifid.lane1.pc = pc) :
    (scalarFront u regs mem x).firstPc = pc ∧ ((scalarFront u regs mem x).idex.lane1 = IdEx.bubble ∨
      (scalarFront u regs mem x).idex.lane1.empty = false) := by
  unfold scalarFront
  cases hx : x.redirect with
  | some target =>
    rw [hx] at hpc
    exact ⟨hpc, .inl rfl⟩
  | none =>
    rw [hx] at hpc
    simp only
    split
    · exact ⟨by rw [FrontEnd.firstPc_of_ifid rfl hfull]; exact hpc, .inl rfl⟩
    · refine ⟨?_, decodeLane_bubble_or_full _ _⟩
      rw [FrontEnd.firstPc_of_idex (by rw [decodeLane_empty, hfull]), decodeLane_of_full hfull]; exact hpc

section FirstInstruction
variable {s t : State}

/-- What a run of the scalar engine from `s` has kept while no instruction has left `EXMEM`. -/
structure Unretired (s u : State) : Prop where
  cfg       : u.cfg = s.cfg
  run       : u.run = .running
  regs      : u.regs = s.regs
  committed : u.committed = s.committed
  mem       : u.mem = s.mem
  memwb     : u.memwb.lane1 = MemWb.bubble

/-- With nothing in `EXMEM` either, a cycle is Execute and the front end. -/
theorem Unretired.next {u v : State} (hu : Unretired s u) (he : s.cfg.engine = .pipelined) (hl : s.cfg.lanes = .one)
    (hempty : u.exmem.lane1 = ExMem.bubble) (h : step u = .next v) : ∃ x, u.executeOn u.predictor u.idex.lane1 = .ok x ∧
      Unretired s v ∧ v.exmem.lane1 = x.latch ∧ v.front = scalarFront u s.regs s.mem x := by
  obtain ⟨hcfg, hrun, hregs, hcommitted, hmem, hmemwb⟩ := hu
  obtain ⟨r, y, mem, x, run, hw, hm, hx, rfl, hgo⟩ := scalar_next hrun (by rw [hcfg, he]) (by rw [hcfg, hl]) h
  rw [hmemwb, writebackLane_bubble, hregs, hcommitted] at hw
  obtain rfl := Except.ok.inj hw
  rw [hempty, memoryLane_bubble, hmem] at hm
  obtain ⟨rfl, rfl⟩ := Prod.mk.inj (Except.ok.inj hm)
  exact ⟨x, hx, ⟨hcfg, hgo rfl, rfl, rfl, rfl, rfl⟩, rfl, rfl⟩

/-- With nothing in `IDEX` either, a cycle is Decode and Fetch. -/
theorem Unretired.next_of_empty {u v : State} (hu : Unretired s u) (he : s.cfg.engine = .pipelined)
    (hl : s.cfg.lanes = .one) (hx : u.exmem.lane1 = ExMem.bubble) (hd : u.idex.lane1 = IdEx.bubble)
    (h : step u = .next v) : Unretired s v ∧ v.exmem.lane1 = ExMem.bubble ∧
      v.front = { idex := ⟨decodeLane s.regs u.ifid.lane1, IdEx.bubble⟩
                  ifid := ⟨fetchLatch s.cfg s.mem u.predictor u.pc, IfId.bubble⟩
                  pc   := nextFetch (fetchLatch s.cfg s.mem u.predictor u.pc) } := by
  obtain ⟨x, hex, hv, hlatch, hfront⟩ := hu.next he hl hx h
  obtain rfl := executeOn_of_bubble hd hex
  rw [scalarFront_advances hd s.regs s.mem rfl, hu.cfg] at hfront
  exact ⟨hv, hlatch, hfront⟩

/-- The instruction has been executed: it stands in `EXMEM`, and what comes first behind it is at its next pc. -/
structure ExecutedFirst (s t u : State) : Prop where
  kept     : Unretired s u
  full     : u.exmem.lane1.empty = false
  latch    : u.exmem.lane1.Completes s.cfg s t
  idex     : u.idex.lane1 = IdEx.bubble ∨ u.idex.lane1.empty = false
  firstPc  : u.front.firstPc = t.pc

/-- Execute of the instruction at the pc of `s`, decoded with the registers of `s`. -/
theorem Unretired.next_of_decoded {u v : State} {f : IfId} (hu : Unretired s u) (he : s.cfg.engine = .pipelined)
    (hl : s.cfg.lanes = .one) (hx : u.exmem.lane1 = ExMem.bubble) (hp : Performs s.cfg s f.instr t)
    (hf : f.Consistent s.cfg) (hfull : f.empty = false) (hpc : f.pc = s.pc)
    (hd : u.idex.lane1 = decodeLane s.regs f) (hifid : u.ifid.lane1.empty = false)
    (hnext : u.ifid.lane1.pc = nextFetch f) (h : step u = .next v) : ExecutedFirst s t v := by
  obtain ⟨x, hex, hv, hlatch, hfront⟩ := hu.next he hl hx h
  have hdec := decodeLane_of_full (regs := s.regs) hfull
  have hforward (q : Reg) (w : Word) : forward u.cfg.lanes u.exmem u.memwb q w = w := by
    have hxq : ExMem.bubble.forwards q = false := rfl
    have hwq : MemWb.bubble.forwards q = false := rfl
    rw [hu.cfg, hl, forward, hx, hu.memwb, hxq, hwq]; rfl
  have hxfull : x.latch.empty = false := (executeOn_of_full (by rw [hd, hdec]) hex).1
  rw [State.executeOn, hforward, hforward, hu.cfg, hd] at hex
  obtain ⟨x', hex', hcompletes, hredirect⟩ := executeLane_performs u.predictor (e := decodeLane s.regs f) (s := s)
    (t := t) (a := (decodeLane s.regs f).rsVal) (b := (decodeLane s.regs f).rtVal) (by rw [hdec]; exact hp)
    (decodeLane_consistent _ hf) (by rw [hdec]) (by rw [hdec]; exact hpc) (fun _ => by rw [hdec]; rfl)
    (fun _ => by rw [hdec]; rfl)
  obtain rfl := Except.ok.inj (hex.symm.trans hex')
  rw [decodeLane_fetched hf, ← hnext] at hredirect
  obtain ⟨hfirst, hidex⟩ := scalarFront_firstPc (regs := s.regs) (mem := s.mem) hifid hredirect
  rw [← hfront] at hfirst hidex
  exact ⟨hv, by rw [hlatch, hxfull], by rw [hlatch]; exact hcompletes, hidex, hfirst⟩

/-- The instruction has accessed memory: it stands in `MEMWB`, and what comes first behind it is at its next pc, in
`EXMEM` or before it. -/
structure AccessedFirst (s t u : State) : Prop where
  cfg       : u.cfg = s.cfg
  run       : u.run = .running
  regs      : u.regs = s.regs
  committed : u.committed = s.committed
  mem       : u.mem = t.mem
  full      : u.memwb.lane1.empty = false
  latch     : u.memwb.lane1.Completes s t
  behindIt  : (u.exmem.lane1.empty = false ∧ u.exmem.lane1.pc = t.pc) ∨
    (u.exmem.lane1.empty = true ∧ u.ifid.lane1.empty = false ∧ u.front.firstPc = t.pc)

/-- Memory of the instruction, while what comes first behind it moves on by a stage. -/
theorem ExecutedFirst.next {u v : State} (hu : ExecutedFirst s t u) (he : s.cfg.engine = .pipelined)
    (hl : s.cfg.lanes = .one) (hend : s.pc ≠ s.cfg.endPC) (h : step u = .next v) : AccessedFirst s t v := by
  obtain ⟨⟨hcfg, hrun, hregs, hcommitted, hmem, hmemwb⟩, hfull, ⟨-, z, hz, hcompletes⟩, hidex, hfirst⟩ := hu
  obtain ⟨r, y, mem, x, run, hw, hm, hx, rfl, hgo⟩ := scalar_next hrun (by rw [hcfg, he]) (by rw [hcfg, hl]) h
  rw [hmemwb, writebackLane_bubble, hregs, hcommitted] at hw
  obtain rfl := Except.ok.inj hw
  rw [hmem, hcfg, hz] at hm
  obtain ⟨rfl, rfl⟩ := Prod.mk.inj (Except.ok.inj hm)
  have hzfull : z.empty = false := by
    rcases memoryLane_ok hz with ⟨he', -⟩ | ⟨-, -, d, -, -, rfl⟩
    · rw [hfull] at he'; cases he'
    · rfl
  have hnotEnd : z.atEnd u.cfg = false := by
    by_contra hat
    obtain ⟨-, hpc⟩ := atEnd_iff.1 (by simpa using hat)
    exact hend (by rw [← hcompletes.pc, hpc, hcfg])
  refine ⟨hcfg, hgo hnotEnd, rfl, rfl, rfl, hzfull, hcompletes, ?_⟩
  rcases hidex with hb | hd
  · obtain rfl := executeOn_of_bubble hb hx
    refine .inr ⟨rfl, ?_, (firstPc_advances hb _ _ rfl).trans hfirst⟩
    show (scalarFront u s.regs t.mem _).ifid.lane1.empty = false
    rw [scalarFront_advances hb _ _ rfl]; rfl
  · obtain ⟨hxfull, hxpc⟩ := executeOn_of_full hd hx
    refine .inl ⟨hxfull, hxpc.trans ?_⟩
    exact (FrontEnd.firstPc_of_idex (f := u.front) hd).symm.trans hfirst

/-- Writeback of the instruction. -/
theorem AccessedFirst.next {u v : State} (hu : AccessedFirst s t u) (he : s.cfg.engine = .pipelined)
    (hl : s.cfg.lanes = .one) (h : step u = .next v) : v.regs = t.regs ∧ v.committed = s.committed + 1 := by
  obtain ⟨hcfg, hrun, hregs, hcommitted, -, hfull, hcompletes, -⟩ := hu
  obtain ⟨r, y, mem, x, run, hw, -, -, rfl, -⟩ := scalar_next hrun (by rw [hcfg, he]) (by rw [hcfg, hl]) h
  obtain ⟨-, hr, hc⟩ := writebackLane_ok hw
  constructor
  · rw [← hcompletes.regs, ← hregs]; exact hr
  · rw [hfull, hcommitted] at hc; exact hc

end FirstInstruction

/-- Settles O57: Fetch and Decode of the instruction (`Unretired.next_of_empty`), then its Execute, Memory and Writeback,
each by the stage's part of `Performs`, which `performs_of_exec` derives from its rule. -/
theorem pipelineRunsInstruction : Obligations.PipelineRunsInstruction := by
  intro s t u v i hrun he hl hifid hidex hexmem hmemwb hrange hend hi hexec hu hv
  obtain ⟨s1, h1, hu⟩ := reaches_succ_iff.1 hu
  obtain ⟨s2, h2, hu⟩ := reaches_succ_iff.1 hu
  obtain ⟨s3, h3, hu⟩ := reaches_succ_iff.1 hu
  obtain ⟨s4, h4, hu⟩ := reaches_succ_iff.1 hu
  obtain rfl := reaches_zero_iff.1 hu
  obtain ⟨s5, h5, hv⟩ := reaches_succ_iff.1 hv
  obtain rfl := reaches_zero_iff.1 hv
  have hstart : Unretired s s := ⟨rfl, hrun, rfl, rfl, rfl, hmemwb⟩
  obtain ⟨hkept1, hexmem1, hfront1⟩ := hstart.next_of_empty he hl hexmem hidex h1
  obtain ⟨hidex1, hifid1, hpc1⟩ := FrontEnd.mk.inj hfront1
  rw [hifid] at hidex1
  obtain ⟨hkept2, hexmem2, hfront2⟩ := hkept1.next_of_empty he hl hexmem1 (congrArg Lanes.lane1 hidex1) h2
  obtain ⟨hidex2, hifid2, hpc2⟩ := FrontEnd.mk.inj hfront2
  rw [hifid1] at hidex2
  have hexecuted : ExecutedFirst s t s3 := by
    refine hkept2.next_of_decoded (f := fetchLatch s.cfg s.mem s.predictor s.pc) he hl hexmem2
      (performs_of_exec hi hrange hexec) (fetchLatch_consistent _ _ _ _) rfl rfl (congrArg Lanes.lane1 hidex2) ?_ ?_ h3
    · rw [hifid2]; rfl
    · rw [hifid2]; exact hpc1
  have haccessed := hexecuted.next he hl hend h4
  obtain ⟨hregs, hcommitted⟩ := haccessed.next he hl h5
  refine ⟨haccessed.mem, haccessed.regs, haccessed.committed, haccessed.full, haccessed.latch.pc, hregs, hcommitted, ?_⟩
  rcases haccessed.behindIt with ⟨hx, hpc⟩ | ⟨hx, hf, hpc⟩
  · exact ⟨fun _ => hpc, by simp [hx], by simp [hx]⟩
  · refine ⟨by simp [hx], fun _ hd => ?_, fun _ hd => ⟨hf, ?_⟩⟩
    · rw [← hpc]; exact (FrontEnd.firstPc_of_idex (f := u.front) hd).symm
    · rw [← hpc]; exact (FrontEnd.firstPc_of_ifid (f := u.front) hd hf).symm

end Sys2Proof.Machine

namespace Sys2Proof.Machine

/-! ### The load-use stall (R252, R254 to R256, R269) -/

theorem loadUse_iff (d e : IdEx) : loadUse d e = true ↔
    d.empty = false ∧ e.empty = false ∧ e.ctrl.memRead = true ∧ e.ctrl.regWrite = true ∧ e.dest ≠ 0#5 ∧
      d.readsReg e.dest = true := by
  simp [loadUse, and_assoc]

/-- A load that reaches `MEMWB` is a producer of its destination, with the loaded value `d`: it is no jump and no JR,
and it writes back what it loaded (R105, R213, R266). -/
theorem IdEx.Consistent.load_forwards {cfg : RunConfig} {e : IdEx} (h : e.Consistent cfg) (he : e.empty = false)
    (hread : e.ctrl.memRead = true) (hwrite : e.ctrl.regWrite = true) (hdest : e.dest ≠ 0#5) (a b d : Word) :
    ((e.toExMem a b).toMemWb d).forwards e.dest = true ∧ ((e.toExMem a b).toMemWb d).wbValue = d := by
  obtain ⟨hctrl, hactl, -⟩ := h.2.1 he
  obtain ⟨-, hjump, hjumpReg, hmemToReg, -⟩ := (wordCtrl_exclusive e.instr).1 (by rw [← hctrl, hread])
  rw [← hctrl] at hjump hmemToReg
  rw [← hactl] at hjumpReg
  constructor
  · simp [MemWb.forwards, MemWb.writesReg, writesRegFields, ExMem.toMemWb, IdEx.toExMem, hwrite, hjumpReg, hjump, hdest]
  · simp [MemWb.wbValue, ExMem.toMemWb, IdEx.toExMem, hmemToReg]

/-- The cycle of the stall: the load goes on to `EXMEM` with a bubble behind it, and the front end is held; a load does
not redirect, so nothing overrides the stall (R234, R254). -/
theorem scalar_next_of_loadUse {s t : State} {r : Retired} (hrun : s.run = .running) (he : s.cfg.engine = .pipelined)
    (hl : s.cfg.lanes = .one) (hc : s.LatchesConsistent)
    (hw : writebackLane s.cfg ⟨s.regs, s.committed⟩ s.memwb.lane1 = .ok r)
    (hstall : loadUse (decodeLane r.regs s.ifid.lane1) s.idex.lane1 = true) (h : step s = .next t) :
    t.cfg = s.cfg ∧ (∃ a b, t.exmem.lane1 = s.idex.lane1.toExMem a b) ∧
      t.front = { idex := ⟨IdEx.bubble, IdEx.bubble⟩, ifid := s.ifid, pc := s.pc } := by
  obtain ⟨r', y, mem, x, run, hw', -, hx, rfl, -⟩ := scalar_next hrun he hl h
  obtain rfl := Except.ok.inj (hw.symm.trans hw')
  obtain ⟨-, hfull, hread, -⟩ := (loadUse_iff _ _).1 hstall
  obtain ⟨-, ⟨hidex, -⟩, -⟩ := hc
  have hredirect : x.redirect = none := redirect_none_of_load hidex hx hread
  refine ⟨rfl, ?_, ?_⟩
  · rcases exMoved_of_ok hx with hbubble | ⟨-, hmoved⟩
    · have hlatch : x.latch.empty = false := (executeOn_of_full hfull hx).1
      rw [hbubble] at hlatch; cases hlatch
    · exact hmoved
  · show scalarFront s r.regs mem x = _
    simp [scalarFront, hredirect, hstall]

/-- A cycle behind a bubble in `IDEX`: the bubble goes on, what stands in `EXMEM` accesses memory, and Decode takes what
stands in `IFID`, whatever that reads (R252). -/
theorem scalar_next_of_bubble {u v : State} (hrun : u.run = .running) (he : u.cfg.engine = .pipelined)
    (hl : u.cfg.lanes = .one) (hd : u.idex.lane1 = IdEx.bubble) (h : step u = .next v) :
    v.exmem.lane1 = ExMem.bubble ∧ MemMoved u.exmem.lane1 v.memwb.lane1 ∧
      ∃ regs, v.idex.lane1 = decodeLane regs u.ifid.lane1 := by
  obtain ⟨r, y, mem, x, run, -, hm, hx, rfl, -⟩ := scalar_next hrun he hl h
  obtain rfl := executeOn_of_bubble hd hx
  refine ⟨rfl, memMoved_of_ok hm, r.regs, ?_⟩
  show (scalarFront u r.regs mem _).idex.lane1 = _
  rw [scalarFront_advances hd _ _ rfl]

/-- With a bubble in `EXMEM` the scalar network gives the value of a producer in `MEMWB` (R267, R269). -/
theorem forward_one_of_memwb {exmem : Lanes ExMem} {memwb : Lanes MemWb} {q : Reg} (hx : exmem.lane1 = ExMem.bubble)
    (hw : memwb.lane1.forwards q = true) (v : Word) : forward .one exmem memwb q v = memwb.lane1.wbValue := by
  have hbubble : ExMem.bubble.forwards q = false := rfl
  simp [forward, hx, hbubble, hw]

/-- Settles O38: the cycle of the stall (`scalar_next_of_loadUse`) leaves a bubble in `IDEX`, so the next cycle cannot
stall on load-use (`scalar_next_of_bubble`), and the load is then the producer in `MEMWB`. -/
theorem loadUseStallOnce : Obligations.LoadUseStallOnce := by
  intro s t u r hrun he hl hc hw hstall ht htrun hu
  obtain ⟨hcfg, ⟨a, b, htload⟩, htfront⟩ := scalar_next_of_loadUse hrun he hl hc hw hstall ht
  obtain ⟨htidex, htifid, htpc⟩ := FrontEnd.mk.inj htfront
  obtain ⟨huexmem, humoved, regs, huidex⟩ :=
    scalar_next_of_bubble htrun (by rw [hcfg, he]) (by rw [hcfg, hl]) (congrArg Lanes.lane1 htidex) hu
  obtain ⟨hdfull, hfull, hread, hwrite, hdest, -⟩ := (loadUse_iff _ _).1 hstall
  have hifid : s.ifid.lane1.empty = false := by rwa [decodeLane_empty] at hdfull
  obtain ⟨d, huload⟩ : ∃ d, u.memwb.lane1 = (s.idex.lane1.toExMem a b).toMemWb d := by
    rw [htload] at humoved
    rcases humoved with ⟨hempty, -⟩ | ⟨-, d, -, hd⟩
    · cases hempty
    · exact ⟨d, hd⟩
  obtain ⟨-, ⟨hidex, -⟩, -⟩ := hc
  obtain ⟨hforwards, hvalue⟩ := hidex.load_forwards hfull hread hwrite hdest a b d
  rw [htifid, decodeLane_of_full hifid] at huidex
  refine ⟨congrArg Lanes.lane1 htidex, congrArg Lanes.lane1 htifid, htpc, by rw [htload]; rfl, by rw [htload]; rfl,
    by rw [huidex], by rw [huidex], huexmem, by rw [huload]; rfl, fun v => ?_⟩
  rw [forward_one_of_memwb huexmem (by rw [huload, hforwards]), huload, hvalue]
  rfl

end Sys2Proof.Machine

/-! The family of spec/46_forwarding.md: the forwarded operands are the settled ones (R266 to R271), and the exclusion of
jumps from the producers takes none away (R272). -/

namespace Sys2Proof.Machine

theorem Lanes.Both.of_lane {α : Type} {p : α → Prop} {l : Lanes α} (h : l.Both p) {x : α}
    (hx : x = l.lane1 ∨ x = l.lane2) : p x := by
  rcases hx with rfl | rfl
  · exact h.1
  · exact h.2

/-- Settles O43: the values latched in `IDEX` are those of the register file (`State.OperandsCurrent`), and from these
the network makes the settled ones (`forward_eq_settledRegs`). -/
theorem forwardedOperandsAreCurrent : Obligations.ForwardedOperandsAreCurrent := by
  intro s r y mem hrun hpipe hord hinv hw hm e he hfull q hq
  obtain ⟨-, -, -, -, hone⟩ := hord
  have htwo (hl : s.cfg.lanes = .one) : s.exmem.lane2 = ExMem.bubble ∧ s.memwb.lane2 = MemWb.bubble := by
    obtain ⟨-, -, hexmem, hmemwb⟩ := hone hl
    exact ⟨hexmem, hmemwb⟩
  have hsettled := forward_eq_settledRegs htwo hinv hw hm he hq
  obtain ⟨hrs, hrt⟩ := (hinv.current hrun hpipe).of_lane he hfull
  constructor
  · rintro rfl; rw [hrs]; exact hsettled
  · rintro rfl; rw [hrt]; exact hsettled

/-- Where jumps are drained and `IDEX` holds an instruction, no jump is in `EXMEM` or `MEMWB` (R272). -/
theorem State.JumpsDrained.noJump {s : State} (hs : s.JumpsDrained) {e : IdEx}
    (he : e = s.idex.lane1 ∨ e = s.idex.lane2) (hfull : e.empty = false) :
    s.exmem.Both ExMem.NoJump ∧ s.memwb.Both MemWb.NoJump := by
  obtain ⟨hexmem, hmemwb⟩ := hs
  have hidex : ¬ s.idex.Both (fun l => l.empty = true) := fun h => by
    rw [h.of_lane he] at hfull; cases hfull
  exact ⟨by_contra fun h => hidex (hexmem h).2, by_contra fun h => hidex (hmemwb h)⟩

/-- No jump aside, a latch of `EXMEM` that holds no load is a producer of what it will write. -/
theorem ExMem.forwards_of_noJump {m : ExMem} (h : m.NoJump) (q : Reg) :
    m.forwards q = (m.writesReg && !m.ctrl.memRead && m.dest == q) := by
  rcases h with he | hj
  · simp [ExMem.forwards, ExMem.writesReg, writesRegFields, he]
  · simp [ExMem.forwards, hj]

/-- Settles O44: with an instruction in `IDEX` no producer latch holds a jump (`State.JumpsDrained.noJump`). -/
theorem jumpExclusionHarmless : Obligations.JumpExclusionHarmless := by
  intro s hs e he hfull
  obtain ⟨hexmem, hmemwb⟩ := hs.noJump he hfull
  exact ⟨fun m hm => ExMem.forwards_of_noJump (hexmem.of_lane hm),
    fun w hw => MemWb.forwards_of_noJump (hmemwb.of_lane hw)⟩

end Sys2Proof.Machine

/-! The families of spec/70_reset_and_hazards.md, spec/47_branch_prediction.md and spec/48_dual_issue.md: the start of a
run (R353), the halt check (R355, R357), redirects (R289 to R294, R304), the predictor (R287, R295 to R297), the
dual-issue engine's latch update (R301, R303, R311, R312), and the timing of straight-line code (R316, R363). -/

namespace Sys2Proof.Machine

/-! ### The start of a run (R353) -/

/-- Settles O26: `State.start` names each part; register 0 reads as 0 whatever stands in its slot, and the table of
`BHT_INIT` answers it at every index it holds. -/
theorem resetState : Obligations.ResetState := by
  intro cfg regs mem s
  refine ⟨rfl, fun r hr => ?_, rfl, rfl, ⟨rfl, rfl⟩, ⟨rfl, rfl⟩, ⟨rfl, rfl⟩, ⟨rfl, rfl⟩, fun hp => ?_, rfl, rfl, rfl, rfl,
    rfl⟩
  · have hslot : r.toNat ≠ 0 := fun h => hr (BitVec.eq_of_toNat_eq h)
    simp [s, State.start, State.reg, RegFile.read, hr, hslot.symm]
  · have hbht : s.predictor.bht = List.replicate (2 ^ cfg.h) cfg.bhtInit := if_pos hp
    refine ⟨rfl, by rw [hbht, List.length_replicate], fun i hi => ?_⟩
    rw [Predictor.counter, hbht, List.getD_replicate _ hi]

theorem start_predictorShaped (cfg : RunConfig) (regs : RegFile) (mem : Memory) :
    (State.start cfg regs mem).PredictorShaped := by
  show (Predictor.atReset cfg).Shaped cfg
  cases hp : cfg.predict <;> simp [Predictor.Shaped, Predictor.atReset, hp]

/-- Settles O55: nothing is in flight at the start (`start_pipelineInv`), and `State.reset` is a start from an aligned
entry with no byte listed. -/
theorem invariantsAtStart : Obligations.InvariantsAtStart := by
  have hstart : ∀ (cfg : RunConfig) (regs : RegFile) (mem : Memory), cfg.entryPC.toNat % 4 = 0 → mem.wf = true →
      (∀ c ∈ mem, c.1 < 4 * cfg.memWords) →
      let s := State.start cfg regs mem
      s.MemoryCanonical ∧ s.PcAligned ∧ s.LatchesConsistent ∧ s.LanesOrdered ∧ s.PredictorShaped ∧ s.PipelineInv ∧
        s.ThroughputBounded := by
    intro cfg regs mem hentry hwf hsize s
    have hinv : s.PipelineInv := start_pipelineInv cfg regs mem
    refine ⟨⟨hwf, hsize⟩, ⟨hentry, ⟨rfl, rfl⟩, ⟨rfl, rfl⟩, ⟨rfl, rfl⟩, rfl, rfl⟩, hinv.consistent,
      ⟨nofun, nofun, nofun, nofun, fun _ => ⟨rfl, rfl, rfl, rfl⟩⟩, start_predictorShaped cfg regs mem, hinv, ?_⟩
    exact fun _ => ⟨fun _ => ⟨Nat.zero_le _, Nat.zero_le _, Nat.zero_le _, Nat.zero_le _, Nat.zero_le _⟩, nofun⟩
  exact ⟨hstart, hstart RunConfig.atReset _ [] rfl rfl nofun⟩

/-! ### The halt check (R355, R357) -/

/-- The run state after the halt check of a machine that still runs. -/
theorem haltCheck_run {u t : State} (hr : u.run = .running) (h : u.haltCheck = .ok t) :
    t.run = if u.memwb.lane1.atEnd u.cfg = true ∨ (u.cfg.lanes = .two ∧ u.memwb.lane2.atEnd u.cfg = true) then .halted
      else .running := by
  rcases haltCheck_ok h with ⟨h1, rfl⟩ | ⟨h1, h2, rfl⟩ | ⟨-, hl, h2, r, -, rfl⟩
  · rw [if_pos (.inl h1)]; rfl
  · rw [if_neg, hr]
    rintro (h | ⟨hl, h⟩)
    · rw [h1] at h; cases h
    · rcases h2 with h2 | h2
      · rw [hl] at h2; cases h2
      · rw [h2] at h; cases h
  · rw [if_pos (.inr ⟨hl, h2⟩)]

theorem writebackLane_committed {cfg : RunConfig} {r r' : Retired} {w : MemWb} (h : writebackLane cfg r w = .ok r') :
    r'.committed = r.committed + if w.empty then 0 else 1 := by
  obtain ⟨-, -, hc⟩ := writebackLane_ok h
  rw [hc]; split <;> rfl

/-- Writeback of lane 1 retires no more than both lanes hold. -/
theorem writebackLane_committed_le {cfg : RunConfig} {r r' : Retired} {w : MemWb} (h : writebackLane cfg r w = .ok r')
    (empty2 : Bool) : r'.committed ≤ r.committed + occupied w.empty empty2 :=
  (writebackLane_committed h).le.trans (Nat.add_le_add_left (Nat.le_add_right _ _) _)

/-- A cycle of the running pipeline ends with the halt check, when Writeback has retired no more than `MEMWB` held. -/
theorem pipelined_haltCheck {s t : State} (hr : s.run = .running) (he : s.cfg.engine = .pipelined)
    (h : step s = .next t) : ∃ u : State, u.haltCheck = .ok t ∧ u.run = .running ∧ u.cfg = s.cfg ∧
      u.committed ≤ s.committed + occupied s.memwb.lane1.empty s.memwb.lane2.empty := by
  rcases pipelined_next hr he h with ⟨-, r, y, mem, x, hw, -, -, hh⟩ | ⟨-, r, y, mem, x, hw, -, -, hh⟩
  · exact ⟨scalarUpdate s r y mem x, hh, hr, rfl, writebackLane_committed_le hw _⟩
  · exact ⟨dualUpdate s r y mem x, hh, hr, rfl, (writebackBoth_effect hw).2.le⟩

/-- Settles O32: a cycle ends with the halt check, which leaves `MEMWB` as the latch update made it. -/
theorem haltCheck : Obligations.HaltCheck := by
  intro s t hrun hengine hstep
  obtain ⟨u, hh, hu, hcfg, -⟩ := pipelined_haltCheck hrun hengine hstep
  have hrunState := haltCheck_run hu hh
  obtain ⟨-, -, -, -, -, hmemwb, -⟩ := haltCheck_keeps hh
  simp only [← hmemwb, hcfg, atEnd_iff] at hrunState
  exact ⟨fun h => by rw [hrunState, if_pos h], fun h => by rw [hrunState, if_neg h]⟩

/-! ### Redirects (R286 to R291, R304) -/

/-- Settles O42: both clauses are the two branches of `executeBoth`. -/
theorem laneOneRedirectSquashesLaneTwo : Obligations.LaneOneRedirectSquashesLaneTwo := by
  intro s x1 hl h1
  refine ⟨fun target ht => ?_, fun x2 hn h2 => ?_⟩
  · simp only [executeBoth, h1, ht]
  · have h2 : s.executeOn x1.predictor s.idex.lane2 = .ok x2 := by rw [State.executeOn, hl]; exact h2
    simp only [executeBoth, h1, hn, h2]

/-- Execute of a BEQ or BNE: the direction is the comparison of the operands, and the redirect and the predictor go by
it (R286, R287, R289, R290). -/
theorem execute_branch (cfg : RunConfig) (p : Predictor) {e : IdEx} (ne : Bool)
    (hc : e.ctrl = { Ctrl.zero with branch := true, branchNE := ne, aluOp := 0b01#2 })
    (ha : e.actl = { AluControl.zero with op := .sub }) (himm : e.imm = sextImm (immOf e.instr)) {a b : Word}
    {taken : Bool} (ht : branchTaken ne (a == b) = taken) :
    executePredictor cfg p e a b = p.resolve cfg e.pc taken ∧
      executeRedirect e a b = .ok (if taken = e.pred then none
        else if taken then some (branchAddress e.pc (immOf e.instr)) else some (nextPc e.pc)) := by
  have hres : resolvedTaken e a b = taken := by
    simpa [resolvedTaken, aluOutput, aluExecute, aluOperand1, aluOperand2, aluResult, hc, ha, Ctrl.zero,
      AluControl.zero, zeroFlag_sub] using ht
  have hb : e.ctrl.branch = true := by rw [hc]
  constructor
  · rw [executePredictor, hb, if_pos rfl, hres]
  · rw [executeRedirect, hb, if_pos rfl, hres, himm, ← branchTarget_eq_branchAddress]
    simp only [beq_iff_eq, branchTarget]

/-- The control words of an instruction that is no branch and no jump ask for no transfer (R101, R103). -/
theorem no_transfer_of_codes {w : Word} {i : Instr} {o f : BitVec 6} (hi : decodeWord w = .ok i) (ho : opcodeOf w = o)
    (hf : functOf w = f) (hb : (decodeUnit o).branch = false) (hj : (decodeUnit o).jump = false)
    (hr : (aluControlRow (decodeUnit o).aluOp f o).jumpReg = false) :
    (wordCtrl w).branch = false ∧ (wordCtrl w).jump = false ∧ (wordActl w).jumpReg = false := by
  rw [wordCtrl_of_opcode hi ho, wordActl_of_codes hi ho hf]
  exact ⟨hb, hj, hr⟩

theorem no_transfer_of_ok {w : Word} {i : Instr} (hi : decodeWord w = .ok i) (ht : isTransfer i = false) :
    (wordCtrl w).branch = false ∧ (wordCtrl w).jump = false ∧ (wordActl w).jumpReg = false := by
  have h := decodeWord_ok hi
  cases i
  case beq | bne | j | jal | jr => cases ht
  case sll | srl | sra | add | addu | sub | subu | and | or | xor | nor | slt | sltu =>
    exact no_transfer_of_codes hi h.1 h.2.1 rfl rfl rfl
  all_goals exact no_transfer_of_codes hi h.1 rfl rfl rfl rfl

/-- Nor do those of a word outside the subset (R96). -/
theorem no_transfer {w : Word} (h : ∀ i, decodeWord w = .ok i → isTransfer i = false) :
    (wordCtrl w).branch = false ∧ (wordCtrl w).jump = false ∧ (wordActl w).jumpReg = false := by
  cases hd : decodeWord w with
  | ok i => exact no_transfer_of_ok hd (h i hd)
  | error why => rw [wordCtrl_of_error hd, wordActl_of_error hd]; exact ⟨rfl, rfl, rfl⟩

theorem executePredictor_of_not_branch (cfg : RunConfig) (p : Predictor) {e : IdEx} (h : e.ctrl.branch = false)
    (a b : Word) : executePredictor cfg p e a b = p := by
  rw [executePredictor, h]; rfl

/-- Settles O41: the control words of each class (`wordCtrl_of_opcode`, `wordActl_of_codes`, `no_transfer`) select its
row of R290. -/
theorem redirectTable : Obligations.RedirectTable := by
  refine ⟨fun cfg p a b => executeLane_bubble cfg p a b, fun cfg p e a b hfull hcons => ?_⟩
  intro learn
  obtain ⟨-, hfields, -⟩ := hcons
  obtain ⟨hctrl, hactl, -, -, -, himm⟩ := hfields hfull
  refine ⟨fun rs rt imm hi => ?_, fun rs rt imm hi => ?_, fun index hi => ?_, fun rs hi => ?_, fun hi => ?_⟩
  · obtain ⟨ho, -, -, rfl⟩ := decodeWord_ok hi
    have hbranch := execute_branch cfg p (a := a) (b := b) false (hctrl.trans (wordCtrl_of_opcode hi ho))
      (hactl.trans (wordActl_of_codes hi ho rfl)) himm (taken := decide (a = b)) rfl
    simp only [decide_eq_true_eq] at hbranch
    exact hbranch
  · obtain ⟨ho, -, -, rfl⟩ := decodeWord_ok hi
    have hbranch := execute_branch cfg p (a := a) (b := b) true (hctrl.trans (wordCtrl_of_opcode hi ho))
      (hactl.trans (wordActl_of_codes hi ho rfl)) himm (taken := decide (a ≠ b)) (by simp [branchTaken, beq_eq_decide])
    simp only [decide_eq_true_eq] at hbranch
    exact hbranch
  · obtain ⟨hb, hj, rfl⟩ : e.ctrl.branch = false ∧ e.ctrl.jump = true ∧ index = indexOf e.instr := by
      rcases hi with hi | hi
      · obtain ⟨ho, hindex⟩ := decodeWord_ok hi
        rw [hctrl, wordCtrl_of_opcode hi ho]; exact ⟨rfl, rfl, hindex⟩
      · obtain ⟨ho, hindex⟩ := decodeWord_ok hi
        rw [hctrl, wordCtrl_of_opcode hi ho]; exact ⟨rfl, rfl, hindex⟩
    refine ⟨executePredictor_of_not_branch cfg p hb a b, ?_⟩
    simp [executeRedirect, hb, hj, jumpTarget_eq_jumpAddress]
  · obtain ⟨ho, hf, -⟩ := decodeWord_ok hi
    have hc : e.ctrl = Ctrl.rType := hctrl.trans (wordCtrl_of_opcode hi ho)
    have hr : e.actl.jumpReg = true := by rw [hactl, wordActl_of_codes hi ho hf]; rfl
    refine ⟨executePredictor_of_not_branch cfg p (by rw [hc]; rfl) a b, ?_⟩
    simp [executeRedirect, hc, hr, Ctrl.rType, Ctrl.zero, aligned4_iff, byteOffset]
  · obtain ⟨hb, hj, hr⟩ := no_transfer hi
    rw [← hctrl] at hb hj
    rw [← hactl] at hr
    exact ⟨executePredictor_of_not_branch cfg p hb a b, executeRedirect_none hb hj hr a b⟩

end Sys2Proof.Machine

namespace Sys2Proof.Machine

/-! ### The predictor's counters and history (R281, R287, R296, R297) -/

theorem Predictor.counter_update (h : Nat) (p : Predictor) (pc : Word) (taken : Bool) (j : Nat) :
    (p.update h pc taken).counter j =
      if j = predictorIndex h p.ghr pc ∧ j < p.bht.length then bumpCounter taken (p.counter j) else p.counter j := by
  simp only [Predictor.counter, Predictor.update, List.getD_eq_getElem?_getD, List.getElem?_set]
  by_cases hj : predictorIndex h p.ghr pc = j
  · subst hj
    by_cases hlt : predictorIndex h p.ghr pc < p.bht.length <;> simp [hlt]
  · simp [hj, Ne.symm hj]

/-- The counter that the update indexes, in a table of `2^H`. -/
theorem Predictor.counter_update_self {h : Nat} {p : Predictor} (hp : p.bht.length = 2 ^ h) (pc : Word) (taken : Bool) :
    (p.update h pc taken).counter (predictorIndex h p.ghr pc) = bumpCounter taken (p.counter (predictorIndex h p.ghr pc)) := by
  rw [counter_update, if_pos ⟨rfl, by rw [hp]; exact Nat.mod_lt _ (Nat.two_pow_pos h)⟩]

theorem Predictor.counter_update_ne {h : Nat} {p : Predictor} {pc : Word} {j : Nat} (hj : j ≠ predictorIndex h p.ghr pc)
    (taken : Bool) : (p.update h pc taken).counter j = p.counter j := by
  rw [counter_update, if_neg (fun h => hj h.1)]

theorem bumpCounter_taken : ∀ c : BitVec 2, (bumpCounter true c).toNat = min 3 (c.toNat + 1) := by decide

theorem bumpCounter_not_taken : ∀ c : BitVec 2, (bumpCounter false c).toNat = c.toNat - 1 := by decide

/-- Settles O45: an update sets the indexed counter to what `bumpCounter` makes of it, and no other. -/
theorem counterUpdate : Obligations.CounterUpdate := by
  intro h p pc taken hp i q
  have hi : i = predictorIndex h p.ghr pc := by
    show (p.ghr ^^^ pc.toNat / 4 % 2 ^ h) % 2 ^ h = (p.ghr ^^^ pc.toNat / 4) % 2 ^ h
    simp only [Nat.xor_mod_two_pow, Nat.mod_mod]
  rw [hi]
  refine ⟨fun j => by omega, fun j hj => Predictor.counter_update_ne hj taken, fun ht => ?_, fun ht => ?_, rfl, ?_⟩
  · rw [Predictor.counter_update_self hp, ht, bumpCounter_taken]
  · rw [Predictor.counter_update_self hp, ht, bumpCounter_not_taken]
  · exact (List.length_set ..).trans hp

/-- Two histories of `H` bits select two counters for the one branch (R281). -/
theorem predictorIndex_inj {h g g' : Nat} {pc : Word} (hg : g < 2 ^ h) (hg' : g' < 2 ^ h)
    (heq : predictorIndex h g pc = predictorIndex h g' pc) : g = g' := by
  simpa only [predictorIndex, Nat.xor_mod_two_pow, Nat.mod_eq_of_lt hg, Nat.mod_eq_of_lt hg', Nat.xor_left_inj] using heq

/-- The history after `m` taken resolutions, of `H` bits while `m` is at most `H`: `m` ones. -/
theorem ones_lt {m h : Nat} (hm : m ≤ h) : 2 ^ m - 1 < 2 ^ h := by
  have := Nat.pow_le_pow_right (n := 2) (by decide) hm
  have := Nat.two_pow_pos m
  omega

/-- After `k` taken resolutions of one branch the history is `min k H` ones, and of the counters that the branch has yet
to meet all are 0 but the one of `H` ones, which has been met since resolution `H` (R297). -/
structure Trained (h : Nat) (pc : Word) (k : Nat) (p : Predictor) : Prop where
  ghr     : p.ghr = 2 ^ min k h - 1
  length  : p.bht.length = 2 ^ h
  counter : ∀ m, min k h ≤ m → m ≤ h → (p.counter (predictorIndex h (2 ^ m - 1) pc)).toNat = min 3 (k - h)

theorem Trained.update {h : Nat} {pc : Word} {k : Nat} {p : Predictor} (hp : Trained h pc k p) :
    Trained h pc (k + 1) (p.update h pc true) where
  ghr := by
    show (2 * p.ghr + 1) % 2 ^ h = _
    rw [hp.ghr]
    rcases Nat.lt_or_ge k h with hk | hk
    · have hlt := ones_lt (m := k + 1) hk
      have hpos := Nat.two_pow_pos k
      rw [Nat.min_eq_left hk.le, Nat.min_eq_left (show k + 1 ≤ h from hk), ← Nat.mod_eq_of_lt hlt, Nat.pow_succ]
      congr 1; omega
    · have hpos := Nat.two_pow_pos h
      rw [Nat.min_eq_right hk, Nat.min_eq_right (Nat.le_succ_of_le hk),
        show 2 * (2 ^ h - 1) + 1 = (2 ^ h - 1) + 2 ^ h by omega, Nat.add_mod_right, Nat.mod_eq_of_lt (ones_lt (le_refl h))]
  length := (List.length_set ..).trans hp.length
  counter m hkm hmh := by
    have hghr := hp.ghr
    rcases Nat.lt_or_ge k h with hk | hk
    · have hne : predictorIndex h (2 ^ m - 1) pc ≠ predictorIndex h p.ghr pc := fun heq => by
        have hpow := predictorIndex_inj (ones_lt hmh) (by rw [hghr]; exact ones_lt (Nat.min_le_right k h)) heq
        have hlt := Nat.pow_lt_pow_right (a := 2) (by decide) (show min k h < m by omega)
        have := Nat.two_pow_pos (min k h)
        omega
      rw [Predictor.counter_update_ne hne, hp.counter m (by omega) hmh]
      omega
    · obtain rfl : m = h := by omega
      rw [Nat.min_eq_right hk] at hghr
      rw [← hghr, Predictor.counter_update_self hp.length, bumpCounter_taken, hghr, hp.counter m (by omega) (le_refl m)]
      omega

theorem trained_trained (h : Nat) (pc : Word) : ∀ k, Trained h pc k (trained h pc k)
  | 0 => by
    refine ⟨by simp [trained], List.length_replicate, fun m _ hmh => ?_⟩
    have hzero : (trained h pc 0).counter (predictorIndex h (2 ^ m - 1) pc) = 0#2 :=
      List.getD_replicate _ (Nat.mod_lt _ (Nat.two_pow_pos h))
    rw [hzero]; simp
  | k + 1 => (trained_trained h pc k).update

/-- Settles O46: the counter that the history selects has been counted up `k - H` times (`Trained`). -/
theorem predictorConverges : Obligations.PredictorConverges := by
  intro h pc k
  obtain ⟨hghr, -, hcounter⟩ := trained_trained h pc k
  rw [Predictor.predictTaken, hghr, hcounter _ (le_refl _) (Nat.min_le_right k h), decide_eq_decide]
  omega

end Sys2Proof.Machine

namespace Sys2Proof.Machine

/-! ### The predictor's contents decide no more than what is fetched next (R39, R295) -/

/-- The state with other words fetched, another PC and other predictor contents. -/
def State.refetched (s : State) (ifid : Lanes IfId) (pc : Word) (q : Predictor) : State :=
  { s with ifid := ifid, pc := pc, predictor := q }

section Refetched
variable (s : State) (ifid : Lanes IfId) (pc : Word) (q : Predictor)

@[simp] theorem State.refetched_regs : (s.refetched ifid pc q).regs = s.regs := rfl
@[simp] theorem State.refetched_pc : (s.refetched ifid pc q).pc = pc := rfl
@[simp] theorem State.refetched_mem : (s.refetched ifid pc q).mem = s.mem := rfl
@[simp] theorem State.refetched_ifid : (s.refetched ifid pc q).ifid = ifid := rfl
@[simp] theorem State.refetched_idex : (s.refetched ifid pc q).idex = s.idex := rfl
@[simp] theorem State.refetched_exmem : (s.refetched ifid pc q).exmem = s.exmem := rfl
@[simp] theorem State.refetched_memwb : (s.refetched ifid pc q).memwb = s.memwb := rfl
@[simp] theorem State.refetched_predictor : (s.refetched ifid pc q).predictor = q := rfl
@[simp] theorem State.refetched_committed : (s.refetched ifid pc q).committed = s.committed := rfl
@[simp] theorem State.refetched_cfg : (s.refetched ifid pc q).cfg = s.cfg := rfl

/-- Writeback and Memory look at none of these. -/
theorem writebackBoth_refetched : writebackBoth (s.refetched ifid pc q) = writebackBoth s := rfl

theorem memoryBoth_refetched : memoryBoth (s.refetched ifid pc q) = memoryBoth s := rfl

/-- Execute with other predictor contents is the same but for the predictor it leaves. -/
theorem executeOn_refetched (p : Predictor) (e : IdEx) :
    ∃ q', (s.refetched ifid pc q).executeOn q e = (s.executeOn p e).map fun x => { x with predictor := q' } := by
  simp only [State.executeOn, State.refetched_cfg, State.refetched_exmem, State.refetched_memwb]
  cases he : e.empty with
  | true => exact ⟨q, by simp only [executeLane, he]; rfl⟩
  | false =>
    rw [executeLane_eq _ q he, executeLane_eq _ p he]
    cases executeRedirect e _ _ with
    | error f => exact ⟨q, rfl⟩
    | ok redirect => exact ⟨_, rfl⟩

theorem executeBoth_refetched :
    ∃ q', executeBoth (s.refetched ifid pc q) = (executeBoth s).map fun x => { x with predictor := q' } := by
  obtain ⟨q1, h1⟩ := executeOn_refetched s ifid pc q s.predictor s.idex.lane1
  simp only [executeBoth, State.refetched_predictor, State.refetched_idex, h1]
  cases s.executeOn s.predictor s.idex.lane1 with
  | error f => exact ⟨q, rfl⟩
  | ok x1 =>
    simp only [Except.map]
    cases x1.redirect with
    | some target => exact ⟨q1, rfl⟩
    | none =>
      obtain ⟨q2, h2⟩ := executeOn_refetched s ifid pc q1 x1.predictor s.idex.lane2
      have h2 : (s.refetched ifid pc q).executeOn q1 s.idex.lane2 = _ := h2
      simp only [h2]
      cases s.executeOn x1.predictor s.idex.lane2 with
      | error f => exact ⟨q, rfl⟩
      | ok x2 => exact ⟨q2, rfl⟩

/-- Nor does the halt check. -/
theorem haltCheck_refetched :
    (s.refetched ifid pc q).haltCheck = s.haltCheck.map fun t => t.refetched ifid pc q := by
  simp only [State.haltCheck, State.drainLane1, State.refetched_cfg, State.refetched_memwb, State.refetched_regs,
    State.refetched_committed]
  by_cases h1 : s.memwb.lane1.atEnd s.cfg = true
  · simp only [h1, if_true]; rfl
  · cases s.cfg.lanes with
    | one => simp only [h1]; rfl
    | two =>
      by_cases h2 : s.memwb.lane2.atEnd s.cfg = true
      · simp only [h1, h2, if_true]
        cases writebackLane s.cfg ⟨s.regs, s.committed⟩ s.memwb.lane1 <;> rfl
      · simp only [h1, h2]; rfl

end Refetched

/-- What a scalar cycle issues: nothing behind a redirect or a load-use stall. -/
theorem scalarFront_idex (s : State) (regs : RegFile) (mem : Memory) (x : Executed) : (scalarFront s regs mem x).idex =
    if x.redirect.isSome || loadUse (decodeLane regs s.ifid.lane1) s.idex.lane1 then ⟨IdEx.bubble, IdEx.bubble⟩
    else ⟨decodeLane regs s.ifid.lane1, IdEx.bubble⟩ := by
  simp only [scalarFront]
  cases x.redirect with
  | some target => rfl
  | none => by_cases h : loadUse (decodeLane regs s.ifid.lane1) s.idex.lane1 = true <;> simp [h]

/-- What a dual-issue cycle issues: nothing behind a redirect or `stall1`, lane 1 alone under `stall2`. -/
theorem dualFront_idex (s : State) (regs : RegFile) (mem : Memory) (redirect : Option Word) (p : Predictor) :
    (dualFront s regs mem redirect p).idex =
      let d : Lanes IdEx := ⟨decodeLane regs s.ifid.lane1, decodeLane regs s.ifid.lane2⟩
      if redirect.isSome || stallLane1 d s.idex then ⟨IdEx.bubble, IdEx.bubble⟩
      else if stallLane2 d s.idex then ⟨d.lane1, IdEx.bubble⟩ else d := by
  simp only [dualFront]
  cases redirect with
  | some target => rfl
  | none =>
    by_cases h1 : stallLane1 ⟨decodeLane regs s.ifid.lane1, decodeLane regs s.ifid.lane2⟩ s.idex = true
    · simp [h1]
    · by_cases h2 : stallLane2 ⟨decodeLane regs s.ifid.lane1, decodeLane regs s.ifid.lane2⟩ s.idex = true <;>
        simp [h1, h2]

theorem scalarUpdate_refetched (s : State) (q q' : Predictor) (r : Retired) (y : MemWb) (mem : Memory) (x : Executed) :
    ∃ ifid pc, scalarUpdate (s.refetched s.ifid s.pc q) r y mem { x with predictor := q' } =
      (scalarUpdate s r y mem x).refetched ifid pc q' := by
  have hidex := (scalarFront_idex (s.refetched s.ifid s.pc q) r.regs mem { x with predictor := q' }).trans
    (scalarFront_idex s r.regs mem x).symm
  rw [scalarUpdate, hidex]
  exact ⟨_, _, rfl⟩

theorem dualUpdate_refetched (s : State) (q q' : Predictor) (r : Retired) (y : Lanes MemWb) (mem : Memory)
    (x : ExecutedBoth) : ∃ ifid pc, dualUpdate (s.refetched s.ifid s.pc q) r y mem { x with predictor := q' } =
      (dualUpdate s r y mem x).refetched ifid pc q' := by
  have hidex := (dualFront_idex (s.refetched s.ifid s.pc q) r.regs mem x.redirect q').trans
    (dualFront_idex s r.regs mem x.redirect x.predictor).symm
  rw [dualUpdate, hidex]
  exact ⟨_, _, rfl⟩

theorem cycleScalar_refetched (s : State) (q : Predictor) :
    ∃ ifid pc q', cycleScalar (s.refetched s.ifid s.pc q) = (cycleScalar s).map fun t => t.refetched ifid pc q' := by
  obtain ⟨q', hx⟩ := executeOn_refetched s s.ifid s.pc q s.predictor s.idex.lane1
  simp only [cycleScalar, State.refetched_cfg, State.refetched_regs, State.refetched_committed, State.refetched_memwb,
    State.refetched_mem, State.refetched_exmem, State.refetched_predictor, State.refetched_idex, hx]
  cases writebackLane s.cfg ⟨s.regs, s.committed⟩ s.memwb.lane1 with
  | error f => exact ⟨s.ifid, s.pc, q, rfl⟩
  | ok r =>
    cases memoryLane s.cfg s.mem s.exmem.lane1 with
    | error f => exact ⟨s.ifid, s.pc, q, rfl⟩
    | ok ym =>
      cases s.executeOn s.predictor s.idex.lane1 with
      | error f => exact ⟨s.ifid, s.pc, q, rfl⟩
      | ok x =>
        obtain ⟨ifid, pc, hu⟩ := scalarUpdate_refetched s q q' r ym.1 ym.2 x
        refine ⟨ifid, pc, q', ?_⟩
        simp only [Except.map, hu]
        exact haltCheck_refetched _ ifid pc q'

theorem cycleDual_refetched (s : State) (q : Predictor) :
    ∃ ifid pc q', cycleDual (s.refetched s.ifid s.pc q) = (cycleDual s).map fun t => t.refetched ifid pc q' := by
  obtain ⟨q', hx⟩ := executeBoth_refetched s s.ifid s.pc q
  simp only [cycleDual, writebackBoth_refetched, memoryBoth_refetched, hx]
  cases writebackBoth s with
  | error f => exact ⟨s.ifid, s.pc, q, rfl⟩
  | ok r =>
    cases memoryBoth s with
    | error f => exact ⟨s.ifid, s.pc, q, rfl⟩
    | ok ym =>
      cases executeBoth s with
      | error f => exact ⟨s.ifid, s.pc, q, rfl⟩
      | ok x =>
        obtain ⟨ifid, pc, hu⟩ := dualUpdate_refetched s q q' r ym.1 ym.2 x
        refine ⟨ifid, pc, q', ?_⟩
        simp only [Except.map, hu]
        exact haltCheck_refetched _ ifid pc q'

/-- A cycle with other predictor contents is the same but for what it fetches, where it goes on, and the predictor. -/
theorem cycle_refetched (s : State) (q : Predictor) :
    ∃ ifid pc q', cycle (s.refetched s.ifid s.pc q) = (cycle s).map fun t => t.refetched ifid pc q' := by
  simp only [cycle, State.refetched_cfg]
  cases s.cfg.lanes with
  | one => exact cycleScalar_refetched s q
  | two => exact cycleDual_refetched s q

/-- Settles O47: the two cycles differ in `IFID`, the PC and the predictor alone (`cycle_refetched`). -/
theorem predictorNoninterference : Obligations.PredictorNoninterference := by
  intro s s' hsame hrun hengine
  obtain ⟨q, rfl⟩ : ∃ q, s' = s.refetched s.ifid s.pc q := ⟨_, hsame⟩
  obtain ⟨ifid, pc, q', hcycle⟩ := cycle_refetched s q
  have hstep := step_pipelined hrun hengine
  have hstep' := (step_pipelined (s := s.refetched s.ifid s.pc q) hrun hengine).trans (congrArg outcomeOf hcycle)
  cases hc : cycle s with
  | error f =>
    rw [hc] at hstep hstep'
    have hstep : step s = .fault f := hstep
    have hstep' : step (s.refetched s.ifid s.pc q) = .fault f := hstep'
    rw [hstep, hstep']
    exact ⟨fun _ => Iff.rfl, fun t ht => by cases ht⟩
  | ok u =>
    rw [hc] at hstep hstep'
    have hstep : step s = .next u := hstep
    have hstep' : step (s.refetched s.ifid s.pc q) = .next (u.refetched ifid pc q') := hstep'
    rw [hstep, hstep']
    refine ⟨fun _ => ⟨nofun, nofun⟩, fun t ht => ⟨u.refetched ifid pc q', rfl, ?_⟩⟩
    obtain rfl := Host.Outcome.next.inj ht
    exact ⟨rfl, rfl, rfl, rfl, rfl, rfl, rfl, rfl⟩

end Sys2Proof.Machine

namespace Sys2Proof.Machine

/-! ### The latch update of the dual-issue engine (R310 to R312) -/

theorem atEnd_eq_false {cfg : RunConfig} {w : MemWb} (h : w.empty = true ∨ w.pc ≠ cfg.endPC) : w.atEnd cfg = false := by
  rcases h with h | h <;> simp [MemWb.atEnd, h]

section DualFront
variable {s : State} {regs : RegFile} (mem : Memory) {redirect : Option Word} (p : Predictor)

theorem dualFront_of_stall1 (hr : redirect = none)
    (h1 : stallLane1 ⟨decodeLane regs s.ifid.lane1, decodeLane regs s.ifid.lane2⟩ s.idex = true) :
    dualFront s regs mem redirect p = { idex := ⟨IdEx.bubble, IdEx.bubble⟩, ifid := s.ifid, pc := s.pc } := by
  simp [dualFront, hr, h1]

theorem dualFront_of_stall2 (hr : redirect = none)
    (h1 : stallLane1 ⟨decodeLane regs s.ifid.lane1, decodeLane regs s.ifid.lane2⟩ s.idex = false)
    (h2 : stallLane2 ⟨decodeLane regs s.ifid.lane1, decodeLane regs s.ifid.lane2⟩ s.idex = true) :
    dualFront s regs mem redirect p =
      { idex := ⟨decodeLane regs s.ifid.lane1, IdEx.bubble⟩, ifid := ⟨IfId.bubble, s.ifid.lane2⟩, pc := s.pc } := by
  simp [dualFront, hr, h1, h2]

theorem dualFront_of_go (hr : redirect = none)
    (h1 : stallLane1 ⟨decodeLane regs s.ifid.lane1, decodeLane regs s.ifid.lane2⟩ s.idex = false)
    (h2 : stallLane2 ⟨decodeLane regs s.ifid.lane1, decodeLane regs s.ifid.lane2⟩ s.idex = false) :
    dualFront s regs mem redirect p =
      { idex := ⟨decodeLane regs s.ifid.lane1, decodeLane regs s.ifid.lane2⟩
        ifid := (fetchBoth s.cfg mem p s.pc).1
        pc   := (fetchBoth s.cfg mem p s.pc).2 } := by
  simp [dualFront, hr, h1, h2]

end DualFront

/-- The address fetched after a word whose predicted direction is `pred` (R222, R284). -/
theorem nextFetch_fetchLatch (cfg : RunConfig) (mem : Memory) (p : Predictor) (pc : Word) :
    nextFetch (fetchLatch cfg mem p pc) =
      if (fetchLatch cfg mem p pc).pred then branchAddress pc (immOf (fetchWord cfg mem pc)) else pc + 4#32 := by
  rw [nextFetch, branchTarget_eq_branchAddress]; rfl

/-- Settles O34: a cycle whose stages complete is `dualUpdate` and the halt check, and its front end goes by redirect,
`stall1`, `stall2`, or none. -/
theorem dualLatchUpdate : Obligations.DualLatchUpdate := by
  intro s r y mem x hrun hengine hl hw hm hx d1 d2 stall1 interLane stall2 i1 i2 p1 p2
  have hstep : step s = outcomeOf (dualUpdate s r y mem x).haltCheck := by
    rw [step_pipelined hrun hengine, cycle, hl]
    exact congrArg outcomeOf (cycleDual_of_ok hw hm hx)
  refine ⟨fun h1 h2 => ?_, fun t ht => ?_⟩
  · rw [haltCheck_of_neither (atEnd_eq_false h1) (atEnd_eq_false h2)] at hstep
    exact ⟨dualUpdate s r y mem x, hstep, hrun, rfl, rfl⟩
  rcases pipelined_next hrun hengine ht with ⟨hl', -⟩ | ⟨-, r', y', mem', x', hw', hm', hx', hh⟩
  · rw [hl] at hl'; cases hl'
  obtain rfl := Except.ok.inj (hw.symm.trans hw')
  obtain ⟨rfl, rfl⟩ := Prod.mk.inj (Except.ok.inj (hm.symm.trans hm'))
  obtain rfl := Except.ok.inj (hx.symm.trans hx')
  obtain ⟨hpc, hmem, hifid, hidex, hexmem, hmemwb, hpredictor, hcycles, -⟩ := haltCheck_keeps hh
  replace hpc : t.pc = (dualFront s r.regs mem x.redirect x.predictor).pc := hpc
  replace hifid : t.ifid = (dualFront s r.regs mem x.redirect x.predictor).ifid := hifid
  replace hidex : t.idex = (dualFront s r.regs mem x.redirect x.predictor).idex := hidex
  refine ⟨hmem, hpredictor, hcycles, hmemwb, hexmem, fun target htarget => ?_, fun hn h1 => ?_, fun hn h1 h2 => ?_,
    fun hn h1 h2 => ?_⟩
  · have hflush : dualFront s r.regs mem x.redirect x.predictor = FrontEnd.flushed target := by rw [htarget]; rfl
    rw [hpc, hifid, hidex, hflush]
    exact ⟨⟨rfl, rfl⟩, ⟨rfl, rfl⟩, rfl⟩
  · rw [hpc, hifid, hidex, dualFront_of_stall1 mem x.predictor hn h1]
    exact ⟨⟨rfl, rfl⟩, rfl, rfl⟩
  · rw [hpc, hifid, hidex, dualFront_of_stall2 mem x.predictor hn h1 h2]
    exact ⟨rfl, rfl, rfl, rfl, rfl⟩
  · rw [hpc, hifid, hidex, dualFront_of_go mem x.predictor hn h1 h2]
    have hp1 : (fetchLatch s.cfg mem x.predictor s.pc).pred = p1 := rfl
    rcases Bool.eq_false_or_eq_true p1 with h | h
    · rw [fetchBoth_of_pred (hp1.trans h), nextFetch_fetchLatch, if_pos (hp1.trans h)]
      exact ⟨rfl, rfl, rfl, fun _ => ⟨rfl, rfl⟩, fun h' => by rw [h] at h'; cases h'⟩
    · rw [fetchBoth_of_not_pred (hp1.trans h), nextFetch_fetchLatch]
      have hnext : nextPc s.pc + 4#32 = s.pc + 8#32 := by rw [nextPc, BitVec.add_assoc]; rfl
      exact ⟨rfl, rfl, rfl, fun h' => by (rw [h] at h'; cases h'), fun _ => ⟨rfl, by rw [hnext]; rfl⟩⟩

/-! ### A load in lane 2 behind a store in lane 1 (R303) -/

/-- Settles O36: lane 2 accesses the memory that lane 1 has left (`memoryLane_read`), and a load's data are the bytes
there (`loadStage_bytes`). -/
theorem loadSeesOlderLaneStore : Obligations.LoadSeesOlderLaneStore := by
  intro s y mem hwf hm store load bo byteAt b h
  obtain ⟨mem1, h1, h2⟩ := memoryBoth_ok hm
  have hbytes : ∀ c, mem1.read c = byteAt c := memoryLane_read hwf h1
  refine ⟨⟨mem1, memoryLane_wf hwf h1, hbytes, h2⟩, fun hfull hread => ?_⟩
  obtain ⟨d, hd, hy⟩ : ∃ d, loadStage s.cfg mem1 load = .ok d ∧ y.lane2 = load.toMemWb d := by
    rcases memoryLane_ok h2 with ⟨hempty, -⟩ | ⟨-, -, d, hd, -, hy⟩
    · rw [show load.empty = true from hempty] at hfull; cases hfull
    · exact ⟨d, hd, hy⟩
  have hdata : y.lane2.memData = loadedData bo load.ctrl b := by
    rw [hy]
    exact (loadStage_bytes hd hread).trans (congrArg (loadedData bo load.ctrl) (funext fun k => hbytes _))
  rw [hdata, loadedData, Ctrl.width]
  refine ⟨fun hb => ?_, fun hb hh => ?_, fun hb hh => ?_⟩
  · rw [hb]; rfl
  · rw [hb, hh]; rfl
  · rw [hb, hh]; rfl

end Sys2Proof.Machine

namespace Sys2Proof.Machine

/-! ### A redirect costs two cycles (R291, R294) -/

theorem executeBoth_of_bubbles {s : State} {x : ExecutedBoth} (hd : s.idex.Both (· = IdEx.bubble))
    (h : executeBoth s = .ok x) :
    x = { latches := ⟨ExMem.bubble, ExMem.bubble⟩, redirect := none, predictor := s.predictor } := by
  obtain ⟨x1, h1, hx⟩ := executeBoth_ok h
  obtain rfl := executeOn_of_bubble hd.1 h1
  obtain ⟨target, ht, -⟩ | ⟨-, x2, h2, rfl⟩ := hx
  · cases ht
  · rw [executeOn_of_bubble hd.2 h2]

/-- With nothing in `IDEX` the front end of the dual-issue engine issues lane 1; with nothing in `IFID` either it
fetches. -/
theorem dualFront_of_bubbles {s : State} (hd : s.idex.Both (· = IdEx.bubble)) (regs : RegFile) (mem : Memory)
    (p : Predictor) :
    (dualFront s regs mem none p).idex.lane1 = decodeLane regs s.ifid.lane1 ∧
    (s.ifid.Both (· = IfId.bubble) →
      (dualFront s regs mem none p).idex.Both (· = IdEx.bubble) ∧
      (dualFront s regs mem none p).ifid.lane1 = fetchLatch s.cfg mem p s.pc) := by
  have h1 : stallLane1 ⟨decodeLane regs s.ifid.lane1, decodeLane regs s.ifid.lane2⟩ s.idex = false := by
    simp [stallLane1, loadUseBoth, hd.1, hd.2, loadUse_bubble_right]
  cases h2 : stallLane2 ⟨decodeLane regs s.ifid.lane1, decodeLane regs s.ifid.lane2⟩ s.idex with
  | true =>
    rw [dualFront_of_stall2 mem p rfl h1 h2]
    refine ⟨rfl, fun hf => ?_⟩
    rw [stallLane2, loadUseBoth, hd.1, hd.2, loadUse_bubble_right, hf.1, hf.2] at h2
    cases h2
  | false =>
    rw [dualFront_of_go mem p rfl h1 h2]
    refine ⟨rfl, fun hf => ⟨⟨by rw [hf.1]; rfl, by rw [hf.2]; rfl⟩, ?_⟩⟩
    cases hp : (fetchLatch s.cfg mem p s.pc).pred with
    | true => rw [fetchBoth_of_pred hp]
    | false => rw [fetchBoth_of_not_pred hp]

/-- A cycle with nothing in `IDEX`: nothing enters `EXMEM`, and lane 1 of `IFID` issues; with nothing in `IFID` either
the word at the PC is fetched. -/
theorem next_of_bubbles {s t : State} (hrun : s.run = .running) (he : s.cfg.engine = .pipelined)
    (hd : s.idex.Both (· = IdEx.bubble)) (h : step s = .next t) :
    t.exmem.Both (· = ExMem.bubble) ∧ (∃ regs, t.idex.lane1 = decodeLane regs s.ifid.lane1) ∧
    (s.ifid.Both (· = IfId.bubble) →
      t.idex.Both (· = IdEx.bubble) ∧ t.ifid.lane1.empty = false ∧ t.ifid.lane1.pc = s.pc) := by
  rcases pipelined_next hrun he h with ⟨-, r, y, mem, x, -, -, hx, hh⟩ | ⟨-, r, y, mem, x, -, -, hx, hh⟩
  · obtain ⟨-, -, hifid, hidex, hexmem, -⟩ := haltCheck_keeps hh
    obtain rfl := executeOn_of_bubble hd.1 hx
    have hfront := scalarFront_advances hd.1 r.regs mem
      (x := { latch := ExMem.bubble, redirect := none, predictor := s.predictor }) rfl
    replace hidex : t.idex = _ := hidex.trans (congrArg FrontEnd.idex hfront)
    replace hifid : t.ifid = _ := hifid.trans (congrArg FrontEnd.ifid hfront)
    refine ⟨by rw [hexmem]; exact ⟨rfl, rfl⟩, ⟨r.regs, by rw [hidex]⟩, fun hf => ⟨?_, by rw [hifid]; rfl,
      by rw [hifid]; rfl⟩⟩
    rw [hidex, hf.1]; exact ⟨rfl, rfl⟩
  · obtain ⟨-, -, hifid, hidex, hexmem, -⟩ := haltCheck_keeps hh
    obtain rfl := executeBoth_of_bubbles hd hx
    obtain ⟨hissue, hfetch⟩ := dualFront_of_bubbles hd r.regs mem s.predictor
    replace hidex : t.idex = (dualFront s r.regs mem none s.predictor).idex := hidex
    replace hifid : t.ifid = (dualFront s r.regs mem none s.predictor).ifid := hifid
    refine ⟨by rw [hexmem]; exact ⟨rfl, rfl⟩, ⟨r.regs, by rw [hidex, hissue]⟩, fun hf => ?_⟩
    obtain ⟨hnone, hfetched⟩ := hfetch hf
    rw [hidex, hifid, hfetched]
    exact ⟨hnone, rfl, rfl⟩

/-- A cycle that redirects empties the front end and sends the fetch to the target (R291). -/
theorem next_of_redirect {s t : State} {target : Word} (hrun : s.run = .running) (he : s.cfg.engine = .pipelined)
    (hr : (s.cfg.lanes = .one ∧ ∃ x, s.executeOn s.predictor s.idex.lane1 = .ok x ∧ x.redirect = some target) ∨
      (s.cfg.lanes = .two ∧ ∃ x, executeBoth s = .ok x ∧ x.redirect = some target)) (h : step s = .next t) :
    t.front = FrontEnd.flushed target := by
  rcases pipelined_next hrun he h with ⟨hl, r, y, mem, x, -, -, hx, hh⟩ | ⟨hl, r, y, mem, x, -, -, hx, hh⟩
  · obtain ⟨hpc, -, hifid, hidex, -⟩ := haltCheck_keeps hh
    obtain ⟨-, x', hx', ht⟩ | ⟨hl', -⟩ := hr
    · obtain rfl := Except.ok.inj (hx.symm.trans hx')
      have hfront : scalarFront s r.regs mem x = FrontEnd.flushed target := by rw [scalarFront, ht]
      rw [State.front, hidex, hifid, hpc]; exact hfront
    · rw [hl] at hl'; cases hl'
  · obtain ⟨hpc, -, hifid, hidex, -⟩ := haltCheck_keeps hh
    obtain ⟨hl', -⟩ | ⟨-, x', hx', ht⟩ := hr
    · rw [hl] at hl'; cases hl'
    · obtain rfl := Except.ok.inj (hx.symm.trans hx')
      have hfront : dualFront s r.regs mem x.redirect x.predictor = FrontEnd.flushed target := by rw [ht]; rfl
      rw [State.front, hidex, hifid, hpc]; exact hfront

/-- Settles O40: the redirect leaves the front end empty (`next_of_redirect`), so the next cycle fetches the target and
the one after decodes it, both with nothing to execute (`next_of_bubbles`). -/
theorem redirectLosesTwoCycles : Obligations.RedirectLosesTwoCycles := by
  intro s t u v target hrun he hr ht htrun hu hurun hv
  obtain ⟨htidex, htifid, htpc⟩ := FrontEnd.mk.inj (next_of_redirect hrun he hr ht)
  have het : t.cfg.engine = .pipelined := by rw [(parametersFixed s t ht).1, he]
  have heu : u.cfg.engine = .pipelined := by rw [(parametersFixed t u hu).1, het]
  have hd : t.idex.Both (· = IdEx.bubble) := by rw [htidex]; exact ⟨rfl, rfl⟩
  have hf : t.ifid.Both (· = IfId.bubble) := by rw [htifid]; exact ⟨rfl, rfl⟩
  obtain ⟨huexmem, -, hfetch⟩ := next_of_bubbles htrun het hd hu
  obtain ⟨hudec, hufull, hupc⟩ := hfetch hf
  rw [htpc] at hupc
  obtain ⟨hvexmem, ⟨regs, hvdec⟩, -⟩ := next_of_bubbles hurun heu hudec hv
  rw [decodeLane_of_full hufull] at hvdec
  exact ⟨htpc, hd, hf, huexmem.1, fun _ => huexmem.2, hufull, hupc, hvexmem.1, fun _ => hvexmem.2, by rw [hvdec],
    by rw [hvdec]; exact hupc⟩

end Sys2Proof.Machine

namespace Sys2Proof.Machine

/-! ### What moves through the latches, pair by pair (R301, R316) -/

/-- Everything a cycle from `s` to `t` does to the latches, self-consistent or not. -/
structure Flows (s t : State) : Prop where
  exmem  : ExMoved s.idex.lane1 t.exmem.lane1 ∧ ExMoved s.idex.lane2 t.exmem.lane2
  memwb1 : MemMoved s.exmem.lane1 t.memwb.lane1
  memwb2 : t.memwb.lane2 = MemWb.bubble ∨ MemMoved s.exmem.lane2 t.memwb.lane2
  one    : s.cfg.lanes = .one → t.exmem.lane2 = ExMem.bubble ∧ t.memwb.lane2 = MemWb.bubble
  front  : ∃ regs, FrontCase s regs t

theorem pipelined_flows {s t : State} (hr : s.run = .running) (he : s.cfg.engine = .pipelined) (h : step s = .next t) :
    Flows s t := by
  rcases pipelined_next hr he h with ⟨hl, r, y, mem, x, -, hm, hx, hh⟩ | ⟨hl, r, y, mem, x, -, hm, hx, hh⟩
  · obtain ⟨-, -, hifid, hidex, hexmem, hmemwb, -⟩ := haltCheck_keeps hh
    have hfront := (scalarFront_cases (x := x) (mem := mem) (regs := r.regs) hl hidex hifid).1
    refine ⟨?_, ?_, ?_, fun _ => ?_, r.regs, hfront⟩
    · rw [hexmem]; exact ⟨exMoved_of_ok hx, .inl rfl⟩
    · rw [hmemwb]; exact memMoved_of_ok hm
    · rw [hmemwb]; exact .inl rfl
    · rw [hexmem, hmemwb]; exact ⟨rfl, rfl⟩
  · obtain ⟨-, -, hifid, hidex, hexmem, hmemwb, -⟩ := haltCheck_keeps hh
    have hfront := (dualFront_cases (mem := mem) (regs := r.regs) hl hidex hifid).1
    obtain ⟨mem1, hm1, hm2⟩ := memoryBoth_ok hm
    obtain ⟨x1, hx1, hx2⟩ := executeBoth_ok hx
    refine ⟨?_, ?_, ?_, fun hl' => ?_, r.regs, hfront⟩
    · rw [hexmem]
      rcases hx2 with ⟨target, -, rfl⟩ | ⟨-, x2, hx2, rfl⟩
      · exact ⟨exMoved_of_ok hx1, .inl rfl⟩
      · exact ⟨exMoved_of_ok hx1, exMoved_of_ok hx2⟩
    · rw [hmemwb]; exact memMoved_of_ok hm1
    · rw [hmemwb]; exact .inr (memMoved_of_ok hm2)
    · rw [hl] at hl'; cases hl'

/-- What stands in `EXMEM` has come from `IDEX`, with its pc. -/
theorem ExMoved.of_full {e : IdEx} {m : ExMem} (h : ExMoved e m) (hm : m.empty = false) :
    e.empty = false ∧ m.pc = e.pc := by
  rcases h with rfl | ⟨he, a, b, rfl⟩
  · cases hm
  · exact ⟨he, rfl⟩

/-- What stands in `MEMWB` has come from `EXMEM`, with its pc. -/
theorem MemMoved.of_full {m : ExMem} {w : MemWb} (h : MemMoved m w) (hw : w.empty = false) :
    m.empty = false ∧ w.pc = m.pc := by
  rcases h with ⟨-, rfl⟩ | ⟨hm, d, -, rfl⟩
  · cases hw
  · exact ⟨hm, rfl⟩

theorem Flows.memwb2_of_full {s t : State} (h : Flows s t) (hw : t.memwb.lane2.empty = false) :
    s.exmem.lane2.empty = false ∧ t.memwb.lane2.pc = s.exmem.lane2.pc := by
  rcases h.memwb2 with hb | hm
  · rw [hb] at hw; cases hw
  · exact hm.of_full hw

theorem decodeLane_of_full_pc {regs : RegFile} {l : IfId} (h : (decodeLane regs l).empty = false) :
    l.empty = false ∧ (decodeLane regs l).pc = l.pc := by
  rw [decodeLane_empty] at h
  exact ⟨h, by rw [decodeLane_of_full h]⟩

/-! ### The order of the lanes (R32, R301) -/

/-- The front end keeps the pairs: what issues together was fetched together, from two successive words. -/
theorem FrontCase.lanesOrdered {s t : State} {regs : RegFile} (h : FrontCase s regs t)
    (hs : s.ifid.lane1.empty = false → s.ifid.lane2.empty = false → s.ifid.lane2.pc = s.ifid.lane1.pc + 4#32) :
    (t.ifid.lane1.empty = false → t.ifid.lane2.empty = false → t.ifid.lane2.pc = t.ifid.lane1.pc + 4#32) ∧
    (t.idex.lane1.empty = false → t.idex.lane2.empty = false → t.idex.lane2.pc = t.idex.lane1.pc + 4#32) := by
  cases h with
  | flush idex ifid => rw [idex, ifid]; exact ⟨nofun, nofun⟩
  | stall idex ifid => rw [idex, ifid]; exact ⟨hs, nofun⟩
  | split _ idex ifid _ => rw [idex, ifid]; exact ⟨nofun, fun _ => nofun⟩
  | goOne _ mem p idex ifid _ => rw [idex, ifid]; exact ⟨fun _ => nofun, fun _ => nofun⟩
  | goTwo _ mem p idex ifid _ _ =>
    rw [idex]
    refine ⟨?_, fun h1 h2 => ?_⟩
    · rcases ifid with ifid | ifid
      · rw [ifid]; exact fun _ => nofun
      · rw [ifid]; exact fun _ _ => rfl
    · obtain ⟨hf1, hpc1⟩ := decodeLane_of_full_pc h1
      obtain ⟨hf2, hpc2⟩ := decodeLane_of_full_pc h2
      exact hpc2.trans ((hs hf1 hf2).trans (by rw [hpc1]))

/-- With one lane the front end leaves lane 2 empty. -/
theorem FrontCase.lane2_of_one {s t : State} {regs : RegFile} (h : FrontCase s regs t) (hl : s.cfg.lanes = .one)
    (hs : s.ifid.lane2 = IfId.bubble) : t.ifid.lane2 = IfId.bubble ∧ t.idex.lane2 = IdEx.bubble := by
  cases h with
  | flush idex ifid => rw [idex, ifid]; exact ⟨rfl, rfl⟩
  | stall idex ifid => rw [idex, ifid]; exact ⟨hs, rfl⟩
  | goOne _ mem p idex ifid _ => rw [idex, ifid]; exact ⟨rfl, rfl⟩
  | split lanes | goTwo lanes => rw [hl] at lanes; cases lanes

theorem Flows.lanesOrdered {s t : State} (h : Flows s t) (hcfg : t.cfg = s.cfg) (hs : s.LanesOrdered) :
    t.LanesOrdered := by
  obtain ⟨hifid, hidex, hexmem, -, hone⟩ := hs
  obtain ⟨regs, hfront⟩ := h.front
  obtain ⟨hifid', hidex'⟩ := hfront.lanesOrdered hifid
  refine ⟨hifid', hidex', fun h1 h2 => ?_, fun h1 h2 => ?_, fun hl => ?_⟩
  · obtain ⟨he1, hpc1⟩ := h.exmem.1.of_full h1
    obtain ⟨he2, hpc2⟩ := h.exmem.2.of_full h2
    rw [hpc1, hpc2]; exact hidex he1 he2
  · obtain ⟨he1, hpc1⟩ := h.memwb1.of_full h1
    obtain ⟨he2, hpc2⟩ := h.memwb2_of_full h2
    rw [hpc1, hpc2]; exact hexmem he1 he2
  · rw [hcfg] at hl
    obtain ⟨hf2, hd2⟩ := hfront.lane2_of_one hl (hone hl).1
    exact ⟨hf2, hd2, h.one hl⟩

/-- Settles O51: the single-cycle engine leaves the latches alone, and a cycle moves the lanes in pairs
(`Flows.lanesOrdered`). -/
theorem lanesOrderedKept : Obligations.LanesOrderedKept := by
  refine step_keeps (fun s t _ h hs => ?_) (fun s t hr he h hs => ?_)
  · obtain ⟨hifid, hidex, hexmem, hmemwb⟩ := seqStep_latches h
    unfold State.LanesOrdered
    rwa [hifid, hidex, hexmem, hmemwb, seqStep_cfg h]
  · exact (pipelined_flows hr he h).lanesOrdered (parametersFixed s t h).1 hs

/-! ### The bound on the throughput (R40, R316, R363) -/

theorem occupied_le {a1 a2 b1 b2 : Bool} (h1 : a1 = false → b1 = false) (h2 : a2 = false → b2 = false) :
    occupied a1 a2 ≤ occupied b1 b2 := by
  have lane {a b : Bool} (h : a = false → b = false) : (if a then 0 else 1) ≤ if b then 0 else 1 := by
    cases a with
    | true => exact Nat.zero_le _
    | false => rw [h rfl]
  exact Nat.add_le_add (lane h1) (lane h2)

/-- `IDEX` takes in no more than `IFID` held, and `IFID` no more than `LANES` words beside what it holds back. -/
theorem FrontCase.occupied_le {s t : State} {regs : RegFile} (h : FrontCase s regs t) :
    occupied t.idex.lane1.empty t.idex.lane2.empty ≤ occupied s.ifid.lane1.empty s.ifid.lane2.empty ∧
    occupied t.idex.lane1.empty t.idex.lane2.empty + occupied t.ifid.lane1.empty t.ifid.lane2.empty ≤
      occupied s.ifid.lane1.empty s.ifid.lane2.empty + s.cfg.lanes.toNat := by
  have hb : IdEx.bubble.empty = true := rfl
  have hb' : IfId.bubble.empty = true := rfl
  have hf (mem : Memory) (p : Predictor) (pc : Word) : (fetchLatch s.cfg mem p pc).empty = false := rfl
  cases h with
  | flush idex ifid => rw [idex, ifid]; simp [occupied, hb, hb']
  | stall idex ifid => rw [idex, ifid]; simp [occupied, hb]
  | split _ idex ifid _ => rw [idex, ifid]; simp [occupied, hb, hb', decodeLane_empty]
  | goOne lanes mem p idex ifid _ =>
    rw [idex, ifid, lanes]; simp [occupied, hb, hb', hf, decodeLane_empty, LaneCount.toNat]
  | goTwo lanes mem p idex ifid _ _ =>
    rw [idex, lanes]
    rcases ifid with ifid | ifid <;> rw [ifid] <;> simp [occupied, hb', hf, decodeLane_empty, LaneCount.toNat]

/-- The halt check retires nothing while the machine runs on, and no more than `MEMWB` holds when it halts (R318). -/
theorem haltCheck_committed {u t : State} (hr : u.run = .running) (h : u.haltCheck = .ok t) :
    (t.run = .running → t.committed = u.committed) ∧
    t.committed ≤ u.committed + occupied u.memwb.lane1.empty u.memwb.lane2.empty := by
  rcases haltCheck_ok h with ⟨-, rfl⟩ | ⟨-, -, rfl⟩ | ⟨-, -, -, r, hw, rfl⟩
  · exact ⟨fun _ => rfl, Nat.le_add_right _ _⟩
  · exact ⟨fun _ => rfl, Nat.le_add_right _ _⟩
  · exact ⟨nofun, writebackLane_committed_le hw _⟩

/-- Settles O54: each stage takes in no more than the one behind it held a cycle before, and Fetch no more than `LANES`
words, so every line of the bound follows from the next line a cycle before. -/
theorem throughputBoundKept : Obligations.ThroughputBoundKept := by
  refine step_keeps (fun s t he h _ hpipe => ?_) (fun s t hr he h hs _ => ?_)
  · rw [seqStep_cfg h, he] at hpipe; cases hpipe
  obtain ⟨hcfg, hcycles⟩ := parametersFixed s t h
  obtain ⟨hbound, -⟩ := hs he
  obtain ⟨-, h3, h2, h1, h0⟩ := hbound hr
  have hflows := pipelined_flows hr he h
  obtain ⟨regs, hfront⟩ := hflows.front
  obtain ⟨hidex, hifid⟩ := hfront.occupied_le
  have hexmem : occupied t.exmem.lane1.empty t.exmem.lane2.empty ≤ occupied s.idex.lane1.empty s.idex.lane2.empty :=
    occupied_le (fun hm => (hflows.exmem.1.of_full hm).1) (fun hm => (hflows.exmem.2.of_full hm).1)
  have hmemwb : occupied t.memwb.lane1.empty t.memwb.lane2.empty ≤ occupied s.exmem.lane1.empty s.exmem.lane2.empty :=
    occupied_le (fun hw => (hflows.memwb1.of_full hw).1) (fun hw => (hflows.memwb2_of_full hw).1)
  obtain ⟨u, hh, hu, -, hretired⟩ := pipelined_haltCheck hr he h
  obtain ⟨hrunning, hdrained⟩ := haltCheck_committed hu hh
  obtain ⟨-, -, -, -, -, hlatch, -⟩ := haltCheck_keeps hh
  rw [← hlatch] at hdrained
  rw [hcfg, hcycles hr he]
  cases hl : s.cfg.lanes <;> simp only [hl, LaneCount.toNat] at h3 h2 h1 h0 hifid ⊢ <;>
    exact ⟨fun hrun => by have := hrunning hrun; omega, fun _ => by omega⟩

end Sys2Proof.Machine

namespace Sys2Proof.Machine

/-! ### A NOP in each latch (R90) -/

/-- `IFID` with the NOP at this address, or with none. -/
def IfId.nop : Option Word → IfId
  | none    => IfId.bubble
  | some pc => { empty := false, instr := 0#32, pc := pc, pred := false }

/-- `IDEX` with that NOP: SLL of register 0. -/
def IdEx.nop : Option Word → IdEx
  | none    => IdEx.bubble
  | some pc =>
    { IdEx.bubble with
      empty := false
      pc    := pc
      ctrl  := Ctrl.rType
      actl  := { AluControl.zero with op := .sll, shift := true } }

/-- `EXMEM` with that NOP. -/
def ExMem.nop : Option Word → ExMem
  | none    => ExMem.bubble
  | some pc => (IdEx.nop (some pc)).toExMem 0#32 0#32

/-- `MEMWB` with that NOP. -/
def MemWb.nop : Option Word → MemWb
  | none    => MemWb.bubble
  | some pc => (ExMem.nop (some pc)).toMemWb 0#32

/-- With no memory byte listed every fetch latches a NOP (log 2), whatever the predictor holds. -/
theorem fetchLatch_nop (cfg : RunConfig) (p : Predictor) (pc : Word) : fetchLatch cfg [] p pc = IfId.nop (some pc) := by
  have hword (k : Nat) : Memory.word cfg.byteOrder [] k = 0#32 := by
    show wordOfBytes cfg.byteOrder 0#8 0#8 0#8 0#8 = 0#32
    cases cfg.byteOrder <;> decide
  have hfetch : fetchWord cfg [] pc = 0#32 := by
    rcases Nat.lt_or_ge (wordIndex pc) cfg.memWords with h | h
    · rw [fetchWord_inRange [] h, hword]
    · exact fetchWord_beyond [] h
  have hbranch : isBranch 0#32 = false := rfl
  simp [fetchLatch, hfetch, predictedTaken, hbranch, IfId.nop]

theorem nextFetch_nop (pc : Word) : nextFetch (IfId.nop (some pc)) = nextPc pc := rfl

theorem decodeLane_nop (regs : RegFile) : ∀ o, decodeLane regs (IfId.nop o) = IdEx.nop o
  | none   => rfl
  | some pc => by
    have hdest : destOf 0#32 Ctrl.rType = 0#5 := by decide
    have hrs : rsOf 0#32 = 0#5 := by decide
    have hrt : rtOf 0#32 = 0#5 := by decide
    have himm : sextImm (immOf 0#32) = 0#32 := by decide
    rw [decodeLane_of_full rfl]
    simp only [IfId.nop, wordCtrl_nop, wordActl_nop, hdest, hrs, hrt, himm, RegFile.read_zero]
    rfl

theorem executeOn_nop (s : State) (p : Predictor) :
    ∀ o, s.executeOn p (IdEx.nop o) = .ok { latch := ExMem.nop o, redirect := none, predictor := p }
  | none    => rfl
  | some pc => by
    have hforward : forward s.cfg.lanes s.exmem s.memwb 0#5 0#32 = 0#32 := forward_zero _ _ _ _
    show executeLane s.cfg p (IdEx.nop (some pc)) (forward s.cfg.lanes s.exmem s.memwb 0#5 0#32)
      (forward s.cfg.lanes s.exmem s.memwb 0#5 0#32) = _
    rw [hforward, executeLane_of_redirect p rfl (executeRedirect_none rfl rfl rfl _ _),
      executePredictor_of_not_branch s.cfg p rfl]
    rfl

theorem memoryLane_nop (cfg : RunConfig) (mem : Memory) : ∀ o, memoryLane cfg mem (ExMem.nop o) = .ok (MemWb.nop o, mem)
  | none   => rfl
  | some _ => memoryLane_of_ok rfl rfl (loadStage_of_not_load cfg mem rfl) (storeStage_of_not_store cfg mem rfl)

/-- Writeback of a NOP fetched from inside the memory counts it and changes no register. -/
theorem writebackLane_nop (cfg : RunConfig) (r : Retired) {o : Option Word}
    (h : ∀ pc, o = some pc → wordIndex pc < cfg.memWords) :
    writebackLane cfg r (MemWb.nop o) = .ok { r with committed := r.committed + if o.isSome then 1 else 0 } := by
  cases o with
  | none   => rfl
  | some pc => exact writebackLane_of_inRange r (.inr (h pc rfl))

theorem loadUse_nop (d : IdEx) : ∀ o, loadUse d (IdEx.nop o) = false
  | none   => loadUse_bubble_right d
  | some _ => by simp [loadUse, IdEx.nop, Ctrl.rType, Ctrl.zero]

/-- NOPs neither load nor write a register: no lane waits for another (R252, R309). -/
theorem stalls_nop (o1 o2 q1 q2 : Option Word) :
    stallLane1 ⟨IdEx.nop o1, IdEx.nop o2⟩ ⟨IdEx.nop q1, IdEx.nop q2⟩ = false ∧
    stallLane2 ⟨IdEx.nop o1, IdEx.nop o2⟩ ⟨IdEx.nop q1, IdEx.nop q2⟩ = false := by
  have hwrites : (IdEx.nop o1).writesReg = false := by cases o1 <;> rfl
  simp [stallLane1, stallLane2, loadUseBoth, loadUse_nop, interLane, hwrites]

theorem atEnd_nop {cfg : RunConfig} {o : Option Word} : (MemWb.nop o).atEnd cfg = true ↔ o = some cfg.endPC := by
  rw [atEnd_iff]
  cases o with
  | none   => exact ⟨fun h => absurd h.1 (by decide), nofun⟩
  | some pc => exact ⟨fun h => congrArg some h.2, fun h => ⟨rfl, Option.some.inj h⟩⟩

/-! ### The pipeline on NOPs, cycle by cycle (R316, R363) -/

/-- The NOP in lane `k` of the latch `d` stages behind the fetch, after `c` cycles of fetching `n` words each. -/
def nopAt (n c d k : Nat) : Option Word := if d ≤ c ∧ k < n then some (BitVec.ofNat 32 (4 * (n * (c - d) + k))) else none

@[simp] theorem nopAt_succ (n c d k : Nat) : nopAt n (c + 1) (d + 1) k = nopAt n c d k := by simp [nopAt]

theorem nopAt_lane2 (c d : Nat) : nopAt 1 c d 1 = none := by simp [nopAt]

theorem nopAt_unfilled {n c d : Nat} (h : c < d) (k : Nat) : nopAt n c d k = none := if_neg (by omega)

theorem nopAt_isSome {n c d k : Nat} : (nopAt n c d k).isSome = decide (d ≤ c ∧ k < n) := by
  unfold nopAt; split <;> simp_all

/-- A pair of latches after `c` cycles, `d` stages behind the fetch. -/
def nopLanes {α : Type} (latch : Option Word → α) (n c d : Nat) : Lanes α := ⟨latch (nopAt n c d 0), latch (nopAt n c d 1)⟩

theorem nopLanes_succ {α : Type} (latch : Option Word → α) (n c d : Nat) :
    nopLanes latch n (c + 1) (d + 1) = nopLanes latch n c d := by simp [nopLanes]

theorem nopLanes_unfilled {α : Type} (latch : Option Word → α) {n c d : Nat} (h : c < d) :
    nopLanes latch n c d = ⟨latch none, latch none⟩ := by
  rw [nopLanes, nopAt_unfilled h, nopAt_unfilled h]

/-- The pipeline after `c` cycles on NOPs from address 0. -/
def nopState (cfg : RunConfig) (regs : RegFile) (c : Nat) : State :=
  let n := cfg.lanes.toNat
  { State.start cfg regs [] with
    pc        := BitVec.ofNat 32 (4 * (n * c))
    ifid      := nopLanes IfId.nop n c 1
    idex      := nopLanes IdEx.nop n c 2
    exmem     := nopLanes ExMem.nop n c 3
    memwb     := nopLanes MemWb.nop n c 4
    cycles    := c
    committed := n * (c - 4) }

section NopCycle
variable (cfg : RunConfig) (regs : RegFile) (c : Nat)

theorem nopState_zero (h : cfg.entryPC = 0#32) : nopState cfg regs 0 = State.start cfg regs [] := by
  simp only [nopState, nopLanes_unfilled _ (Nat.zero_lt_succ _), Nat.mul_zero, Nat.zero_sub]
  rw [State.start, h]; rfl

theorem nopState_laneTwoEmpty : (nopState cfg regs c).LaneTwoEmpty := by
  intro hl
  have hn : cfg.lanes.toNat = 1 := congrArg LaneCount.toNat hl
  simp only [nopState, nopLanes, hn, nopAt_lane2]
  exact ⟨rfl, rfl, rfl, rfl⟩

theorem executeBoth_nopState : executeBoth (nopState cfg regs c) = .ok
    { latches := nopLanes ExMem.nop cfg.lanes.toNat (c + 1) 3, redirect := none, predictor := Predictor.atReset cfg } := by
  have hx (p : Predictor) (o : Option Word) := executeOn_nop (nopState cfg regs c) p o
  have h1 : (nopState cfg regs c).executeOn (nopState cfg regs c).predictor (nopState cfg regs c).idex.lane1 = _ := hx _ _
  have h2 : (nopState cfg regs c).executeOn (nopState cfg regs c).predictor (nopState cfg regs c).idex.lane2 = _ := hx _ _
  simp only [executeBoth, h1, h2, nopLanes_succ]
  rfl

theorem memoryBoth_nopState :
    memoryBoth (nopState cfg regs c) = .ok (nopLanes MemWb.nop cfg.lanes.toNat (c + 1) 4, []) := by
  have h1 : memoryLane (nopState cfg regs c).cfg (nopState cfg regs c).mem (nopState cfg regs c).exmem.lane1 = _ :=
    memoryLane_nop cfg [] _
  have h2 : memoryLane (nopState cfg regs c).cfg [] (nopState cfg regs c).exmem.lane2 = _ := memoryLane_nop cfg [] _
  simp only [memoryBoth, h1, h2, nopLanes_succ]
  rfl

theorem writebackBoth_nopState (h : ∀ k pc, nopAt cfg.lanes.toNat c 4 k = some pc → wordIndex pc < cfg.memWords) :
    writebackBoth (nopState cfg regs c) =
      .ok { regs := (State.start cfg regs []).regs, committed := cfg.lanes.toNat * (c + 1 - 4) } := by
  have h1 (r : Retired) : writebackLane (nopState cfg regs c).cfg r (nopState cfg regs c).memwb.lane1 = _ :=
    writebackLane_nop cfg r (h 0)
  have h2 (r : Retired) : writebackLane (nopState cfg regs c).cfg r (nopState cfg regs c).memwb.lane2 = _ :=
    writebackLane_nop cfg r (h 1)
  simp only [writebackBoth, h1, h2, nopAt_isSome, decide_eq_true_eq]
  congr 2
  show cfg.lanes.toNat * (c - 4) + _ + _ = _
  by_cases h4 : 4 ≤ c <;> cases cfg.lanes <;> simp [h4, LaneCount.toNat] <;> omega

theorem nextPc_ofNat (i : Nat) : nextPc (BitVec.ofNat 32 (4 * i)) = BitVec.ofNat 32 (4 * (i + 1)) := by
  rw [nextPc, Nat.mul_succ, BitVec.ofNat_add]

theorem fetchBoth_nop (p : Predictor) (pc : Word) :
    fetchBoth cfg [] p pc = (⟨IfId.nop (some pc), IfId.nop (some (nextPc pc))⟩, nextPc (nextPc pc)) := by
  rw [fetchBoth_of_not_pred (by rw [fetchLatch_nop]; rfl), fetchLatch_nop, fetchLatch_nop]; rfl

/-- Every cycle on NOPs issues what was fetched and fetches the next words. -/
theorem nextFront_nopState (regs' : RegFile) {x : ExecutedBoth} (hx : x.redirect = none) :
    nextFront (nopState cfg regs c) regs' [] x =
      { idex := nopLanes IdEx.nop cfg.lanes.toNat (c + 1) 2
        ifid := nopLanes IfId.nop cfg.lanes.toNat (c + 1) 1
        pc   := BitVec.ofNat 32 (4 * (cfg.lanes.toNat * (c + 1))) } := by
  have hcfg : (nopState cfg regs c).cfg = cfg := rfl
  have hpc : (nopState cfg regs c).pc = BitVec.ofNat 32 (4 * (cfg.lanes.toNat * c)) := rfl
  have hifid : (nopState cfg regs c).ifid = nopLanes IfId.nop cfg.lanes.toNat c 1 := rfl
  have hidex : (nopState cfg regs c).idex = nopLanes IdEx.nop cfg.lanes.toNat c 2 := rfl
  rw [nopLanes_succ]
  unfold nextFront
  cases hl : cfg.lanes with
  | one =>
    simp only [hcfg, hl, scalarFront, ExecutedBoth.first, hx, hpc, hifid, hidex, nopLanes, decodeLane_nop, loadUse_nop,
      fetchLatch_nop, nextFetch_nop, nextPc_ofNat, LaneCount.toNat, nopAt_lane2]
    simp [nopAt, IfId.nop, IdEx.nop]
  | two =>
    obtain ⟨h1, h2⟩ := stalls_nop (nopAt 2 c 1 0) (nopAt 2 c 1 1) (nopAt 2 c 2 0) (nopAt 2 c 2 1)
    simp only [hcfg, hl, dualFront, hx, hpc, hifid, hidex, nopLanes, decodeLane_nop, LaneCount.toNat, h1, h2,
      fetchBoth_nop, nextPc_ofNat]
    simp [nopAt, Nat.mul_succ]

/-- A cycle on NOPs, up to the halt check. -/
theorem cycle_nopState (h : ∀ k pc, nopAt cfg.lanes.toNat c 4 k = some pc → wordIndex pc < cfg.memWords) :
    cycle (nopState cfg regs c) = (nopState cfg regs (c + 1)).haltCheck := by
  rw [cycle_of_stages (nopState_laneTwoEmpty cfg regs c) (writebackBoth_nopState cfg regs c h)
    (memoryBoth_nopState cfg regs c) (executeBoth_nopState cfg regs c)]
  congr 1
  rw [latchUpdate, nextFront_nopState cfg regs c _ rfl]
  rfl

end NopCycle

/-! ### The run to `END_PC` (R316, R363) -/

section NopRun
variable {cfg : RunConfig} (regs : RegFile) {n : Nat}

theorem wordIndex_ofNat {i : Nat} (hi : 4 * i < 2 ^ 32) : wordIndex (BitVec.ofNat 32 (4 * i)) = i := by
  rw [wordIndex, BitVec.toNat_ofNat]; omega

/-- Until cycle `n / LANES + 4` only NOPs before word `n` have reached `MEMWB`. -/
theorem nopAt_before (hn : 4 * n < 2 ^ 32) {c k : Nat} {pc : Word} (hc : c ≤ n / cfg.lanes.toNat + 3)
    (h : nopAt cfg.lanes.toNat c 4 k = some pc) : wordIndex pc < n := by
  unfold nopAt at h
  split at h
  · rename_i hk
    obtain rfl := Option.some.inj h
    have hi : cfg.lanes.toNat * (c - 4) + k < n := by
      cases hl : cfg.lanes <;> simp only [hl, LaneCount.toNat] at hc hk ⊢ <;> omega
    rwa [wordIndex_ofNat (by omega)]
  · cases h

variable (hn : 4 * n < 2 ^ 32) (hmem : n ≤ cfg.memWords) (hentry : cfg.entryPC = 0#32)
  (hend : cfg.endPC = BitVec.ofNat 32 (4 * n)) (he : cfg.engine = .pipelined)
include hn hmem he

theorem step_nopState {c : Nat} (hc : c ≤ n / cfg.lanes.toNat + 3) :
    step (nopState cfg regs c) = outcomeOf (nopState cfg regs (c + 1)).haltCheck := by
  rw [step_pipelined rfl he, cycle_nopState cfg regs c fun k pc h => (nopAt_before hn hc h).trans_le hmem]

include hend

omit hmem he in
/-- Until then no NOP at `END_PC` is in `MEMWB`. -/
theorem not_atEnd_nopState {c k : Nat} (hc : c ≤ n / cfg.lanes.toNat + 3) :
    (MemWb.nop (nopAt cfg.lanes.toNat c 4 k)).atEnd cfg = false := by
  rw [← Bool.not_eq_true, atEnd_nop]
  intro h
  have hlt := nopAt_before hn hc h
  rw [hend, wordIndex_ofNat hn] at hlt
  exact Nat.lt_irrefl n hlt

include hentry in
theorem reaches_nopState : ∀ c ≤ n / cfg.lanes.toNat + 3, Reaches (State.start cfg regs []) c (nopState cfg regs c)
  | 0, _ => reaches_zero_iff.2 (nopState_zero cfg regs hentry)
  | c + 1, hc => by
    refine reaches_add_iff.2 ⟨_, reaches_nopState c (by omega), reaches_succ_iff.2 ⟨_, ?_, rfl⟩⟩
    rw [step_nopState regs hn hmem he (by omega), haltCheck_of_neither]
    · rfl
    · exact not_atEnd_nopState hn hend hc
    · exact not_atEnd_nopState hn hend hc

/-- The cycle that brings the NOP at `END_PC` into `MEMWB` halts the machine with `n` NOPs retired: in lane 1, or in
lane 2 with the drain of the one beside it. -/
theorem step_nopState_halts : ∃ t, step (nopState cfg regs (n / cfg.lanes.toNat + 3)) = .next t ∧ t.run = .halted ∧
    t.cycles = n / cfg.lanes.toNat + 4 ∧ t.committed = n ∧ t.mem = [] ∧ t.regs = (State.start cfg regs []).regs := by
  rw [step_nopState regs hn hmem he (le_refl _)]
  have hslot (k : Nat) (hk : k < cfg.lanes.toNat) : nopAt cfg.lanes.toNat (n / cfg.lanes.toNat + 4) 4 k =
      some (BitVec.ofNat 32 (4 * (cfg.lanes.toNat * (n / cfg.lanes.toNat) + k))) := by
    simp [nopAt, hk]
  have hlast : cfg.lanes.toNat * (n / cfg.lanes.toNat) = n ∨
      (cfg.lanes = .two ∧ cfg.lanes.toNat * (n / cfg.lanes.toNat) + 1 = n) := by
    cases hl : cfg.lanes <;> simp only [LaneCount.toNat, true_and] <;> omega
  have hslot1 := hslot 0 (laneCount_pos cfg.lanes)
  rcases hlast with hlast | ⟨hl, hlast⟩
  · have h1 : (nopState cfg regs (n / cfg.lanes.toNat + 4)).memwb.lane1.atEnd cfg = true :=
      atEnd_nop.2 (by rw [hslot1, hend, hlast, Nat.add_zero])
    rw [haltCheck_of_lane1 h1]
    exact ⟨_, rfl, rfl, rfl, hlast, rfl, rfl⟩
  · have hindex : wordIndex (BitVec.ofNat 32 (4 * (cfg.lanes.toNat * (n / cfg.lanes.toNat) + 0))) = n - 1 := by
      rw [wordIndex_ofNat (by omega)]; omega
    have h1 : (nopState cfg regs (n / cfg.lanes.toNat + 4)).memwb.lane1.atEnd cfg = false := by
      rw [← Bool.not_eq_true]
      intro h
      have hpc := atEnd_nop.1 h
      rw [hslot1, hend] at hpc
      rw [Option.some.inj hpc, wordIndex_ofNat hn] at hindex
      omega
    have h2 : (nopState cfg regs (n / cfg.lanes.toNat + 4)).memwb.lane2.atEnd cfg = true :=
      atEnd_nop.2 (by rw [hslot 1 (by rw [hl]; decide), hend, hlast])
    have hdrain := writebackLane_nop cfg
      ⟨(State.start cfg regs []).regs, cfg.lanes.toNat * (n / cfg.lanes.toNat)⟩ (o := nopAt _ _ 4 0) fun pc hpc => by
        rw [hslot1] at hpc
        rw [← Option.some.inj hpc, hindex]; omega
    rw [haltCheck_of_lane2 hl h1 h2 hdrain, hslot1]
    exact ⟨_, rfl, rfl, rfl, hlast, rfl, rfl⟩

end NopRun

/-- Settles O58: the run on NOPs (`reaches_nopState`) and its last cycle (`step_nopState_halts`). -/
theorem straightLineCycles : Obligations.StraightLineCycles := by
  intro cfg regs n hn hmem hentry hend k
  obtain ⟨t, ht, hrun, hcycles, hcommitted, htmem, htregs⟩ :=
    step_nopState_halts (cfg := { cfg with engine := .pipelined }) regs hn hmem hend rfl
  have hreach := reaches_nopState (cfg := { cfg with engine := .pipelined }) regs hn hmem hentry hend rfl _ (le_refl _)
  have hk : k = n / cfg.lanes.toNat + 4 := by
    cases hl : cfg.lanes <;> simp [k, hl, LaneCount.toNat]
  refine ⟨t, ?_, hrun, by rw [hk, hcycles], hcommitted, htmem, fun r => ?_⟩
  · rw [hk]
    exact reaches_add_iff (i := n / cfg.lanes.toNat + 3) (j := 1) |>.2 ⟨_, hreach, reaches_succ_iff.2 ⟨t, ht, rfl⟩⟩
  · obtain ⟨-, hregs, -⟩ := resetState cfg regs []
    rw [State.reg, htregs]
    by_cases hr : r = 0#5
    · rw [hr]; rfl
    · rw [if_neg hr]; exact hregs r hr

end Sys2Proof.Machine
